-- ==== Sys2Proof/Word.lean ====
section
/-! DEFINITION. The widths of the block's data: a byte of `BUF`, a 64-bit value, a 32-bit length register, a command word. -/

namespace Sys2Proof

/-- One byte of `BUF` (R21). -/
abbrev Byte := BitVec 8

/-- A value: a 64-bit pattern, `VALW` = 64 (R5, R7). -/
abbrev Word := BitVec 64

/-- A length or count register, `LENW` = 32 (R5, R35). -/
abbrev Len := BitVec 32

/-- A command word (R90). -/
abbrev CmdWord := BitVec 32

end Sys2Proof
end

