-- ==== Sys2Proof/Syntax.lean ====
section
/-! DEFINITION. The commands of the set BSB-1: one constructor per row of the opcode table (R93). -/

namespace Sys2Proof

/-- A command. The suffix `.C` of a mnemonic is `C` here, `.D` is `D`. -/
inductive Instr where
  /-- `NOP` (R125). -/
  | nop
  /-- `BSRESET` (R126). -/
  | bsreset
  /-- `APPENDBIT b` (R127): `b` is bit 0 of the word. -/
  | appendbit (b : Bool)
  /-- `APPENDBITS n` (R128): `n` is the 7-bit field `N`. -/
  | appendbits (n : Nat)
  /-- `FINISH` (R129). -/
  | finish
  /-- `REWIND` (R130). -/
  | rewind
  /-- `READBIT` (R131). -/
  | readbit
  /-- `READBITS n` (R132): `n` is the 7-bit field `N`. -/
  | readbits (n : Nat)
  /-- `VARPUT` (R288). -/
  | varput
  /-- `VARGET` (R289). -/
  | varget
  /-- `GORILLA.C` (R147). -/
  | gorillaC
  /-- `GORILLA.D` (R148). -/
  | gorillaD
  /-- `GORILLAZ.C` (R149). -/
  | gorillazC
  /-- `GORILLAZ.D` (R150). -/
  | gorillazD
  /-- `GORILLAPLUS.C` (R151). -/
  | gorillaplusC
  /-- `GORILLAPLUS.D` (R152). -/
  | gorillaplusD
  /-- `CHIMP.C` (R174). -/
  | chimpC
  /-- `CHIMP.D` (R175). -/
  | chimpD
  /-- `FPC.C` (R189). -/
  | fpcC
  /-- `FPC.D` (R190). -/
  | fpcD
  /-- `PDFCM.C` (R206). -/
  | pdfcmC
  /-- `PDFCM.D` (R207). -/
  | pdfcmD
  /-- `DELTA.C` (R226). -/
  | deltaC
  /-- `DELTA.D` (R227). -/
  | deltaD
  /-- `DELTA2.C` (R228). -/
  | delta2C
  /-- `DELTA2.D` (R229). -/
  | delta2D
  /-- `XORDELTA.C` (R230). -/
  | xordeltaC
  /-- `XORDELTA.D` (R231). -/
  | xordeltaD
  /-- `DELTAXOR.C` (R232). -/
  | deltaxorC
  /-- `DELTAXOR.D` (R233). -/
  | deltaxorD
  /-- `PLAIN.C` (R234). -/
  | plainC
  /-- `PLAIN.D` (R235). -/
  | plainD
  /-- `CONST.C` (R236). -/
  | constC
  /-- `CONST.D` (R237). -/
  | constD
  /-- `DELTACONST.C` (R238). -/
  | deltaconstC
  /-- `DELTACONST.D` (R239). -/
  | deltaconstD
  /-- `RLE.C` (R253). -/
  | rleC
  /-- `RLE.D` (R254). -/
  | rleD
  /-- `HUFF.C` (R264). -/
  | huffC
  /-- `HUFF.D` (R265). -/
  | huffD
  /-- `STATS` (R273). -/
  | stats
  /-- `CLASSIFY` (R278). -/
  | classify
  /-- `CLRERR` (R309). -/
  | clrerr
  /-- `SRESET` (R342). -/
  | sreset
deriving DecidableEq, Repr

end Sys2Proof
end

