-- ==== Sys2Proof/WellFormed.lean ====
section
/-! DEFINITION. Which terms of `Instr` are commands: the operand fits its field of the command word (R91, R92). -/

namespace Sys2Proof

/-- A bit count fits the 7-bit field `N` (R92): 0 to 127. The counts the command accepts, 1 to 64, are fewer: an
encodable count outside them raises PRECOND(NBITS) when the command runs (R128, R132). -/
def fitsN (n : Nat) : Bool := decide (n < 128)

/-- The term is a command of the set. Only the two commands of format N have an operand that can be ill formed. -/
def Instr.wellFormed : Instr → Bool
  | .appendbits n => fitsN n
  | .readbits n => fitsN n
  | .nop | .bsreset | .appendbit _ | .finish | .rewind | .readbit | .varput | .varget
  | .gorillaC | .gorillaD | .gorillazC | .gorillazD | .gorillaplusC | .gorillaplusD
  | .chimpC | .chimpD | .fpcC | .fpcD | .pdfcmC | .pdfcmD
  | .deltaC | .deltaD | .delta2C | .delta2D | .xordeltaC | .xordeltaD | .deltaxorC | .deltaxorD
  | .plainC | .plainD | .constC | .constD | .deltaconstC | .deltaconstD
  | .rleC | .rleD | .huffC | .huffD | .stats | .classify | .clrerr | .sreset => true

end Sys2Proof
end

