-- ==== Sys2Proof/Decode.lean ====
section
/-! DEFINITION. The decoder of a command word (R90 to R97), total and rejecting by name, and after it the encoder. -/

namespace Sys2Proof

/-- Why a word is no command. -/
inductive DecodeError where
  /-- The opcode is reserved (R94): the block raises ILLEGAL(OPCODE). Safe: the spec's own error. -/
  | opcode
  /-- The opcode is defined and a must-be-zero bit is 1 (R95): the block raises ILLEGAL(FIELD). Safe: the spec's own error. -/
  | field
deriving DecidableEq, Repr

/-- `OPC`, bits 31:24 (R90, R97). -/
def opcField (w : CmdWord) : BitVec 8 := w.extractLsb' 24 8

/-- `N`, bits 6:0 (R90, R97). -/
def nField (w : CmdWord) : BitVec 7 := w.extractLsb' 0 7

/-- Format O: bits 23:0 are 0 (R91, R95). -/
def formO (w : CmdWord) (i : Instr) : Except DecodeError Instr :=
  if w.extractLsb' 0 24 = 0#24 then .ok i else .error .field

/-- Format N: bits 23:7 are 0 and bits 6:0 are the operand (R91, R92, R95). -/
def formN (w : CmdWord) (i : Nat → Instr) : Except DecodeError Instr :=
  if w.extractLsb' 7 17 = 0#17 then .ok (i (nField w).toNat) else .error .field

/-- Format B: bits 23:1 are 0 and bit 0 is the operand (R91, R92, R95). -/
def formB (w : CmdWord) (i : Bool → Instr) : Except DecodeError Instr :=
  if w.extractLsb' 1 23 = 0#23 then .ok (i (w.getLsbD 0)) else .error .field

/-- The decoder: the opcode map of R93. Every other opcode is reserved (R94). -/
def decode (w : CmdWord) : Except DecodeError Instr :=
  match (opcField w).toNat with
  | 0x00 => formO w .nop
  | 0x01 => formO w .bsreset
  | 0x02 => formB w .appendbit
  | 0x03 => formN w .appendbits
  | 0x04 => formO w .finish
  | 0x05 => formO w .rewind
  | 0x06 => formO w .readbit
  | 0x07 => formN w .readbits
  | 0x10 => formO w .varput
  | 0x11 => formO w .varget
  | 0x20 => formO w .gorillaC
  | 0x21 => formO w .gorillaD
  | 0x22 => formO w .gorillazC
  | 0x23 => formO w .gorillazD
  | 0x24 => formO w .gorillaplusC
  | 0x25 => formO w .gorillaplusD
  | 0x28 => formO w .chimpC
  | 0x29 => formO w .chimpD
  | 0x30 => formO w .fpcC
  | 0x31 => formO w .fpcD
  | 0x38 => formO w .pdfcmC
  | 0x39 => formO w .pdfcmD
  | 0x40 => formO w .deltaC
  | 0x41 => formO w .deltaD
  | 0x42 => formO w .delta2C
  | 0x43 => formO w .delta2D
  | 0x44 => formO w .xordeltaC
  | 0x45 => formO w .xordeltaD
  | 0x46 => formO w .deltaxorC
  | 0x47 => formO w .deltaxorD
  | 0x48 => formO w .plainC
  | 0x49 => formO w .plainD
  | 0x4A => formO w .constC
  | 0x4B => formO w .constD
  | 0x4C => formO w .deltaconstC
  | 0x4D => formO w .deltaconstD
  | 0x50 => formO w .rleC
  | 0x51 => formO w .rleD
  | 0x58 => formO w .huffC
  | 0x59 => formO w .huffD
  | 0x60 => formO w .stats
  | 0x61 => formO w .classify
  | 0xF0 => formO w .clrerr
  | 0xF1 => formO w .sreset
  | _ => .error .opcode

/-- The host's question (the fixed name): the command in the `nbits` bits of `w`, bit 0 the least significant of the
one 32-bit word. A command word is not laid out in memory: the host writes it to `CMD` whole (R33, log 11). -/
def decodeTableWord (nbits w : Nat) : Option Instr :=
  if nbits ≤ 32 then
    match decode (BitVec.ofNat 32 (w % 2 ^ nbits)) with
    | .ok i => some i
    | .error _ => none
  else none

/-- The opcode of a command (R93). -/
def Instr.opc : Instr → BitVec 8
  | .nop => 0x00
  | .bsreset => 0x01
  | .appendbit _ => 0x02
  | .appendbits _ => 0x03
  | .finish => 0x04
  | .rewind => 0x05
  | .readbit => 0x06
  | .readbits _ => 0x07
  | .varput => 0x10
  | .varget => 0x11
  | .gorillaC => 0x20
  | .gorillaD => 0x21
  | .gorillazC => 0x22
  | .gorillazD => 0x23
  | .gorillaplusC => 0x24
  | .gorillaplusD => 0x25
  | .chimpC => 0x28
  | .chimpD => 0x29
  | .fpcC => 0x30
  | .fpcD => 0x31
  | .pdfcmC => 0x38
  | .pdfcmD => 0x39
  | .deltaC => 0x40
  | .deltaD => 0x41
  | .delta2C => 0x42
  | .delta2D => 0x43
  | .xordeltaC => 0x44
  | .xordeltaD => 0x45
  | .deltaxorC => 0x46
  | .deltaxorD => 0x47
  | .plainC => 0x48
  | .plainD => 0x49
  | .constC => 0x4A
  | .constD => 0x4B
  | .deltaconstC => 0x4C
  | .deltaconstD => 0x4D
  | .rleC => 0x50
  | .rleD => 0x51
  | .huffC => 0x58
  | .huffD => 0x59
  | .stats => 0x60
  | .classify => 0x61
  | .clrerr => 0xF0
  | .sreset => 0xF1

/-- Bits 23:0 of a command's word: the operand, 0 in format O (R91, R92). -/
def Instr.operand : Instr → BitVec 24
  | .appendbit b => if b then 1#24 else 0#24
  | .appendbits n => BitVec.ofNat 24 n
  | .readbits n => BitVec.ofNat 24 n
  | .nop | .bsreset | .finish | .rewind | .readbit | .varput | .varget
  | .gorillaC | .gorillaD | .gorillazC | .gorillazD | .gorillaplusC | .gorillaplusD
  | .chimpC | .chimpD | .fpcC | .fpcD | .pdfcmC | .pdfcmD
  | .deltaC | .deltaD | .delta2C | .delta2D | .xordeltaC | .xordeltaD | .deltaxorC | .deltaxorD
  | .plainC | .plainD | .constC | .constD | .deltaconstC | .deltaconstD
  | .rleC | .rleD | .huffC | .huffD | .stats | .classify | .clrerr | .sreset => 0#24

/-- The command word of a well-formed command: its opcode above its operand (R90, R91, R93). -/
def encode (i : Instr) : CmdWord := i.opc ++ i.operand

end Sys2Proof
end

