-- ==== Sys2Proof/Machine/Operands.lean ====
section
/-! DEFINITION. Operand forms: bit groups and numbers (R9, R62), the counting helpers of R8, and the varint format's
bytes (R286). -/

namespace Sys2Proof.Machine

/-- The group of the `n` low bits of `v`, most significant of them first: what `Put(v, n)` appends (R62, R121). -/
def group (v : Word) : Nat → List Bool
  | 0 => []
  | n + 1 => v.getLsbD n :: group v n

/-- The group of the `n` low bits of a natural number below 2^64. -/
def groupNat (k n : Nat) : List Bool := group (BitVec.ofNat 64 k) n

/-- The number whose bits, most significant first, are `bs` (R9 `MemRead`). -/
def bitsToNat : List Bool → Nat
  | [] => 0
  | b :: bs => b.toNat * 2 ^ bs.length + bitsToNat bs

/-- A bit group as a 64-bit pattern, zero-extended (R123). -/
def ofGroup (bs : List Bool) : Word := BitVec.ofNat 64 (bitsToNat bs)

/-- `clz` (R8): leading zero bits; 64 for 0. -/
def clz (x : Word) : Nat := ((group x 64).takeWhile (fun b => !b)).length

/-- `ctz` (R8): trailing zero bits; 64 for 0. -/
def ctz (x : Word) : Nat := ((group x 64).reverse.takeWhile (fun b => !b)).length

/-- `pop` (R8): the number of 1 bits. -/
def pop (x : Word) : Nat := (group x 64).countP (fun b => b)

/-- `lzb` (R8): leading zero bytes. -/
def lzb (x : Word) : Nat := clz x / 8

/-- `tzb` (R8): trailing zero bytes. -/
def tzb (x : Word) : Nat := ctz x / 8

/-- `zb` (R8): leading and trailing zero bytes together, 8 for 0. -/
def zb (x : Word) : Nat := if x = 0 then 8 else lzb x + tzb x

/-- `ZigZag` (R286). -/
def zigZag (v : Word) : Word := (v <<< 1) ^^^ (if v.getLsbD 63 then BitVec.allOnes 64 else 0)

/-- `UnZigZag` (R286). -/
def unZigZag (u : Word) : Word := (u >>> 1) ^^^ (if u.getLsbD 0 then BitVec.allOnes 64 else 0)

/-- `Bytes(u)` (R286), at most `fuel` bytes; ten are enough for every 64-bit pattern. -/
def varintGroups : Nat → Word → List Byte
  | 0, _ => []
  | fuel + 1, u =>
    if u.toNat < 128 then [u.setWidth 8]
    else (0x80#8 ||| u.setWidth 8) :: varintGroups fuel (u >>> 7)

/-- The bytes of the varint of `v` (R286, R290). -/
def varintBytes (v : Word) : List Byte := varintGroups 10 (zigZag v)

/-- The eight bits of a byte in stream order, bit 7 first (R61). -/
def byteBits (b : Byte) : List Bool := group (b.setWidth 64) 8

/-- The bits `VarPut(v)` appends (R290): the varint's bytes in order. -/
def varintBits (v : Word) : List Bool := (varintBytes v).flatMap byteBits

/-- `Flush` as bits (R124): what pads a stream of `n` bits to whole bytes. -/
def padding (n : Nat) : List Bool := List.replicate ((8 - n % 8) % 8) false

end Sys2Proof.Machine
end

