-- ==== Sys2Proof/Config.lean ====
section
/-! DEFINITION. What an implementation fixes (the open parameters of R5) and the free values: what memory that the spec
calls unspecified reads as. -/

namespace Sys2Proof

/-- The two readings of the divisor of the selector's mean (R272, D26, conflict C2). -/
inductive StatDenom where
  /-- `NZ`: the pairs whose XOR is not zero; the default. -/
  | nz
  /-- `ALL`: all pairs. -/
  | all
deriving DecidableEq, Repr

/-- The open parameters (R5, R42). They are no state of the block; State carries them unchanged (log 1). -/
structure Config where
  /-- `BUF_CAP`: bytes of `BUF`. -/
  bufCap : Nat
  /-- `VCAP`: words of `SRC` and of `DST`. -/
  vcap : Nat
  /-- `FPC_LOG2`: log2 of the entries of a predictor table. -/
  fpcLog2 : Nat
  /-- `STAT_DENOM`. -/
  statDenom : StatDenom
deriving DecidableEq, Repr

/-- The defaults of R5. -/
def Config.default : Config :=
  { bufCap := 262144, vcap := 65536, fpcLog2 := 10, statDenom := .nz }

/-- What an unspecified bit of `BUF` reads as, by the moment that made it unspecified and its stream bit index
(R21, R41, U10, U11). FREE VALUE: it has no body, so nothing can be proved of which bit it is (log 2). -/
opaque Config.freeBit : Nat → Nat → Bool

/-- What an unspecified word of `SRC` reads as, by moment and index (R41, U10, U13). FREE VALUE (log 2). -/
opaque Config.freeSrc : Nat → Nat → Word

/-- What an unspecified word of `DST` reads as, by moment and index (R25, R41, U10, U12). FREE VALUE (log 2). -/
opaque Config.freeDst : Nat → Nat → Word

end Sys2Proof
end

