-- ==== Sys2Proof/Machine/State.lean ====
section
/-! DEFINITION. The state of the block (10_state.md, R20), the host's actions, the errors the block records, the
reasons a step can stop, and the state after hardware reset. -/

namespace Sys2Proof.Machine

/-- The byte memory `BUF` (R21), whole address space: byte `i` is at address `i`, 0 to `BUF_CAP - 1`.
`cells` lists the bytes and `known` which of their bits something has specified (1: specified). Both list (address,
byte) pairs in one canonical form: addresses strictly rising, no entry 0, and an address that is not listed reads as
0 in that plane. A bit outside `known` is unspecified: it reads as the free value `Config.freeBit`, of the moment the
marks `stale` give it. `stale` lists (first stream bit index, moment) with the indices strictly falling: a bit
belongs to the first mark at or below it, and to moment 0, hardware reset, where there is none (logs 2, 3). -/
structure ByteMemory where
  cells : List Host.Cell
  known : List Host.Cell
  stale : List (Nat × Nat)
deriving DecidableEq, Repr

/-- A memory of 64-bit words, `SRC` or `DST` (R24, R25): word `i` is at index `i`, 0 to `VCAP - 1`. `cells` lists the
specified words, indices strictly rising. A word that is not listed is unspecified and reads as a free value, of the
moment `stale` gives it as in `ByteMemory` (logs 2, 3). No listed word can equal that free value provably, so none is
left out: the form is canonical. -/
structure WordMemory where
  cells : List (Nat × Word)
  stale : List (Nat × Nat)
deriving DecidableEq, Repr

/-- What the host does to the block (R12, R99), and the event of hardware reset (R340). -/
inductive HostEvent where
  /-- Write a register by number; a write of number 0x00, `CMD`, executes the word as a command (R33, R36). -/
  | writeReg (num : Nat) (value : Word)
  /-- Read a register by number (R35). -/
  | readReg (num : Nat)
  /-- Write a byte of `BUF` (R60, R70). -/
  | writeBuf (index : Nat) (value : Byte)
  /-- Read a byte of `BUF`. -/
  | readBuf (index : Nat)
  /-- Write a word of `SRC`. -/
  | writeSrc (index : Nat) (value : Word)
  /-- Read a word of `SRC`. -/
  | readSrc (index : Nat)
  /-- Write a word of `DST`. -/
  | writeDst (index : Nat) (value : Word)
  /-- Read a word of `DST`. -/
  | readDst (index : Nat)
  /-- Hardware reset (R340, R341). -/
  | hwReset
deriving DecidableEq, Repr

/-- The causes of an error, class and sub-code in one name (R301, R302). -/
inductive Cause where
  /-- `EOS(BITS)` -/
  | eosBits
  /-- `EOS(VARINT)` -/
  | eosVarint
  /-- `EOS(ITEMS)` -/
  | eosItems
  /-- `CORRUPT(WINDOW)` -/
  | window
  /-- `CORRUPT(ODD_PAIRS)` -/
  | oddPairs
  /-- `CORRUPT(TAIL)` -/
  | tail
  /-- `CORRUPT(COUNT_MISMATCH)` -/
  | countMismatch
  /-- `CORRUPT(FIRST_MISMATCH)` -/
  | firstMismatch
  /-- `CORRUPT(VARINT_OVERFLOW)` -/
  | varintOverflow
  /-- `CORRUPT(BAD_RUN)` -/
  | badRun
  /-- `PRECOND(NBITS)` -/
  | nbits
  /-- `PRECOND(TOO_FEW)` -/
  | tooFew
  /-- `PRECOND(TOO_MANY)` -/
  | tooMany
  /-- `PRECOND(NOT_CONST)` -/
  | notConst
  /-- `PRECOND(UNALIGNED)` -/
  | unaligned
  /-- `ILLEGAL(OPCODE)` -/
  | illegalOpcode
  /-- `ILLEGAL(FIELD)` -/
  | illegalField
  /-- `OVERFLOW(BUF)` -/
  | overflowBuf
  /-- `OVERFLOW(DST)` -/
  | overflowDst
deriving DecidableEq, Repr

/-- The kinds of command by what a raise inside them rolls back (R305, R306, R307). -/
inductive CommandKind where
  /-- The six primitive commands (R305). -/
  | primitive
  /-- The `.C` commands (R306). -/
  | compress
  /-- The `.D` commands (R307). -/
  | decompress
  /-- An illegal word: no command began (R94, R95, R305). -/
  | illegal
deriving DecidableEq, Repr

/-- Why a step stops. An error of the spec is no fault: it is recorded in `STATUS` and the block goes on (R304). -/
inductive Fault where
  /-- The host accesses a byte of `BUF` at an index that is not below `BUF_CAP`: no such byte exists (R60). Raised by
  the host actions on `BUF`, never by a command. Safe: the model stops (log 6). -/
  | noSuchBufByte
  /-- The host accesses a word of `SRC` at an index that is not below `VCAP` (R60). Raised by the host actions on
  `SRC`, never by a command. Safe: the model stops (log 6). -/
  | noSuchSrcWord
  /-- The host accesses a word of `DST` at an index that is not below `VCAP` (R60). Raised by the host actions on
  `DST`, never by a command. Safe: the model stops (log 6). -/
  | noSuchDstWord
deriving DecidableEq, Repr

/-- Why a step has no meaning. -/
inductive Refusal where
  /-- The command has no meaning in this model yet. Raised by an arm of `exec` only; no arm raises it now. Safe: the
  model stops. -/
  | notModelled (mnemonic : String)
deriving DecidableEq, Repr

/-- The state of one instance of the block (R20), the open parameters, and the model's own fields `fresh`, `inputs` and
`readData`. -/
structure State where
  /-- The open parameters (R5); no step changes them (log 1). -/
  cfg : Config
  /-- `BUF` (R21). -/
  buf : ByteMemory
  /-- `SRC` (R24). -/
  src : WordMemory
  /-- `DST` (R25). -/
  dst : WordMemory
  /-- `BLEN`: bits appended, the write cursor (R22). -/
  blen : Len
  /-- `RPOS`: the read cursor (R23). -/
  rpos : Len
  /-- `SLEN`: items of `SRC` (R24). -/
  slen : Len
  /-- `DLEN`: valid items of `DST` (R25). -/
  dlen : Len
  /-- `VAL` (R26). -/
  val : Word
  /-- `FIRST` (R27). -/
  first : Word
  /-- `COUNT` (R28). -/
  count : Len
  /-- `TAG` (R29). -/
  tag : BitVec 3
  /-- `SUMBITS` (R30). -/
  sumbits : Len
  /-- `NZPAIRS` (R30). -/
  nzpairs : Len
  /-- `REPEATS` (R30). -/
  repeats : Len
  /-- `PAIRS` (R30). -/
  pairs : Len
  /-- `STATF.ISREPEAT` (R31). -/
  statf : Bool
  /-- `STATUS` (R32): `ERR` 3:0, `SUB` 15:8, `EOPC` 23:16. -/
  status : BitVec 32
  /-- The model's own: the number of the next moment that makes memory unspecified (log 3). -/
  fresh : Nat
  /-- The model's own: the host's actions still to happen, oldest first (R71, log 4). -/
  inputs : List HostEvent
  /-- The model's own: what the host's last read returned (log 5). -/
  readData : Word
deriving DecidableEq, Repr

/-- After hardware reset (R35, R41, R340): every register 0, every byte and word of the memories unspecified; the
parameters at their defaults (R5), no host action waiting. -/
def State.reset : State :=
  { cfg := Config.default
    buf := { cells := [], known := [], stale := [] }
    src := { cells := [], stale := [] }
    dst := { cells := [], stale := [] }
    blen := 0
    rpos := 0
    slen := 0
    dlen := 0
    val := 0
    first := 0
    count := 0
    tag := 0
    sumbits := 0
    nzpairs := 0
    repeats := 0
    pairs := 0
    statf := false
    status := 0
    fresh := 1
    inputs := []
    readData := 0 }

end Sys2Proof.Machine
end

