-- ==== Sys2Proof/Machine/Flags.lean ====
section
/-! DEFINITION. The status word and the flags: the numbers of the error classes and sub-codes (R301, R302), the fields of
`STATUS` (R32), and `STATF.ISREPEAT` (R270). -/

namespace Sys2Proof.Machine

/-- The class code of a cause, the value of `STATUS.ERR` (R301). -/
def Cause.cls : Cause → Nat
  | .eosBits | .eosVarint | .eosItems => 1
  | .window | .oddPairs | .tail | .countMismatch | .firstMismatch | .varintOverflow | .badRun => 2
  | .nbits | .tooFew | .tooMany | .notConst | .unaligned => 3
  | .illegalOpcode | .illegalField => 4
  | .overflowBuf | .overflowDst => 5

/-- The sub-code of a cause, the value of `STATUS.SUB` (R302). -/
def Cause.sub : Cause → Nat
  | .eosBits => 1
  | .eosVarint => 2
  | .eosItems => 3
  | .window => 1
  | .oddPairs => 2
  | .tail => 3
  | .countMismatch => 4
  | .firstMismatch => 5
  | .varintOverflow => 6
  | .badRun => 7
  | .nbits => 1
  | .tooFew => 2
  | .tooMany => 3
  | .notConst => 4
  | .unaligned => 5
  | .illegalOpcode => 1
  | .illegalField => 2
  | .overflowBuf => 1
  | .overflowDst => 2

/-- The word `raise` leaves in `STATUS` (R32, R304): bits 31:24 zero, `EOPC`, `SUB`, bits 7:4 zero, `ERR`. -/
def statusWord (c : Cause) (opc : BitVec 8) : BitVec 32 :=
  0#8 ++ opc ++ BitVec.ofNat 8 c.sub ++ 0#4 ++ BitVec.ofNat 4 c.cls

/-- `STATUS.ERR` (R32). -/
def State.err (s : State) : BitVec 4 := s.status.extractLsb' 0 4

/-- `STATUS.SUB` (R32). -/
def State.sub (s : State) : BitVec 8 := s.status.extractLsb' 8 8

/-- `STATUS.EOPC` (R32). -/
def State.eopc (s : State) : BitVec 8 := s.status.extractLsb' 16 8

/-- The faulted state: `STATUS.ERR` is not 0 (R32, R308). -/
def State.faulted (s : State) : Bool := s.err != 0

/-- `STATF.ISREPEAT` of a block of `n` items with `r` zero-XOR pairs (R270): `r > 0.9 n` on integers. -/
def isRepeat (r n : Nat) : Bool := decide (10 * r > 9 * n)

end Sys2Proof.Machine
end

