-- ==== Sys2Proof/Machine/Ops.lean ====
section
/-! DEFINITION. The named operations every command is written with: the memories, the primitives PutBit, Put, GetBit,
Get and Flush (R120 to R124), VarPut and VarGet (R290, R291), the shared steps of the codec commands (R14 to R18),
taking an error (R304 to R307) and returning from one (R309). -/

namespace Sys2Proof.Machine

/-! ## Memories -/

/-- A byte of a plane: an address that is not listed reads as 0. -/
def planeGet : List Host.Cell → Nat → Byte
  | [], _ => 0
  | (k, v) :: rest, a => if k = a then v else planeGet rest a

/-- List an entry before the first entry of a greater address. -/
def insertCell {α : Type} (a : Nat) (v : α) : List (Nat × α) → List (Nat × α)
  | [] => [(a, v)]
  | c :: rest => if a < c.1 then (a, v) :: c :: rest else c :: insertCell a v rest

/-- The list without the entry of address `a`. -/
def removeCell {α : Type} (a : Nat) (l : List (Nat × α)) : List (Nat × α) := l.filter fun c => decide (c.1 ≠ a)

/-- Set a byte of a plane in canonical form: setting it to 0 removes its entry. -/
def planeSet (p : List Host.Cell) (a : Nat) (b : Byte) : List Host.Cell :=
  if b = 0 then removeCell a p else insertCell a b (removeCell a p)

/-- The `r` most significant bits of a byte, 0 ≤ `r` ≤ 8. -/
def highMask (r : Nat) : Byte := 0xFF#8 <<< (8 - r)

/-- The plane with 0 in every bit whose stream bit index is `lo` or more (R6). -/
def planeBelow (p : List Host.Cell) (lo : Nat) : List Host.Cell :=
  planeSet (p.filter fun c => decide (c.1 < lo / 8)) (lo / 8) (planeGet p (lo / 8) &&& highMask (lo % 8))

/-- The bit of a byte that stands at stream position `j` of it: position 0 is bit 7 (R6, R61). -/
def bitOfByte (b : Byte) (j : Nat) : Bool := b.getLsbD (7 - j)

/-- The byte with the bit at stream position `j` set to `v` (R61). -/
def setBitOfByte (b : Byte) (j : Nat) (v : Bool) : Byte :=
  (b &&& ~~~(1#8 <<< (7 - j))) ||| (if v then 1#8 <<< (7 - j) else 0#8)

/-- The moment an unspecified cell belongs to: the first mark at or below its index, moment 0 where there is none. -/
def epochAt : List (Nat × Nat) → Nat → Nat
  | [], _ => 0
  | (lo, e) :: rest, k => if lo ≤ k then e else epochAt rest k

/-- Mark every cell from `lo` on as unspecified since moment `e`. -/
def markStale (marks : List (Nat × Nat)) (lo e : Nat) : List (Nat × Nat) :=
  (lo, e) :: marks.filter fun m => decide (m.1 < lo)

/-- `BUF.bit[k]` (R6, R9): the bit something specified, else the free value. -/
def ByteMemory.bit (m : ByteMemory) (k : Nat) : Bool :=
  if bitOfByte (planeGet m.known (k / 8)) (k % 8) then bitOfByte (planeGet m.cells (k / 8)) (k % 8)
  else Config.freeBit (epochAt m.stale k) k

/-- The `n` bits from stream bit index `k` on, in stream order (R9 `MemRead`). -/
def ByteMemory.bits (m : ByteMemory) : Nat → Nat → List Bool
  | _, 0 => []
  | k, n + 1 => m.bit k :: m.bits (k + 1) n

/-- `BUF.bit[k] <- v` (R9); no other bit changes (R120). -/
def ByteMemory.setBit (m : ByteMemory) (k : Nat) (v : Bool) : ByteMemory :=
  { m with
    cells := planeSet m.cells (k / 8) (setBitOfByte (planeGet m.cells (k / 8)) (k % 8) v)
    known := planeSet m.known (k / 8) (setBitOfByte (planeGet m.known (k / 8)) (k % 8) true) }

/-- Write bits at consecutive stream bit indices from `k` on (R9 `MemWrite`). -/
def ByteMemory.setBits (m : ByteMemory) : Nat → List Bool → ByteMemory
  | _, [] => m
  | k, b :: bs => (m.setBit k b).setBits (k + 1) bs

/-- `BUF[i]` (R21): the byte whose most significant bit has stream bit index `8 i`. -/
def ByteMemory.byte (m : ByteMemory) (i : Nat) : Byte := (ofGroup (m.bits (8 * i) 8)).setWidth 8

/-- `BUF[i] <- b`, the host's write (R60, R70). -/
def ByteMemory.setByte (m : ByteMemory) (i : Nat) (b : Byte) : ByteMemory :=
  { m with cells := planeSet m.cells i b, known := planeSet m.known i 0xFF#8 }

/-- Every bit from stream bit index `lo` on becomes unspecified, at moment `e`. -/
def ByteMemory.forget (m : ByteMemory) (lo e : Nat) : ByteMemory :=
  { cells := planeBelow m.cells lo, known := planeBelow m.known lo, stale := markStale m.stale lo e }

/-- A listed word. -/
def wordGet : List (Nat × Word) → Nat → Option Word
  | [], _ => none
  | (k, v) :: rest, a => if k = a then some v else wordGet rest a

/-- List a word, indices strictly rising. -/
def wordSet (l : List (Nat × Word)) (a : Nat) (w : Word) : List (Nat × Word) := insertCell a w (removeCell a l)

/-- A word of a memory whose unspecified words read as `free`: the listed word, else the free value. -/
def WordMemory.read (free : Nat → Nat → Word) (m : WordMemory) (i : Nat) : Word :=
  (wordGet m.cells i).getD (free (epochAt m.stale i) i)

/-- Write a word. -/
def WordMemory.write (m : WordMemory) (i : Nat) (w : Word) : WordMemory :=
  { m with cells := wordSet m.cells i w }

/-- Write words at consecutive indices from `i` on. -/
def WordMemory.writeAll (m : WordMemory) : Nat → List Word → WordMemory
  | _, [] => m
  | i, w :: ws => (m.write i w).writeAll (i + 1) ws

/-- Every word from index `lo` on becomes unspecified, at moment `e`. -/
def WordMemory.forget (m : WordMemory) (lo e : Nat) : WordMemory :=
  { cells := m.cells.filter fun c => decide (c.1 < lo), stale := markStale m.stale lo e }

/-- `SRC[i]` (R24). -/
def State.srcAt (s : State) (i : Nat) : Word := s.src.read Config.freeSrc i

/-- `DST[i]` (R25). -/
def State.dstAt (s : State) (i : Nat) : Word := s.dst.read Config.freeDst i

/-- The block, `SRC[0 .. SLEN-1]` (R24). -/
def State.srcItems (s : State) : List Word := (List.range s.slen.toNat).map s.srcAt

/-- `8*BUF_CAP`: the bits `BUF` holds (R22). -/
def State.bufBits (s : State) : Nat := 8 * s.cfg.bufCap

/-- The bits of `BUF` at and above `BLEN` become unspecified (R21, R354, U11): a free value of this moment (log 8). The
words of `DST` stay, those at and above `DLEN` too: only `Emit` writes `DST` (R17, R60), where U12 would let them change
(DEDUCED, unsafe, log 17). -/
def forgetTail (s : State) : State := { s with buf := s.buf.forget s.blen.toNat s.fresh, fresh := s.fresh + 1 }

/-- The stream emptied, `BLEN <- 0; RPOS <- 0` (R14, R126, R306): every bit of `BUF` is then at or above `BLEN`, and so
unspecified (R21, logs 7, 8). -/
def emptyStream (s : State) : State :=
  { s with buf := s.buf.forget 0 s.fresh, blen := 0, rpos := 0, fresh := s.fresh + 1 }

/-! ## Taking an error and returning from one -/

/-- What a raise undoes, by the kind of command. The command's own effects never reach the state in this model, so the
rollback is applied to the state before the command.
R305: only meaningful bits of `BUF` are promised, the bits at and above `BLEN` "may change" (free values, log 9).
R306: the stream is gone, every byte of `BUF` is unspecified. R307: `RPOS` is 0, the words of `DST` at and above
`DLEN` are unspecified. An illegal word changes nothing (R94, R95, log 9). -/
def rollback (kind : CommandKind) (s : State) : State :=
  match kind with
  | .primitive => forgetTail s
  | .compress => emptyStream s
  | .decompress => { s with dst := s.dst.forget s.dlen.toNat s.fresh, rpos := 0, fresh := s.fresh + 1 }
  | .illegal => s

/-- `raise C(S)` during a command with opcode `opc` (R304): roll back, record class, sub-code and opcode. Nothing is
saved and control goes nowhere. -/
def raise (kind : CommandKind) (c : Cause) (opc : BitVec 8) (s : State) : State :=
  { rollback kind s with status := statusWord c opc }

/-- The return from an error (R309): `STATUS <- 0`, nothing else. -/
def clearError (s : State) : State := { s with status := 0 }

/-! ## The primitives -/

/-- Append a bit sequence: `PutBit` and `Put` (R120, R121). One check before any bit is written. -/
def putBits (bs : List Bool) (s : State) : Except Cause State :=
  if s.blen.toNat + bs.length > s.bufBits then .error .overflowBuf
  else .ok { s with buf := s.buf.setBits s.blen.toNat bs, blen := BitVec.ofNat 32 (s.blen.toNat + bs.length) }

/-- `Flush()` (R124): 0 to 7 zero bits, to the next byte boundary. It cannot overflow. -/
def flush (s : State) : State :=
  { s with
    buf := s.buf.setBits s.blen.toNat (padding s.blen.toNat)
    blen := BitVec.ofNat 32 (s.blen.toNat + (padding s.blen.toNat).length) }

/-- The appends of a primitive command (R127, R128, R288): no bit below the new `BLEN` changes but those appended (R120),
and those at and above it are unspecified after the command (R354, U11, log 8). Every word of `DST` is kept (R17, R60; above
`DLEN` the model's choice, log 17). -/
def appendBits (bs : List Bool) (s : State) : Except Cause State := putBits bs s >>= fun t => .ok (forgetTail t)

/-- `GetBit()` at read cursor `pos`: the bit and the cursor after it (R122). -/
def getBit (s : State) (pos : Nat) : Except Cause (Bool × Nat) :=
  if pos + 1 > s.blen.toNat then .error .eosBits else .ok (s.buf.bit pos, pos + 1)

/-- `Get(n)` at read cursor `pos`: the number, zero-extended, and the cursor after it (R123). -/
def getBits (s : State) (pos n : Nat) : Except Cause (Word × Nat) :=
  if pos + n > s.blen.toNat then .error .eosBits else .ok (ofGroup (s.buf.bits pos n), pos + n)

/-- The loop of `VarGet` (R291) from byte `k` on, `u` read so far. Its tenth byte ends it or raises, so with `fuel` = 10
at `k` = 0 the first case is not reached. -/
def varGetFrom (s : State) : Nat → Nat → Word → Nat → Except Cause (Word × Nat)
  | 0, _, _, _ => .error .varintOverflow
  | fuel + 1, k, u, pos =>
    if s.blen.toNat - pos < 8 then .error .eosVarint
    else
      getBits s pos 8 >>= fun b =>
        if k = 9 ∧ b.1.toNat > 1 then .error .varintOverflow
        else
          let u' := u ||| ((b.1 &&& 0x7F#64) <<< (7 * k))
          if b.1.toNat < 0x80 then .ok (unZigZag u', b.2) else varGetFrom s fuel (k + 1) u' b.2

/-- `VarGet()` at read cursor `pos` (R291). -/
def varGet (s : State) (pos : Nat) : Except Cause (Word × Nat) := varGetFrom s 10 0 0 pos

/-- A primitive command: its effect, or its error (R305). -/
def primitive (opc : BitVec 8) (effect : State → Except Cause State) (s : State) : State :=
  match effect s with
  | .ok t => t
  | .error c => raise .primitive c opc s

/-! ## The shared steps of the codec commands -/

/-- `CompressEnd()` (R15): flush, `FIRST <- SRC[0]`, `COUNT <- SLEN`. -/
def compressEnd (s : State) : State := { flush s with first := s.srcAt 0, count := s.slen }

/-- A compress command up to its rollback: CompressBegin (R14), the body's bits, CompressEnd (R15). The puts start on the
empty stream, whose bits are all unspecified, so those at and above `BLEN` are unspecified at the end. `body` gives the
bits the command's puts append, in order, or the error it raises before its first put. Appending them as one
sequence gives the bytes and the overflow error that put after put gives (R121, R134, log 14). Every word of `DST` is kept
(R17, R60; above `DLEN` the model's choice, log 17). -/
def compressRun (minN maxN : Nat) (body : List Word → Except Cause (List Bool)) (s : State) : Except Cause State :=
  if s.slen.toNat < minN then .error .tooFew
  else if s.slen.toNat > maxN then .error .tooMany
  else
    body s.srcItems >>= fun bits =>
      putBits bits (emptyStream s) >>= fun t => .ok (compressEnd t)

/-- A compress command (R13 to R15, R306). -/
def compress (opc : BitVec 8) (minN maxN : Nat) (body : List Word → Except Cause (List Bool)) (s : State) : State :=
  match compressRun minN maxN body s with
  | .ok t => t
  | .error c => raise .compress c opc s

/-- The checks of `DecompressBegin()`, in order (R16). -/
def decompressCheck (s : State) : Except Cause Unit :=
  if s.blen.toNat % 8 ≠ 0 then .error .unaligned
  else if s.count = 0 then .error .tooFew
  else if s.dlen.toNat + s.count.toNat > s.cfg.vcap then .error .overflowDst
  else .ok ()

/-- The `Emit`s of a decompress command and its last read cursor (R17): the items stand from `DLEN` on, `DLEN` counts
them in. The words above them are unspecified (R25, log 7); after every other command that completes they are kept (log 17). -/
def emitAll (items : List Word) (pos : Nat) (s : State) : State :=
  { s with
    dst := (s.dst.writeAll s.dlen.toNat items).forget (s.dlen.toNat + items.length) s.fresh
    dlen := BitVec.ofNat 32 (s.dlen.toNat + items.length)
    rpos := BitVec.ofNat 32 pos
    fresh := s.fresh + 1 }

/-- A decompress command (R13, R16, R307). `body` reads the stream from cursor 0 and gives the items the command emits
and its last cursor, the tail check included. -/
def decompress (opc : BitVec 8) (body : State → Except Cause (List Word × Nat)) (s : State) : State :=
  match decompressCheck s >>= fun _ => body s with
  | .ok r => emitAll r.1 r.2 s
  | .error c => raise .decompress c opc s

/-- `DecompressEnd()` of a bit-packed body (R18): 8 or more unread bits are a tail. -/
def endOfBits (s : State) (r : List Word × Nat) : Except Cause (List Word × Nat) :=
  if s.blen.toNat - r.2 ≥ 8 then .error .tail else .ok r

/-- The tail check of a byte-stream body (R18): any unread bit is a tail. -/
def endOfBytes (s : State) (r : List Word × Nat) : Except Cause (List Word × Nat) :=
  if r.2 ≠ s.blen.toNat then .error .tail else .ok r

/-- The item loop of an encoder: `item` gives the bits of one item and the codec's next state. -/
def encodeItems {σ : Type} (item : σ → Word → List Bool × σ) : σ → List Word → List Bool
  | _, [] => []
  | st, v :: vs => (item st v).1 ++ encodeItems item (item st v).2 vs

/-- The item loop of a decoder, `n` items from cursor `pos` on: `item` gives one item, the codec's next state and the
cursor after it. The result is the items and the last cursor. -/
def decodeItems {σ : Type} (item : σ → Nat → Except Cause (Word × σ × Nat)) :
    Nat → σ → Nat → Except Cause (List Word × Nat)
  | 0, _, pos => .ok ([], pos)
  | n + 1, st, pos =>
    item st pos >>= fun r =>
      decodeItems item n r.2.1 r.2.2 >>= fun rest => .ok (r.1 :: rest.1, rest.2)

/-- The header of the Gorilla framing, for `n` items: the first value in 64 bits, the count in 14 (R142, R171, R201). -/
def framedHeader (v0 : Word) (n : Nat) : List Bool := group v0 64 ++ groupNat n 14

/-- Read the Gorilla framing's header and compare it with `COUNT`, then with `FIRST` (R146, R173, R205): the first
value and the cursor after the header. -/
def readFramedHeader (s : State) : Except Cause (Word × Nat) :=
  getBits s 0 64 >>= fun f0 =>
    getBits s f0.2 14 >>= fun n =>
      if n.1.toNat ≠ s.count.toNat then .error .countMismatch
      else if f0.1 ≠ s.first then .error .firstMismatch
      else .ok (f0.1, n.2)

end Sys2Proof.Machine
end

