-- ==== Sys2Proof/Machine/Bitstream.lean ====
section
/-! DEFINITION. The BitStream commands (40_bitstream.md, R125 to R132). -/

namespace Sys2Proof.Machine

/-- `NOP`: nothing (R125). -/
def execNop (s : State) : Host.Outcome State Fault Refusal := .next s

/-- `BSRESET`: an empty stream; "on an already empty stream it changes nothing" (R126). `BUF` is not cleared, and none of
it is meaningful any more (R21, U11, log 8). -/
def execBsreset (s : State) : Host.Outcome State Fault Refusal :=
  .next (if s.blen = 0 then { s with rpos := 0 } else emptyStream s)

/-- `APPENDBIT b`: `PutBit(b)` (R127). -/
def execAppendbit (b : Bool) (s : State) : Host.Outcome State Fault Refusal :=
  .next (primitive (Instr.appendbit b).opc (appendBits [b]) s)

/-- `N` is a bit count the primitives take, 1 to 64, else PRECOND(NBITS) (R92, R128, R132). -/
def checkCount (n : Nat) : Except Cause Unit := if n < 1 ∨ n > 64 then .error .nbits else .ok ()

/-- `APPENDBITS n`: `Put(VAL, N)` (R128). -/
def execAppendbits (n : Nat) (s : State) : Host.Outcome State Fault Refusal :=
  .next (primitive (Instr.appendbits n).opc (fun s => checkCount n >>= fun _ => appendBits (group s.val n) s) s)

/-- `FINISH`: `Flush()` (R129). At a byte boundary it does nothing (R124); else the bits at and above the new `BLEN` are
unspecified after it (R354, U11, log 8). -/
def execFinish (s : State) : Host.Outcome State Fault Refusal :=
  .next (if s.blen.toNat % 8 = 0 then s else forgetTail (flush s))

/-- `REWIND`: `RPOS <- 0` (R130). -/
def execRewind (s : State) : Host.Outcome State Fault Refusal := .next { s with rpos := 0 }

/-- The end of a read command: the result in `VAL`, the cursor after it in `RPOS` (R131, R132, R289). -/
def readInto (r : Word × Nat) (s : State) : State := { s with val := r.1, rpos := BitVec.ofNat 32 r.2 }

/-- `READBIT`: the bit in `VAL`, bits 63:1 zero (R131). -/
def execReadbit (s : State) : Host.Outcome State Fault Refusal :=
  .next (primitive Instr.readbit.opc
    (fun s => getBit s s.rpos.toNat >>= fun r => .ok (readInto ((if r.1 then 1 else 0), r.2) s)) s)

/-- `READBITS n`: `Get(N)` zero-extended in `VAL` (R132). -/
def execReadbits (n : Nat) (s : State) : Host.Outcome State Fault Refusal :=
  .next (primitive (Instr.readbits n).opc
    (fun s => checkCount n >>= fun _ => getBits s s.rpos.toNat n >>= fun r => .ok (readInto r s)) s)

end Sys2Proof.Machine
end

