-- ==== Sys2Proof/Machine/Chimp.lean ====
section
/-! DEFINITION. The Chimp codec (42_chimp.md, R170 to R177). -/

namespace Sys2Proof.Machine

/-- The command-local state: the previous raw value and `pL`, none before a leading-zero count was sent (R172). -/
structure ChimpState where
  prev : Word
  pL : Option Nat
deriving DecidableEq, Repr

/-- `Qc` (R172): clamp to 15, clear the lowest bit. -/
def chimpLead (lz : Nat) : Nat := min lz 15 / 2 * 2

/-- One item record and the state after it (R171, R177). `CHIMP_TZ_MIN` is 6. -/
def chimpPutItem (st : ChimpState) (v : Word) : List Bool × ChimpState :=
  let x := st.prev ^^^ v
  let tz := ctz x
  let l := chimpLead (clz x)
  if x = 0 then ([false, false], { st with prev := v })
  else if tz > 6 then
    let w := 64 - l - tz
    ([false, true] ++ groupNat (l / 2) 3 ++ groupNat (w - 1) 6 ++ group (x >>> tz) w, { prev := v, pL := some l })
  else if st.pL = some l then ([true, false] ++ group x (64 - l), { st with prev := v })
  else ([true, true] ++ groupNat (l / 2) 3 ++ group x (64 - l), { prev := v, pL := some l })

/-- The bits of `ChimpEnc` (R177). -/
def chimpBody : List Word → Except Cause (List Bool)
  | [] => .ok []
  | v0 :: vs => .ok (framedHeader v0 (vs.length + 1) ++ encodeItems chimpPutItem { prev := v0, pL := none } vs)

/-- The XOR of a record whose 2-bit code is `c`, 1 to 3, with the new `pL` and the cursor (R173). -/
def chimpGetXor (s : State) (c : Nat) (pL : Option Nat) (pos : Nat) : Except Cause (Word × Option Nat × Nat) :=
  if c = 1 then
    getBits s pos 3 >>= fun f =>
      getBits s f.2 6 >>= fun k =>
        let l := 2 * f.1.toNat
        let w := k.1.toNat + 1
        if l + w > 64 then .error .window
        else getBits s k.2 w >>= fun b => .ok (b.1 <<< (64 - l - w), some l, b.2)
  else if c = 2 then
    match pL with
    | none => .error .window
    | some l => getBits s pos (64 - l) >>= fun b => .ok (b.1, some l, b.2)
  else
    getBits s pos 3 >>= fun f =>
      let l := 2 * f.1.toNat
      getBits s f.2 (64 - l) >>= fun b => .ok (b.1, some l, b.2)

/-- One item (R173). -/
def chimpGetItem (s : State) (st : ChimpState) (pos : Nat) : Except Cause (Word × ChimpState × Nat) :=
  getBits s pos 2 >>= fun c =>
    if c.1 = 0 then .ok (st.prev, st, c.2)
    else
      chimpGetXor s c.1.toNat st.pL c.2 >>= fun r =>
        let v := st.prev ^^^ r.1
        .ok (v, { prev := v, pL := r.2.1 }, r.2.2)

/-- `ChimpDec` (R173). -/
def chimpRead (s : State) : Except Cause (List Word × Nat) :=
  readFramedHeader s >>= fun h =>
    decodeItems (chimpGetItem s) (s.count.toNat - 1) { prev := h.1, pL := none } h.2 >>= fun r =>
      endOfBits s (h.1 :: r.1, r.2)

/-- `CHIMP.C` (R174). -/
def execChimpC (s : State) : Host.Outcome State Fault Refusal :=
  .next (compress Instr.chimpC.opc 1 16383 chimpBody s)

/-- `CHIMP.D` (R175). -/
def execChimpD (s : State) : Host.Outcome State Fault Refusal :=
  .next (decompress Instr.chimpD.opc chimpRead s)

end Sys2Proof.Machine
end

