-- ==== Sys2Proof/Machine/Control.lean ====
section
/-! DEFINITION. The control commands `CLRERR` (R309) and `SRESET` (R342). -/

namespace Sys2Proof.Machine

/-- Every register at its reset value (R35, R340, R342). The memories are not written. -/
def resetRegisters (s : State) : State :=
  { s with
    status := 0
    val := 0
    first := 0
    count := 0
    blen := 0
    rpos := 0
    slen := 0
    dlen := 0
    tag := 0
    statf := false
    sumbits := 0
    nzpairs := 0
    repeats := 0
    pairs := 0 }

/-- `CLRERR` (R309). -/
def execClrerr (s : State) : Host.Outcome State Fault Refusal := .next (clearError s)

/-- `SRESET` (R342). -/
def execSreset (s : State) : Host.Outcome State Fault Refusal := .next (resetRegisters s)

end Sys2Proof.Machine
end

