-- ==== Sys2Proof/Machine/Delta.lean ====
section
/-! DEFINITION. Delta, Delta-of-Delta, XOR-Delta, Delta-XOR, the plain varint stream, `Const` and `DeltaConst`
(45_delta_family.md, R220 to R244). -/

namespace Sys2Proof.Machine

/-- The five residual schemes (R221 to R225). -/
inductive Scheme where
  | delta
  | delta2
  | xorDelta
  | deltaXor
  | plain
deriving DecidableEq, Repr

/-- The command-local state of a scheme: `p` the previous value, `dp` the previous difference, `xp` the previous XOR
(R220 to R224). -/
structure ResidState where
  p : Word
  dp : Word
  xp : Word
deriving DecidableEq, Repr

/-- The state after item 0 (R220): `d[0] = 0`, `x[0] = 0`. -/
def ResidState.init (v0 : Word) : ResidState := { p := v0, dp := 0, xp := 0 }

/-- The state after an item `v` (R220). -/
def ResidState.after (st : ResidState) (v : Word) : ResidState := { p := v, dp := v - st.p, xp := v ^^^ st.p }

/-- The residual `r[i]` of item `v` (R221 to R225). -/
def Scheme.resid (k : Scheme) (st : ResidState) (v : Word) : Word :=
  match k with
  | .delta => v - st.p
  | .delta2 => (v - st.p) - st.dp
  | .xorDelta => (v - st.p) ^^^ st.dp
  | .deltaXor => (v ^^^ st.p) - st.xp
  | .plain => v

/-- The decoder's step (R221 to R225): the item a residual stands for. -/
def Scheme.item (k : Scheme) (st : ResidState) (r : Word) : Word :=
  match k with
  | .delta => st.p + r
  | .delta2 => st.p + (st.dp + r)
  | .xorDelta => st.p + (st.dp ^^^ r)
  | .deltaXor => st.p ^^^ (st.xp + r)
  | .plain => r

/-- One varint of the body and the state after it (R241). -/
def residPutItem (k : Scheme) (st : ResidState) (v : Word) : List Bool × ResidState :=
  (varintBits (k.resid st v), st.after v)

/-- The bits of `ResidEnc(K)` (R240, R241): nothing for item 0. -/
def residBody (k : Scheme) : List Word → Except Cause (List Bool)
  | [] => .ok []
  | v0 :: vs => .ok (encodeItems (residPutItem k) (ResidState.init v0) vs)

/-- One item (R242). -/
def residGetItem (s : State) (k : Scheme) (st : ResidState) (pos : Nat) : Except Cause (Word × ResidState × Nat) :=
  if pos = s.blen.toNat then .error .eosItems
  else
    varGet s pos >>= fun r =>
      let v := k.item st r.1
      .ok (v, st.after v, r.2)

/-- `ResidDec(K)` (R242): item 0 is `FIRST`. -/
def residRead (k : Scheme) (s : State) : Except Cause (List Word × Nat) :=
  decodeItems (residGetItem s k) (s.count.toNat - 1) (ResidState.init s.first) 0 >>= fun r =>
    endOfBytes s (s.first :: r.1, r.2)

/-- The body of `CONST.C` (R236): empty, and only for a block of equal items. -/
def constBody : List Word → Except Cause (List Bool)
  | [] => .ok []
  | v0 :: vs => if vs.all (fun v => v = v0) then .ok [] else .error .notConst

/-- `CONST.D` after DecompressBegin (R237). -/
def constRead (s : State) : Except Cause (List Word × Nat) :=
  if s.blen ≠ 0 then .error .tail else .ok (List.replicate s.count.toNat s.first, 0)

/-- The first-order differences of a block (R220). -/
def differences : List Word → List Word
  | v0 :: v1 :: vs => (v1 - v0) :: differences (v1 :: vs)
  | _ => []

/-- The body of `DELTACONST.C` (R238): the one difference, and only for a block of constant difference. -/
def deltaconstBody (vs : List Word) : Except Cause (List Bool) :=
  match differences vs with
  | [] => .ok []
  | dd :: rest => if rest.all (fun d => d = dd) then .ok (varintBits dd) else .error .notConst

/-- `n` items from `p` on by repeated addition of `dd` (R239). -/
def progression (dd : Word) : Nat → Word → List Word
  | 0, _ => []
  | n + 1, p => p :: progression dd n (p + dd)

/-- `DELTACONST.D` after DecompressBegin (R239). -/
def deltaconstRead (s : State) : Except Cause (List Word × Nat) :=
  if s.blen = 0 then .error .eosItems
  else varGet s 0 >>= fun dd => endOfBytes s (progression dd.1 s.count.toNat s.first, dd.2)

/-- `DELTA.C` (R226). -/
def execDeltaC (s : State) : Host.Outcome State Fault Refusal :=
  .next (compress Instr.deltaC.opc 1 s.cfg.vcap (residBody .delta) s)

/-- `DELTA.D` (R227). -/
def execDeltaD (s : State) : Host.Outcome State Fault Refusal :=
  .next (decompress Instr.deltaD.opc (residRead .delta) s)

/-- `DELTA2.C` (R228). -/
def execDelta2C (s : State) : Host.Outcome State Fault Refusal :=
  .next (compress Instr.delta2C.opc 1 s.cfg.vcap (residBody .delta2) s)

/-- `DELTA2.D` (R229). -/
def execDelta2D (s : State) : Host.Outcome State Fault Refusal :=
  .next (decompress Instr.delta2D.opc (residRead .delta2) s)

/-- `XORDELTA.C` (R230). -/
def execXordeltaC (s : State) : Host.Outcome State Fault Refusal :=
  .next (compress Instr.xordeltaC.opc 1 s.cfg.vcap (residBody .xorDelta) s)

/-- `XORDELTA.D` (R231). -/
def execXordeltaD (s : State) : Host.Outcome State Fault Refusal :=
  .next (decompress Instr.xordeltaD.opc (residRead .xorDelta) s)

/-- `DELTAXOR.C` (R232). -/
def execDeltaxorC (s : State) : Host.Outcome State Fault Refusal :=
  .next (compress Instr.deltaxorC.opc 1 s.cfg.vcap (residBody .deltaXor) s)

/-- `DELTAXOR.D` (R233). -/
def execDeltaxorD (s : State) : Host.Outcome State Fault Refusal :=
  .next (decompress Instr.deltaxorD.opc (residRead .deltaXor) s)

/-- `PLAIN.C` (R234). -/
def execPlainC (s : State) : Host.Outcome State Fault Refusal :=
  .next (compress Instr.plainC.opc 1 s.cfg.vcap (residBody .plain) s)

/-- `PLAIN.D` (R235). -/
def execPlainD (s : State) : Host.Outcome State Fault Refusal :=
  .next (decompress Instr.plainD.opc (residRead .plain) s)

/-- `CONST.C` (R236). -/
def execConstC (s : State) : Host.Outcome State Fault Refusal :=
  .next (compress Instr.constC.opc 1 s.cfg.vcap constBody s)

/-- `CONST.D` (R237). -/
def execConstD (s : State) : Host.Outcome State Fault Refusal :=
  .next (decompress Instr.constD.opc constRead s)

/-- `DELTACONST.C` (R238): at least two items. -/
def execDeltaconstC (s : State) : Host.Outcome State Fault Refusal :=
  .next (compress Instr.deltaconstC.opc 2 s.cfg.vcap deltaconstBody s)

/-- `DELTACONST.D` (R239). -/
def execDeltaconstD (s : State) : Host.Outcome State Fault Refusal :=
  .next (decompress Instr.deltaconstD.opc deltaconstRead s)

end Sys2Proof.Machine
end

