-- ==== Sys2Proof/Machine/Fpc.lean ====
section
/-! DEFINITION. The FPC codec with its FCM and DFCM predictors (43_fpc.md, R185 to R192). -/

namespace Sys2Proof.Machine

/-- An entry of a predictor's table: an entry nothing has written is 0 (R186, R187). -/
def tableGet (t : List (Nat × Word)) (i : Nat) : Word := (wordGet t i).getD 0

/-- The FCM predictor: table and index (R186). -/
structure Fcm where
  table : List (Nat × Word)
  fh : Nat
deriving DecidableEq, Repr

/-- All zero, the state at the start of the command (R186). -/
def Fcm.init : Fcm := { table := [], fh := 0 }

/-- `FcmPredict()` (R186). -/
def Fcm.predict (p : Fcm) : Word := tableGet p.table p.fh

/-- `FcmUpdate(v)` (R186), the table having `2^log2` entries. -/
def Fcm.update (p : Fcm) (log2 : Nat) (v : Word) : Fcm :=
  { table := wordSet p.table p.fh v
    fh := ((p.fh <<< 6) ^^^ (v >>> 48).toNat) &&& (2 ^ log2 - 1) }

/-- The DFCM predictor: table, index and last raw value (R187). -/
structure Dfcm where
  table : List (Nat × Word)
  dh : Nat
  last : Word
deriving DecidableEq, Repr

/-- All zero, the state at the start of the command (R187). -/
def Dfcm.init : Dfcm := { table := [], dh := 0, last := 0 }

/-- `DfcmPredict()` (R187). -/
def Dfcm.predict (p : Dfcm) : Word := tableGet p.table p.dh + p.last

/-- `DfcmUpdate(v)` (R187), the table having `2^log2` entries. -/
def Dfcm.update (p : Dfcm) (log2 : Nat) (v : Word) : Dfcm :=
  let d := v - p.last
  { table := wordSet p.table p.dh d
    dh := ((p.dh <<< 2) ^^^ (d >>> 40).toNat) &&& (2 ^ log2 - 1)
    last := v }

/-- The two predictors of FPC. -/
structure FpcState where
  fcm : Fcm
  dfcm : Dfcm
deriving DecidableEq, Repr

/-- All zero (R191, R192). -/
def FpcState.init : FpcState := { fcm := Fcm.init, dfcm := Dfcm.init }

/-- Both predictors updated, "regardless of which one was chosen" (R191). -/
def FpcState.update (st : FpcState) (log2 : Nat) (v : Word) : FpcState :=
  { fcm := st.fcm.update log2 v, dfcm := st.dfcm.update log2 v }

/-- One item and the state after it (R188, R191); a tie goes to FCM. -/
def fpcPutItem (log2 : Nat) (st : FpcState) (v : Word) : List Bool × FpcState :=
  let xf := v ^^^ st.fcm.predict
  let xd := v ^^^ st.dfcm.predict
  let sel := decide (lzb xd > lzb xf)
  let x := if sel then xd else xf
  let cnt := min (lzb x) 7
  ([sel] ++ groupNat cnt 3 ++ group x (8 * (8 - cnt)), st.update log2 v)

/-- The bits of `FpcEnc` (R191). -/
def fpcBody (log2 : Nat) (vs : List Word) : Except Cause (List Bool) :=
  .ok (groupNat vs.length 14 ++ encodeItems (fpcPutItem log2) FpcState.init vs)

/-- One item (R192). -/
def fpcGetItem (s : State) (st : FpcState) (pos : Nat) : Except Cause (Word × FpcState × Nat) :=
  getBit s pos >>= fun sel =>
    getBits s sel.2 3 >>= fun cnt =>
      getBits s cnt.2 (8 * (8 - cnt.1.toNat)) >>= fun x =>
        let v := x.1 ^^^ (if sel.1 then st.dfcm.predict else st.fcm.predict)
        .ok (v, st.update s.cfg.fpcLog2 v, x.2)

/-- A decoder that holds the first value as its first coded item: item 0, its comparison with `FIRST`, then the other
`COUNT - 1` items (R192, R267). -/
def decodeCheckedItems {σ : Type} (item : σ → Nat → Except Cause (Word × σ × Nat)) (s : State) (st : σ) (pos : Nat) :
    Except Cause (List Word × Nat) :=
  item st pos >>= fun r0 =>
    if r0.1 ≠ s.first then .error .firstMismatch
    else
      decodeItems item (s.count.toNat - 1) r0.2.1 r0.2.2 >>= fun r => .ok (r0.1 :: r.1, r.2)

/-- `FpcDec` (R192). -/
def fpcRead (s : State) : Except Cause (List Word × Nat) :=
  getBits s 0 14 >>= fun n =>
    if n.1.toNat ≠ s.count.toNat then .error .countMismatch
    else decodeCheckedItems (fpcGetItem s) s FpcState.init n.2 >>= endOfBits s

/-- `FPC.C` (R189). -/
def execFpcC (s : State) : Host.Outcome State Fault Refusal :=
  .next (compress Instr.fpcC.opc 1 16383 (fpcBody s.cfg.fpcLog2) s)

/-- `FPC.D` (R190). -/
def execFpcD (s : State) : Host.Outcome State Fault Refusal :=
  .next (decompress Instr.fpcD.opc fpcRead s)

end Sys2Proof.Machine
end

