-- ==== Sys2Proof/Machine/Gorilla.lean ====
section
/-! DEFINITION. The Gorilla-XOR family, one encoder and one decoder over the layout (41_gorilla.md, R140 to R153). -/

namespace Sys2Proof.Machine

/-- The three layouts (R141). -/
inductive Layout where
  /-- Gorilla. -/
  | g
  /-- GorillaZ. -/
  | z
  /-- GorillaPlus. -/
  | p
deriving DecidableEq, Repr

/-- `LW`: width of the leading-zero field (R141). -/
def Layout.lw : Layout → Nat
  | .g => 5
  | .z => 3
  | .p => 6

/-- The field value `f` sent for `lz` leading zeros (R144). -/
def Layout.field : Layout → Nat → Nat
  | .g, lz => min lz 31
  | .z, lz => min (lz / 8) 7
  | .p, lz => lz

/-- The leading-zero count `L` a field value `f` stands for (R144). -/
def Layout.lead : Layout → Nat → Nat
  | .g, f => f
  | .z, f => 8 * f
  | .p, f => f

/-- The command-local state: the previous raw value and the window (`pl` leading zeros, `w` meaningful bits; `w` = 0
before any window was sent) (R143). -/
structure GorillaState where
  prev : Word
  pl : Nat
  w : Nat
deriving DecidableEq, Repr

/-- No window yet (R143). -/
def GorillaState.init (v0 : Word) : GorillaState := { prev := v0, pl := 0, w := 0 }

/-- `pt`, the trailing zeros of the window (R143). -/
def GorillaState.pt (st : GorillaState) : Nat := 64 - st.pl - st.w

/-- `Contain` (R145): every 1 bit lies inside the window. -/
def GorillaState.contains (st : GorillaState) (lz tz : Nat) : Bool :=
  decide (st.w ≠ 0 ∧ st.pl ≤ lz ∧ st.pt ≤ tz)

/-- `Reuse(lay)` (R145): `GORP_SLACK` is 12. -/
def GorillaState.reuse (st : GorillaState) (lay : Layout) (lz tz : Nat) : Bool :=
  match lay with
  | .g => st.contains lz tz
  | .z => st.contains lz tz
  | .p => st.contains lz tz && decide ((lz - st.pl) + (tz - st.pt) < 12)

/-- One item record and the state after it (R142, R153). -/
def gorillaPutItem (lay : Layout) (st : GorillaState) (v : Word) : List Bool × GorillaState :=
  let x := st.prev ^^^ v
  let lz := clz x
  let tz := ctz x
  if x = 0 then ([false], { st with prev := v })
  else if st.reuse lay lz tz then ([true, false] ++ group (x >>> st.pt) st.w, { st with prev := v })
  else
    let f := lay.field lz
    let l := lay.lead f
    let w := 64 - l - tz
    ([true, true] ++ groupNat f lay.lw ++ groupNat (w - 1) 6 ++ group (x >>> tz) w, { prev := v, pl := l, w := w })

/-- The bits of `GorillaEnc(lay)` (R153). -/
def gorillaBody (lay : Layout) : List Word → Except Cause (List Bool)
  | [] => .ok []
  | v0 :: vs => .ok (framedHeader v0 (vs.length + 1) ++ encodeItems (gorillaPutItem lay) (GorillaState.init v0) vs)

/-- The window of a non-zero record: the flag, and a new header when the flag is 1 (R142, R146). The result is `pl`, `w`
and the cursor. -/
def gorillaGetWindow (s : State) (lay : Layout) (st : GorillaState) (pos : Nat) : Except Cause (Nat × Nat × Nat) :=
  getBit s pos >>= fun flag =>
    if flag.1 then
      getBits s flag.2 lay.lw >>= fun f =>
        getBits s f.2 6 >>= fun k => .ok (lay.lead f.1.toNat, k.1.toNat + 1, k.2)
    else .ok (st.pl, st.w, flag.2)

/-- One item (R146). -/
def gorillaGetItem (s : State) (lay : Layout) (st : GorillaState) (pos : Nat) :
    Except Cause (Word × GorillaState × Nat) :=
  getBit s pos >>= fun c =>
    if c.1 then
      gorillaGetWindow s lay st c.2 >>= fun win =>
        let pl := win.1
        let w := win.2.1
        if w = 0 ∨ pl + w > 64 then .error .window
        else
          getBits s win.2.2 w >>= fun b =>
            let v := st.prev ^^^ (b.1 <<< (64 - pl - w))
            .ok (v, { prev := v, pl := pl, w := w }, b.2)
    else .ok (st.prev, st, c.2)

/-- `GorillaDec(lay)` (R146). -/
def gorillaRead (lay : Layout) (s : State) : Except Cause (List Word × Nat) :=
  readFramedHeader s >>= fun h =>
    decodeItems (gorillaGetItem s lay) (s.count.toNat - 1) (GorillaState.init h.1) h.2 >>= fun r =>
      endOfBits s (h.1 :: r.1, r.2)

/-- `GORILLA.C` (R147). -/
def execGorillaC (s : State) : Host.Outcome State Fault Refusal :=
  .next (compress Instr.gorillaC.opc 1 16383 (gorillaBody .g) s)

/-- `GORILLA.D` (R148). -/
def execGorillaD (s : State) : Host.Outcome State Fault Refusal :=
  .next (decompress Instr.gorillaD.opc (gorillaRead .g) s)

/-- `GORILLAZ.C` (R149). -/
def execGorillazC (s : State) : Host.Outcome State Fault Refusal :=
  .next (compress Instr.gorillazC.opc 1 16383 (gorillaBody .z) s)

/-- `GORILLAZ.D` (R150). -/
def execGorillazD (s : State) : Host.Outcome State Fault Refusal :=
  .next (decompress Instr.gorillazD.opc (gorillaRead .z) s)

/-- `GORILLAPLUS.C` (R151). -/
def execGorillaplusC (s : State) : Host.Outcome State Fault Refusal :=
  .next (compress Instr.gorillaplusC.opc 1 16383 (gorillaBody .p) s)

/-- `GORILLAPLUS.D` (R152). -/
def execGorillaplusD (s : State) : Host.Outcome State Fault Refusal :=
  .next (decompress Instr.gorillaplusD.opc (gorillaRead .p) s)

end Sys2Proof.Machine
end

