-- ==== Sys2Proof/Machine/Huffman.lean ====
section
/-! DEFINITION. The static Huffman nibble coder (47_huffman.md, R260 to R267). -/

namespace Sys2Proof.Machine

/-- `Code(q)` (R261) as a number and a length. -/
def huffCode (q : Nat) : Nat × Nat :=
  if q = 0 then (0, 1) else if q = 1 then (8, 4) else (16 + q, 5)

/-- The code of a nibble as bits. -/
def huffBits (q : Nat) : List Bool := groupNat (huffCode q).1 (huffCode q).2

/-- Nibble `k` of a pattern: bits `4k+3 : 4k`. -/
def nibble (x : Word) (k : Nat) : Nat := ((x >>> (4 * k)) &&& 0xF#64).toNat

/-- The codes of the nibbles `k-1` down to 0 (R262). -/
def nibbleCodes (x : Word) : Nat → List Bool
  | 0 => []
  | k + 1 => huffBits (nibble x k) ++ nibbleCodes x k

/-- One item: the sixteen codes of its XOR with the previous true value, which is the state (R262, R266). -/
def huffPutItem (prev : Word) (v : Word) : List Bool × Word := (nibbleCodes (v ^^^ prev) 16, v)

/-- The bits of `HuffEnc` (R266). -/
def huffBody (vs : List Word) : Except Cause (List Bool) :=
  .ok (groupNat vs.length 16 ++ encodeItems huffPutItem 0 vs)

/-- `GetNibble()`, the tree walk (R263). -/
def getNibble (s : State) (pos : Nat) : Except Cause (Nat × Nat) :=
  getBit s pos >>= fun b =>
    if b.1 then
      getBits s b.2 3 >>= fun t =>
        if t.1 = 0 then .ok (1, t.2)
        else getBit s t.2 >>= fun c => .ok (2 * t.1.toNat + c.1.toNat, c.2)
    else .ok (0, b.2)

/-- `n` nibbles shifted into `x`, most significant first (R267). -/
def getNibbles (s : State) : Nat → Word → Nat → Except Cause (Word × Nat)
  | 0, x, pos => .ok (x, pos)
  | n + 1, x, pos =>
    getNibble s pos >>= fun q => getNibbles s n ((x <<< 4) ||| BitVec.ofNat 64 q.1) q.2

/-- One item (R267). -/
def huffGetItem (s : State) (prev : Word) (pos : Nat) : Except Cause (Word × Word × Nat) :=
  getNibbles s 16 0 pos >>= fun x => .ok (x.1 ^^^ prev, x.1 ^^^ prev, x.2)

/-- `HuffDec` (R267). -/
def huffRead (s : State) : Except Cause (List Word × Nat) :=
  getBits s 0 16 >>= fun n =>
    if n.1.toNat ≠ s.count.toNat then .error .countMismatch
    else decodeCheckedItems (huffGetItem s) s 0 n.2 >>= endOfBits s

/-- `HUFF.C` (R264). -/
def execHuffC (s : State) : Host.Outcome State Fault Refusal :=
  .next (compress Instr.huffC.opc 1 65535 huffBody s)

/-- `HUFF.D` (R265). -/
def execHuffD (s : State) : Host.Outcome State Fault Refusal :=
  .next (decompress Instr.huffD.opc huffRead s)

end Sys2Proof.Machine
end

