-- ==== Sys2Proof/Machine/Pdfcm.lean ====
section
/-! DEFINITION. The PDFCM codec: window dictionary with predictor fallback (44_pdfcm.md, R200 to R207). -/

namespace Sys2Proof.Machine

/-- The command-local state: previous raw value, window `W[0..7]` (newest first), one DFCM predictor (R202, R203). -/
structure PdfcmState where
  prev : Word
  window : List Word
  dfcm : Dfcm
deriving DecidableEq, Repr

/-- `W[k]` (R202). -/
def PdfcmState.entry (st : PdfcmState) (k : Nat) : Word := st.window.getD k 0

/-- `Push(v)` (R202), `DfcmUpdate(v)` (R203), `prev <- v`. -/
def PdfcmState.push (st : PdfcmState) (log2 : Nat) (v : Word) : PdfcmState :=
  { prev := v, window := v :: st.window.take 7, dfcm := st.dfcm.update log2 v }

/-- The state after the first value: window and predictor all 0, then pushed and updated with it (R202, R203). -/
def PdfcmState.init (log2 : Nat) (v0 : Word) : PdfcmState :=
  PdfcmState.push { prev := 0, window := List.replicate 8 0, dfcm := Dfcm.init } log2 v0

/-- The scan of the window (R204): the lowest index from `k` on whose `zb(v xor W[.])` is largest, `best` being the
index found so far. -/
def bestEntry (v : Word) : List Word → Nat → Nat × Nat → Nat × Nat
  | [], _, best => best
  | w :: ws, k, best => bestEntry v ws (k + 1) (if zb (v ^^^ w) > best.2 then (k, zb (v ^^^ w)) else best)

/-- `j` of R204: the lowest `k` in 0..7 for which `zb(v xor W[k])` is largest. -/
def PdfcmState.best (st : PdfcmState) (v : Word) : Nat := (bestEntry v st.window 0 (0, 0)).1

/-- `Trim` (R204): leading and trailing zero bytes to skip. -/
def trim (x : Word) : Nat × Nat := if x = 0 then (7, 0) else (lzb x, tzb x)

/-- A residual's fields: trailing skip, leading skip, the bytes between (R201, R204). -/
def residualBits (x : Word) : List Bool :=
  let l := (trim x).1
  let t := (trim x).2
  groupNat t 3 ++ groupNat l 3 ++ group (x >>> (8 * t)) (8 * (8 - l - t))

/-- One item record and the state after it (R201, R204). -/
def pdfcmPutItem (log2 : Nat) (st : PdfcmState) (v : Word) : List Bool × PdfcmState :=
  let j := st.best v
  let xd := v ^^^ st.entry j
  let xp := v ^^^ st.dfcm.predict
  let bits :=
    if v = st.prev then [false]
    else if st.entry j = v then [true, false, false] ++ groupNat j 3
    else if max (zb xp) (zb xd) = 0 then [true, true, true] ++ group v 64
    else if zb xp ≥ zb xd then [true, false, true] ++ residualBits xp
    else [true, true, false] ++ groupNat j 3 ++ residualBits xd
  (bits, st.push log2 v)

/-- The bits of `PdfcmEnc` (R204). -/
def pdfcmBody (log2 : Nat) : List Word → Except Cause (List Bool)
  | [] => .ok []
  | v0 :: vs =>
    .ok (framedHeader v0 (vs.length + 1) ++ encodeItems (pdfcmPutItem log2) (PdfcmState.init log2 v0) vs)

/-- A residual's fields read back: the XOR and the cursor (R205). -/
def getResidual (s : State) (pos : Nat) : Except Cause (Word × Nat) :=
  getBits s pos 3 >>= fun t =>
    getBits s t.2 3 >>= fun l =>
      if l.1.toNat + t.1.toNat > 7 then .error .window
      else
        getBits s l.2 (8 * (8 - l.1.toNat - t.1.toNat)) >>= fun b => .ok (b.1 <<< (8 * t.1.toNat), b.2)

/-- The value of a record after its leading 1 bit, and the cursor (R205). -/
def pdfcmGetShape (s : State) (st : PdfcmState) (pos : Nat) : Except Cause (Word × Nat) :=
  getBits s pos 2 >>= fun shape =>
    if shape.1 = 0 then getBits s shape.2 3 >>= fun j => .ok (st.entry j.1.toNat, j.2)
    else if shape.1 = 3 then getBits s shape.2 64
    else if shape.1 = 2 then
      getBits s shape.2 3 >>= fun j =>
        getResidual s j.2 >>= fun x => .ok (x.1 ^^^ st.entry j.1.toNat, x.2)
    else getResidual s shape.2 >>= fun x => .ok (x.1 ^^^ st.dfcm.predict, x.2)

/-- One item (R205). -/
def pdfcmGetItem (s : State) (st : PdfcmState) (pos : Nat) : Except Cause (Word × PdfcmState × Nat) :=
  getBit s pos >>= fun c =>
    if c.1 then pdfcmGetShape s st c.2 >>= fun r => .ok (r.1, st.push s.cfg.fpcLog2 r.1, r.2)
    else .ok (st.prev, st.push s.cfg.fpcLog2 st.prev, c.2)

/-- `PdfcmDec` (R205). -/
def pdfcmRead (s : State) : Except Cause (List Word × Nat) :=
  readFramedHeader s >>= fun h =>
    decodeItems (pdfcmGetItem s) (s.count.toNat - 1) (PdfcmState.init s.cfg.fpcLog2 h.1) h.2 >>= fun r =>
      endOfBits s (h.1 :: r.1, r.2)

/-- `PDFCM.C` (R206). -/
def execPdfcmC (s : State) : Host.Outcome State Fault Refusal :=
  .next (compress Instr.pdfcmC.opc 1 16383 (pdfcmBody s.cfg.fpcLog2) s)

/-- `PDFCM.D` (R207). -/
def execPdfcmD (s : State) : Host.Outcome State Fault Refusal :=
  .next (decompress Instr.pdfcmD.opc pdfcmRead s)

end Sys2Proof.Machine
end

