-- ==== Sys2Proof/Machine/Rle.lean ====
section
/-! DEFINITION. The Repeat-Elimination (run-length) codec (46_rle.md, R250 to R254). -/

namespace Sys2Proof.Machine

/-- The maximal runs of a block, in order: value and length (R251). -/
def runsFrom (cv : Word) (cl : Nat) : List Word → List (Word × Nat)
  | [] => [(cv, cl)]
  | v :: vs => if v = cv then runsFrom cv (cl + 1) vs else (cv, cl) :: runsFrom v 1 vs

/-- The bits of `RleEnc` (R250, R251): the number of runs, then value and length of each. -/
def rleBody : List Word → Except Cause (List Bool)
  | [] => .ok []
  | v0 :: vs =>
    let runs := runsFrom v0 1 vs
    .ok (varintBits (BitVec.ofNat 64 runs.length) ++
      runs.flatMap fun r => varintBits r.1 ++ varintBits (BitVec.ofNat 64 r.2))

/-- Every varint from cursor `pos` to the end of the body: the array `A` of R252. Each varint takes a byte or more, so
`fuel` above the number of bytes left is never used up. -/
def restVarints (s : State) : Nat → Nat → Except Cause (List Word)
  | 0, _ => .ok []
  | fuel + 1, pos =>
    if pos = s.blen.toNat then .ok []
    else varGet s pos >>= fun v => restVarints s fuel v.2 >>= fun vs => .ok (v.1 :: vs)

/-- The pair loop of R252 over the array from pair `k` on, `made` items made so far; `head` says that `k` is 0. -/
def expandPairs (s : State) : List Word → Bool → Nat → Except Cause (List Word)
  | val :: run :: rest, head, made =>
    if made = s.count.toNat then .error .tail
    else if run.toInt ≤ 0 then .error .badRun
    else if head ∧ val ≠ s.first then .error .firstMismatch
    else
      let take := min run.toNat (s.count.toNat - made)
      expandPairs s rest false (made + take) >>= fun vs => .ok (List.replicate take val ++ vs)
  | _, _, made => if made < s.count.toNat then .error .eosItems else .ok []

/-- `RleDec` (R252). The whole body is read, so the cursor ends at `BLEN`. -/
def rleRead (s : State) : Except Cause (List Word × Nat) :=
  if s.blen = 0 then .error .eosItems
  else
    varGet s 0 >>= fun p =>
      restVarints s (s.blen.toNat + 1) p.2 >>= fun a =>
        if a.length % 2 = 1 then .error .oddPairs
        else if p.1.toInt < 0 ∨ 2 * p.1.toNat ≠ a.length then .error .countMismatch
        else expandPairs s a true 0 >>= fun vs => .ok (vs, s.blen.toNat)

/-- `RLE.C` (R253). -/
def execRleC (s : State) : Host.Outcome State Fault Refusal :=
  .next (compress Instr.rleC.opc 1 s.cfg.vcap rleBody s)

/-- `RLE.D` (R254). -/
def execRleD (s : State) : Host.Outcome State Fault Refusal :=
  .next (decompress Instr.rleD.opc rleRead s)

end Sys2Proof.Machine
end

