-- ==== Sys2Proof/Machine/Stats.lean ====
section
/-! DEFINITION. Block statistics and the scheme selector (48_stats_selector.md, R270 to R278). -/

namespace Sys2Proof.Machine

/-- The XORs of neighbouring items (R220, R270). -/
def pairXors : List Word → List Word
  | v0 :: v1 :: vs => (v1 ^^^ v0) :: pairXors (v1 :: vs)
  | _ => []

/-- `REPEATS` of a block (R270). -/
def repeatsOf (vs : List Word) : Nat := (pairXors vs).countP (fun x => decide (x = 0))

/-- `SUMBITS` of a block (R270). -/
def sumBitsOf (vs : List Word) : Nat := ((pairXors vs).map pop).sum

/-- `StatsPass()` (R270): writes the five results and nothing else. -/
def statsPass (s : State) : State :=
  let pairs := s.slen.toNat - 1
  let repeats := repeatsOf s.srcItems
  { s with
    sumbits := BitVec.ofNat 32 (sumBitsOf s.srcItems)
    nzpairs := BitVec.ofNat 32 (pairs - repeats)
    repeats := BitVec.ofNat 32 repeats
    pairs := BitVec.ofNat 32 pairs
    statf := isRepeat repeats s.slen.toNat }

/-- `MarshalType` (R276). -/
inductive MarshalType where
  | const
  | deltaConst
  | repeatEliminate
  | zstdNearestDelta
  | zstdNearestDelta2
  | zstd
deriving DecidableEq, Repr

/-- The codes of `TAG` (R276); 6 and 7 are reserved. -/
def MarshalType.code : MarshalType → BitVec 3
  | .const => 0
  | .deltaConst => 1
  | .repeatEliminate => 2
  | .zstdNearestDelta => 3
  | .zstdNearestDelta2 => 4
  | .zstd => 5

/-- `DEN`, the divisor of `distance` (R272): the parameter `STAT_DENOM` decides. -/
def denominator (s : State) : Nat :=
  match s.cfg.statDenom with
  | .nz => s.nzpairs.toNat
  | .all => s.pairs.toNat

/-- `Select()` on the results of `StatsPass()`, step by step (R275). -/
def select (s : State) : MarshalType :=
  if s.slen.toNat ≤ 1 then .const
  else if s.slen.toNat = 2 then .deltaConst
  else if s.sumbits = 0 then .const
  else if s.statf then .repeatEliminate
  else if s.sumbits.toNat < denominator s then .zstdNearestDelta2
  else if 2 * s.sumbits.toNat < 41 * denominator s then .zstdNearestDelta
  else .zstd

/-- `STATS` (R273). -/
def execStats (s : State) : Host.Outcome State Fault Refusal := .next (statsPass s)

/-- `CLASSIFY` (R278): the pass always runs. -/
def execClassify (s : State) : Host.Outcome State Fault Refusal :=
  .next { statsPass s with tag := (select (statsPass s)).code }

end Sys2Proof.Machine
end

