-- ==== Sys2Proof/Machine/Varint.lean ====
section
/-! DEFINITION. The varint commands (49_varint.md, R288, R289). -/

namespace Sys2Proof.Machine

/-- `VARPUT`: `VarPut(VAL)` at a byte boundary, one capacity check for the whole varint (R288, R290). -/
def execVarput (s : State) : Host.Outcome State Fault Refusal :=
  .next (primitive Instr.varput.opc
    (fun s => if s.blen.toNat % 8 ≠ 0 then .error .unaligned else appendBits (varintBits s.val) s) s)

/-- `VARGET`: `VAL <- VarGet()` at a byte boundary (R289, R291). -/
def execVarget (s : State) : Host.Outcome State Fault Refusal :=
  .next (primitive Instr.varget.opc
    (fun s =>
      if s.rpos.toNat % 8 ≠ 0 then .error .unaligned
      else varGet s s.rpos.toNat >>= fun r => .ok (readInto r s)) s)

end Sys2Proof.Machine
end

