-- ==== Sys2Proof/Machine/Dispatch.lean ====
section
/-! DEFINITION. The meaning of each command: one arm per constructor of `Instr` (step 4 of R102). -/

namespace Sys2Proof.Machine

def exec (i : Instr) (s : State) : Host.Outcome State Fault Refusal :=
  match i with
  | .nop => Sys2Proof.Machine.execNop s
  | .bsreset => Sys2Proof.Machine.execBsreset s
  | .appendbit b => Sys2Proof.Machine.execAppendbit b s
  | .appendbits n => Sys2Proof.Machine.execAppendbits n s
  | .finish => Sys2Proof.Machine.execFinish s
  | .rewind => Sys2Proof.Machine.execRewind s
  | .readbit => Sys2Proof.Machine.execReadbit s
  | .readbits n => Sys2Proof.Machine.execReadbits n s
  | .varput => Sys2Proof.Machine.execVarput s
  | .varget => Sys2Proof.Machine.execVarget s
  | .gorillaC => Sys2Proof.Machine.execGorillaC s
  | .gorillaD => Sys2Proof.Machine.execGorillaD s
  | .gorillazC => Sys2Proof.Machine.execGorillazC s
  | .gorillazD => Sys2Proof.Machine.execGorillazD s
  | .gorillaplusC => Sys2Proof.Machine.execGorillaplusC s
  | .gorillaplusD => Sys2Proof.Machine.execGorillaplusD s
  | .chimpC => Sys2Proof.Machine.execChimpC s
  | .chimpD => Sys2Proof.Machine.execChimpD s
  | .fpcC => Sys2Proof.Machine.execFpcC s
  | .fpcD => Sys2Proof.Machine.execFpcD s
  | .pdfcmC => Sys2Proof.Machine.execPdfcmC s
  | .pdfcmD => Sys2Proof.Machine.execPdfcmD s
  | .deltaC => Sys2Proof.Machine.execDeltaC s
  | .deltaD => Sys2Proof.Machine.execDeltaD s
  | .delta2C => Sys2Proof.Machine.execDelta2C s
  | .delta2D => Sys2Proof.Machine.execDelta2D s
  | .xordeltaC => Sys2Proof.Machine.execXordeltaC s
  | .xordeltaD => Sys2Proof.Machine.execXordeltaD s
  | .deltaxorC => Sys2Proof.Machine.execDeltaxorC s
  | .deltaxorD => Sys2Proof.Machine.execDeltaxorD s
  | .plainC => Sys2Proof.Machine.execPlainC s
  | .plainD => Sys2Proof.Machine.execPlainD s
  | .constC => Sys2Proof.Machine.execConstC s
  | .constD => Sys2Proof.Machine.execConstD s
  | .deltaconstC => Sys2Proof.Machine.execDeltaconstC s
  | .deltaconstD => Sys2Proof.Machine.execDeltaconstD s
  | .rleC => Sys2Proof.Machine.execRleC s
  | .rleD => Sys2Proof.Machine.execRleD s
  | .huffC => Sys2Proof.Machine.execHuffC s
  | .huffD => Sys2Proof.Machine.execHuffD s
  | .stats => Sys2Proof.Machine.execStats s
  | .classify => Sys2Proof.Machine.execClassify s
  | .clrerr => Sys2Proof.Machine.execClrerr s
  | .sreset => Sys2Proof.Machine.execSreset s

end Sys2Proof.Machine
end

