-- ==== Sys2Proof/Machine/Command.lean ====
section
/-! DEFINITION. The host's side: a write of `CMD` (R102), the registers by number (R34 to R36), the memories by index
(R60, R70), hardware reset (R340). -/

namespace Sys2Proof.Machine

/-- An opcode that passes the gate while the block is faulted: `CLRERR` and `SRESET` (R102 step 1, R308). -/
def passesGate (opc : BitVec 8) : Bool := opc == 0xF0 || opc == 0xF1

/-- A write of word `w` to `CMD`, the four steps of R102. -/
def commandWrite (w : CmdWord) (s : State) : Host.Outcome State Fault Refusal :=
  if s.faulted && !passesGate (opcField w) then .next s
  else
    match decode w with
    | .error .opcode => .next (raise .illegal .illegalOpcode (opcField w) s)
    | .error .field => .next (raise .illegal .illegalField (opcField w) s)
    | .ok i => exec i s

/-- A write of `BYTELEN` (R34): `v <= BUF_CAP` sets `BLEN` and `RPOS`, a larger value is ignored. -/
def writeByteLen (v : Len) (s : State) : State :=
  if v.toNat ≤ s.cfg.bufCap then { s with blen := BitVec.ofNat 32 (8 * v.toNat), rpos := 0 } else s

/-- A write of `SLEN` (R36): above `VCAP` it is ignored. -/
def writeSlen (v : Len) (s : State) : State := if v.toNat ≤ s.cfg.vcap then { s with slen := v } else s

/-- A write of `DLEN` (R36): above `VCAP` it is ignored. -/
def writeDlen (v : Len) (s : State) : State := if v.toNat ≤ s.cfg.vcap then { s with dlen := v } else s

/-- A write of a register other than `CMD` by number (R35, R36): bits above the register's width are ignored, writes
of read-only and reserved numbers too. -/
def writeRegister (num : Nat) (v : Word) (s : State) : State :=
  match num with
  | 0x02 => { s with val := v }
  | 0x03 => { s with first := v }
  | 0x04 => { s with count := v.setWidth 32 }
  | 0x06 => writeByteLen (v.setWidth 32) s
  | 0x08 => writeSlen (v.setWidth 32) s
  | 0x09 => writeDlen (v.setWidth 32) s
  | _ => s

/-- `BYTELEN` as it reads: the bytes of the stream, `ceil(BLEN / 8)` (R34). -/
def State.byteLen (s : State) : Nat := (s.blen.toNat + 7) / 8

/-- What a register reads as, by number (R35): `CMD` and the reserved numbers 0; bits above a width 0 (R36). -/
def readRegister (num : Nat) (s : State) : Word :=
  match num with
  | 0x01 => s.status.setWidth 64
  | 0x02 => s.val
  | 0x03 => s.first
  | 0x04 => s.count.setWidth 64
  | 0x05 => s.blen.setWidth 64
  | 0x06 => BitVec.ofNat 64 s.byteLen
  | 0x07 => s.rpos.setWidth 64
  | 0x08 => s.slen.setWidth 64
  | 0x09 => s.dlen.setWidth 64
  | 0x0A => s.tag.setWidth 64
  | 0x0B => if s.statf then 1 else 0
  | 0x0C => s.sumbits.setWidth 64
  | 0x0D => s.nzpairs.setWidth 64
  | 0x0E => s.repeats.setWidth 64
  | 0x0F => s.pairs.setWidth 64
  | _ => 0

/-- Hardware reset (R340, R341): the registers at their reset values, every byte and word of the memories unspecified.
The parameters and the host's later actions stay (log 13). -/
def hardwareReset (s : State) : State :=
  { resetRegisters s with
    buf := s.buf.forget 0 s.fresh
    src := s.src.forget 0 s.fresh
    dst := s.dst.forget 0 s.fresh
    fresh := s.fresh + 1 }

/-- One action of the host (R70), or hardware reset. An index outside a memory names nothing (R60, log 6). -/
def hostAction (e : HostEvent) (s : State) : Host.Outcome State Fault Refusal :=
  match e with
  | .writeReg num v => if num = 0 then commandWrite (v.setWidth 32) s else .next (writeRegister num v s)
  | .readReg num => .next { s with readData := readRegister num s }
  | .writeBuf i b =>
    if i < s.cfg.bufCap then .next { s with buf := s.buf.setByte i b } else .fault .noSuchBufByte
  | .readBuf i =>
    if i < s.cfg.bufCap then .next { s with readData := (s.buf.byte i).setWidth 64 } else .fault .noSuchBufByte
  | .writeSrc i w => if i < s.cfg.vcap then .next { s with src := s.src.write i w } else .fault .noSuchSrcWord
  | .readSrc i => if i < s.cfg.vcap then .next { s with readData := s.srcAt i } else .fault .noSuchSrcWord
  | .writeDst i w => if i < s.cfg.vcap then .next { s with dst := s.dst.write i w } else .fault .noSuchDstWord
  | .readDst i => if i < s.cfg.vcap then .next { s with readData := s.dstAt i } else .fault .noSuchDstWord
  | .hwReset => .next (hardwareReset s)

/-- The next event of the one stream of events (R71): the oldest waiting action of the host. With none waiting the block
is idle and nothing changes (R340, log 4). -/
def nextEvent (s : State) : Host.Outcome State Fault Refusal :=
  match s.inputs with
  | [] => .next s
  | e :: rest => hostAction e { s with inputs := rest }

/-- The host's next action is the write of this word to `CMD`. -/
def issueWord (w : CmdWord) (s : State) : State :=
  { s with inputs := .writeReg 0 (w.setWidth 64) :: s.inputs }

end Sys2Proof.Machine
end

