-- ==== Sys2Proof/Machine/Step.lean ====
section
/-! DEFINITION. One step of the machine: the next event of the host's stream (R71). The block fetches nothing (R39, R73):
a command comes as the host's write of `CMD`. -/

namespace Sys2Proof.Machine

/-- One step: one event. -/
def step (s : State) : Host.Outcome State Fault Refusal := nextEvent s

/-- `s` with the word in the `nbits` bits of `w` about to be written to `CMD`: the very next step runs it (log 4). -/
def State.withFetchWord (s : State) (nbits w : Nat) : State := issueWord (BitVec.ofNat 32 (w % 2 ^ nbits)) s

end Sys2Proof.Machine
end

