-- ==== Sys2Proof/Safety.lean ====
section
/-! DEFINITION. The terms claims are stated in: the invariants of R37 and of the memories' canonical form, what a body
in `BUF` is, and what a codec command that completes has done. -/

namespace Sys2Proof

/-- The parameters are ones the 32-bit registers can serve (R5, R22, R30, log 10): capacities of at least 1, `8*BUF_CAP`
in `BLEN`, and 64 bits for each word of `SRC` in `SUMBITS`. -/
abbrev Config.wf (c : Config) : Prop :=
  1 ≤ c.bufCap ∧ 8 * c.bufCap < 2 ^ 32 ∧ 1 ≤ c.vcap ∧ 64 * c.vcap < 2 ^ 32

end Sys2Proof

namespace Sys2Proof.Machine

/-- A plane in canonical form: addresses strictly rising, no entry 0. -/
abbrev planeWf (p : List Host.Cell) : Prop :=
  p.Pairwise (fun a b => a.1 < b.1) ∧ ∀ c ∈ p, c.2 ≠ 0

/-- The marks of unspecified cells: indices strictly falling, moments before `fresh`. -/
abbrev staleWf (marks : List (Nat × Nat)) (fresh : Nat) : Prop :=
  marks.Pairwise (fun a b => b.1 < a.1) ∧ ∀ m ∈ marks, m.2 < fresh

/-- `BUF` in canonical form: both planes are, no byte is at or above `cap`, and a bit nothing has specified is 0 in
the plane `cells`. -/
abbrev ByteMemory.wf (m : ByteMemory) (cap fresh : Nat) : Prop :=
  planeWf m.cells ∧ planeWf m.known ∧ (∀ c ∈ m.cells, c.1 < cap) ∧ (∀ c ∈ m.known, c.1 < cap) ∧
    (∀ c ∈ m.cells, c.2 &&& ~~~planeGet m.known c.1 = 0) ∧ staleWf m.stale fresh

/-- `SRC` or `DST` in canonical form: indices strictly rising and below `cap`. -/
abbrev WordMemory.wf (m : WordMemory) (cap fresh : Nat) : Prop :=
  m.cells.Pairwise (fun a b => a.1 < b.1) ∧ (∀ c ∈ m.cells, c.1 < cap) ∧ staleWf m.stale fresh

/-- What holds after reset and after every command and host action: R37, the reserved bits of `STATUS` (R32), and the
memories' canonical form. -/
structure State.Inv (s : State) : Prop where
  /-- The parameters fit the registers. -/
  cfg : s.cfg.wf
  /-- `RPOS <= BLEN` (R37). -/
  rpos_le : s.rpos.toNat ≤ s.blen.toNat
  /-- `BLEN <= 8*BUF_CAP` (R37). -/
  blen_le : s.blen.toNat ≤ s.bufBits
  /-- `SLEN <= VCAP` (R37). -/
  slen_le : s.slen.toNat ≤ s.cfg.vcap
  /-- `DLEN <= VCAP` (R37). -/
  dlen_le : s.dlen.toNat ≤ s.cfg.vcap
  /-- `TAG <= 5` (R37). -/
  tag_le : s.tag.toNat ≤ 5
  /-- `STATUS.ERR <= 5` (R37). -/
  err_le : s.err.toNat ≤ 5
  /-- `STATUS.ERR = 0` implies `STATUS = 0` (R37). -/
  status_zero : s.err = 0 → s.status = 0
  /-- Bits 7:4 and 31:24 of `STATUS` read as 0 (R32). -/
  status_reserved : s.status &&& 0xFF0000F0 = 0
  /-- `NZPAIRS + REPEATS = PAIRS` (R37). -/
  pairs_eq : s.nzpairs.toNat + s.repeats.toNat = s.pairs.toNat
  /-- `BUF` is in canonical form. -/
  buf_wf : s.buf.wf s.cfg.bufCap s.fresh
  /-- `SRC` is in canonical form. -/
  src_wf : s.src.wf s.cfg.vcap s.fresh
  /-- `DST` is in canonical form. -/
  dst_wf : s.dst.wf s.cfg.vcap s.fresh

/-- A safe step: the block goes on. Only a host access outside a memory stops it (R60, log 6). -/
def Safe (o : Host.Outcome State Fault Refusal) : Prop := ∃ t, o = .next t

/-- From read cursor `pos` on, the bits of the stream are `bs`, all of them below `BLEN` (R122, R123). -/
def State.holdsAt (s : State) (pos : Nat) (bs : List Bool) : Prop :=
  pos + bs.length ≤ s.blen.toNat ∧ s.buf.bits pos bs.length = bs

/-- The state holds the body whose data bits are `bits`, byte-aligned by fewer than 8 padding bits of any value, with
`FIRST` and `COUNT` in place (R13, R18). -/
def HoldsBody (u : State) (bits : List Bool) (first : Word) (count : Nat) : Prop :=
  u.blen.toNat = bits.length + (padding bits.length).length ∧ u.buf.bits 0 bits.length = bits ∧
    u.first = first ∧ u.count.toNat = count

/-- What a compress command that completes has done (R13 to R15): the body's bits and zero padding in `BUF`, `RPOS` 0,
`FIRST` and `COUNT` written, and everything else but the unspecified bits of `BUF` as before. That this holds of the words
of `DST` at and above `DLEN` is the model's choice (R17, R60 against U12, D34; log 17). -/
def Compressed (s t : State) (bits : List Bool) : Prop :=
  HoldsBody t bits (s.srcAt 0) s.slen.toNat ∧
    (∀ k, bits.length ≤ k → k < t.blen.toNat → t.buf.bit k = false) ∧
    t = { s with
      buf := t.buf, blen := t.blen, rpos := 0, first := s.srcAt 0, count := s.slen, fresh := t.fresh }

/-- What a decompress command that completes has done (R16 to R18, R75): `items` appended to `DST`, the words before
them kept, `RPOS` at `pos`, and everything else but the unspecified words of `DST` as before. That this holds of the bits of
`BUF` at and above `BLEN` is the model's choice (U11, D34; log 8). -/
def Decompressed (u v : State) (items : List Word) (pos : Nat) : Prop :=
  v.dlen.toNat = u.dlen.toNat + items.length ∧
    (∀ i (h : i < items.length), v.dstAt (u.dlen.toNat + i) = items[i]) ∧
    (∀ i, i < u.dlen.toNat → v.dstAt i = u.dstAt i) ∧ v.rpos.toNat = pos ∧
    v = { u with dst := v.dst, dlen := v.dlen, rpos := v.rpos, fresh := v.fresh }

/-- A pair of codec commands is exact (R154 and its like in the other codecs): the compress command, on any block of
`minN` to `maxN` items whose body fits `BUF`, completes with that body; and the decompress command, on any state that
holds that body, whoever put it there, completes with exactly the block. `body` gives the data bits of the body. -/
def RoundTrips (c d : Instr) (minN maxN : State → Nat) (body : State → List Word → Except Cause (List Bool)) : Prop :=
  ∀ (s : State) (bits : List Bool), s.Inv → minN s ≤ s.slen.toNat → s.slen.toNat ≤ maxN s →
    body s s.srcItems = .ok bits → bits.length ≤ s.bufBits →
      (∃ t, exec c s = .next t ∧ Compressed s t bits) ∧
      ∀ u : State, u.Inv → u.cfg.fpcLog2 = s.cfg.fpcLog2 → HoldsBody u bits (s.srcAt 0) s.slen.toNat →
        u.dlen.toNat + s.slen.toNat ≤ u.cfg.vcap →
          ∃ v, exec d u = .next v ∧ Decompressed u v s.srcItems bits.length

/-- The bits `bs` are appended at `BLEN` (R120, R121): the bits below it and everything but `BUF` and `BLEN` are as before,
and every bit at and above the new `BLEN` is unspecified, a free value of this moment (R354, U11, log 8). That the words of
`DST` at and above `DLEN` are as before is the model's choice (log 17). -/
def Appended (s t : State) (bs : List Bool) : Prop :=
  t.blen.toNat = s.blen.toNat + bs.length ∧
    (∀ j (h : j < bs.length), t.buf.bit (s.blen.toNat + j) = bs[j]) ∧
    (∀ k, k < s.blen.toNat → t.buf.bit k = s.buf.bit k) ∧
    (∀ k, s.blen.toNat + bs.length ≤ k → t.buf.bit k = Config.freeBit s.fresh k) ∧
    t = { s with buf := t.buf, blen := t.blen, fresh := t.fresh }

/-- A primitive command of opcode `opc` raised `c` (R304, R305): `STATUS` records it, every meaningful bit of `BUF` and
everything else is as before. -/
def PrimitiveFailed (s t : State) (c : Cause) (opc : BitVec 8) : Prop :=
  t.status = statusWord c opc ∧ (∀ k, k < s.blen.toNat → t.buf.bit k = s.buf.bit k) ∧
    t = { s with status := t.status, buf := t.buf, fresh := t.fresh }

/-- A compress command of opcode `opc` raised `c` (R304, R306): `STATUS` records it, the stream is empty, and everything
but the bytes of `BUF` is as before. -/
def CompressFailed (s t : State) (c : Cause) (opc : BitVec 8) : Prop :=
  t.status = statusWord c opc ∧
    t = { s with status := t.status, blen := 0, rpos := 0, buf := t.buf, fresh := t.fresh }

/-- A decompress command of opcode `opc` raised `c` (R304, R307): `STATUS` records it, `RPOS` is 0, the prefix of `DST` and
everything but the words of `DST` at and above `DLEN` is as before. -/
def DecompressFailed (s t : State) (c : Cause) (opc : BitVec 8) : Prop :=
  t.status = statusWord c opc ∧ (∀ i, i < s.dlen.toNat → t.dstAt i = s.dstAt i) ∧
    t = { s with status := t.status, rpos := 0, dst := t.dst, fresh := t.fresh }

/-- The state holds a body of data bits `bits` that lost its last byte (R135). -/
def HoldsCut (u : State) (bits : List Bool) (first : Word) (count : Nat) : Prop :=
  u.blen.toNat + 8 = bits.length + (padding bits.length).length ∧
    u.buf.bits 0 u.blen.toNat = bits.take u.blen.toNat ∧ u.first = first ∧ u.count.toNat = count

/-- The state holds a body of data bits `bits` with one whole byte more after it (R18). -/
def HoldsExtra (u : State) (bits : List Bool) (first : Word) (count : Nat) : Prop :=
  u.blen.toNat = bits.length + (padding bits.length).length + 8 ∧ u.buf.bits 0 bits.length = bits ∧
    u.first = first ∧ u.count.toNat = count

/-- `DecompressBegin` lets the command begin (R16). -/
def ReadyToDecode (u : State) : Prop :=
  u.blen.toNat % 8 = 0 ∧ u.count ≠ 0 ∧ u.dlen.toNat + u.count.toNat ≤ u.cfg.vcap

/-- A decompress command given a body cut short by its last byte raises one of the causes `cs` (R135, R243, R255), on
any block of `minN` to `maxN` items whose body fits `BUF`. -/
def RefusesCut (d : Instr) (minN maxN : State → Nat) (body : State → List Word → Except Cause (List Bool))
    (cs : List Cause) : Prop :=
  ∀ (s u : State) (bits : List Bool), s.Inv → u.Inv → u.cfg.fpcLog2 = s.cfg.fpcLog2 → minN s ≤ s.slen.toNat →
    s.slen.toNat ≤ maxN s → body s s.srcItems = .ok bits → bits ≠ [] → bits.length ≤ s.bufBits →
      HoldsCut u bits (s.srcAt 0) s.slen.toNat → u.dlen.toNat + s.slen.toNat ≤ u.cfg.vcap →
        ∃ v c, exec d u = .next v ∧ c ∈ cs ∧ DecompressFailed u v c d.opc

/-- A decompress command given a body followed by one whole byte more raises `cause` (R18), which may depend on that last
byte, on any block of `minN` to `maxN` items. -/
def RefusesExtra (d : Instr) (minN maxN : State → Nat) (body : State → List Word → Except Cause (List Bool))
    (cause : Byte → Cause) : Prop :=
  ∀ (s u : State) (bits : List Bool), s.Inv → u.Inv → u.cfg.fpcLog2 = s.cfg.fpcLog2 → minN s ≤ s.slen.toNat →
    s.slen.toNat ≤ maxN s → body s s.srcItems = .ok bits →
      HoldsExtra u bits (s.srcAt 0) s.slen.toNat → u.dlen.toNat + s.slen.toNat ≤ u.cfg.vcap →
        ∃ v, exec d u = .next v ∧ DecompressFailed u v (cause (u.buf.byte (u.blen.toNat / 8 - 1))) d.opc

/-- The stream is exactly these bits. -/
def HoldsExactly (u : State) (bits : List Bool) : Prop :=
  u.blen.toNat = bits.length ∧ u.buf.bits 0 bits.length = bits

/-- A decompress command raises this cause. -/
def Fails (d : Instr) (u : State) (c : Cause) : Prop := ∃ t, exec d u = .next t ∧ DecompressFailed u t c d.opc

/-! ## The body formats by formula

Written from the format rules alone, so that a statement can hold the encoders and decoders against them. `v k` is item
`k` of the block; item `k + 1` is coded by record `k` where the body begins with the first value. -/

/-- The `n` low bits of a number, most significant first (R62). -/
def numBits (v n : Nat) : List Bool := (List.range n).map fun j => v.testBit (n - 1 - j)

/-- The first value in 64 bits, the count in 14 (R142, R171, R201). -/
def framingBits (v0 : Word) (n : Nat) : List Bool := numBits v0.toNat 64 ++ numBits n 14

/-- A layout of the Gorilla family: the width of the leading-zero field, the field sent for a number of leading zeros, the
number a field stands for, and whether the reuse decision is the combined one (R141, R144). -/
structure GorillaFormat where
  lw : Nat
  field : Nat → Nat
  lead : Nat → Nat
  combined : Bool

/-- The rows of R141 and R144: layouts `G`, `Z` and `P`. -/
def formatG : GorillaFormat := { lw := 5, field := fun lz => min lz 31, lead := fun f => f, combined := false }

@[inherit_doc formatG]
def formatZ : GorillaFormat := { lw := 3, field := fun lz => min (lz / 8) 7, lead := fun f => 8 * f, combined := false }

@[inherit_doc formatG]
def formatP : GorillaFormat := { lw := 6, field := fun lz => lz, lead := fun f => f, combined := true }

/-- The window `pl`, `w` is reused for `x` (R145): there is one, every 1 bit of `x` lies inside it, and in the combined
decision it wastes fewer than 12 bits. -/
abbrev GorillaFormat.reuses (fmt : GorillaFormat) (win : Nat × Nat) (x : Word) : Prop :=
  win.2 ≠ 0 ∧ (∀ i, i < 64 → x.getLsbD i = true → 64 - win.1 - win.2 ≤ i ∧ i < 64 - win.1) ∧
    (fmt.combined = true → clz x - win.1 + (ctz x - (64 - win.1 - win.2)) < 12)

/-- The leading zeros sent and the width of a new window for `x` (R142, R144). -/
def GorillaFormat.newWindow (fmt : GorillaFormat) (x : Word) : Nat × Nat :=
  (fmt.lead (fmt.field (clz x)), 64 - fmt.lead (fmt.field (clz x)) - ctz x)

/-- The window after `k` records, its width 0 while there is none (R143). -/
def GorillaFormat.window (fmt : GorillaFormat) (v : Nat → Word) : Nat → Nat × Nat
  | 0 => (0, 0)
  | k + 1 =>
    if v k ^^^ v (k + 1) = 0 ∨ fmt.reuses (fmt.window v k) (v k ^^^ v (k + 1)) then fmt.window v k
    else fmt.newWindow (v k ^^^ v (k + 1))

/-- Record `k` (R142). -/
def GorillaFormat.record (fmt : GorillaFormat) (v : Nat → Word) (k : Nat) : List Bool :=
  let x := v k ^^^ v (k + 1)
  let old := fmt.window v k
  let new := fmt.newWindow x
  if x = 0 then [false]
  else if fmt.reuses old x then [true, false] ++ numBits (x.toNat / 2 ^ (64 - old.1 - old.2)) old.2
  else
    [true, true] ++ numBits (fmt.field (clz x)) fmt.lw ++ numBits (new.2 - 1) 6 ++ numBits (x.toNat / 2 ^ ctz x) new.2

/-- The leading zeros Chimp sends for `x` (R172). -/
def chimpLeading (x : Word) : Nat := 2 * (min (clz x) 15 / 2)

/-- `pL` after `k` records (R172). -/
def chimpKept (v : Nat → Word) : Nat → Option Nat
  | 0 => none
  | k + 1 => if v k ^^^ v (k + 1) = 0 then chimpKept v k else some (chimpLeading (v k ^^^ v (k + 1)))

/-- Record `k` of a Chimp body (R171). -/
def chimpRecord (v : Nat → Word) (k : Nat) : List Bool :=
  let x := v k ^^^ v (k + 1)
  let l := chimpLeading x
  let w := 64 - l - ctz x
  if x = 0 then [false, false]
  else if 6 < ctz x then [false, true] ++ numBits (l / 2) 3 ++ numBits (w - 1) 6 ++ numBits (x.toNat / 2 ^ ctz x) w
  else if chimpKept v k = some l then [true, false] ++ numBits x.toNat (64 - l)
  else [true, true] ++ numBits (l / 2) 3 ++ numBits x.toNat (64 - l)

/-- Table and index of the FCM predictor of `size` entries before item `k` (R186). -/
def fcmBefore (size : Nat) (v : Nat → Word) : Nat → (Nat → Word) × Nat
  | 0 => (fun _ => 0, 0)
  | k + 1 =>
    let p := fcmBefore size v k
    (fun a => if a = p.2 then v k else p.1 a, (p.2 * 64 ^^^ (v k).toNat / 2 ^ 48) % size)

/-- The item before item `k`, 0 before the first: `last` of R187. -/
def itemBefore (v : Nat → Word) (k : Nat) : Word := if k = 0 then 0 else v (k - 1)

/-- Table and index of the DFCM predictor of `size` entries before item `k` (R187). -/
def dfcmBefore (size : Nat) (v : Nat → Word) : Nat → (Nat → Word) × Nat
  | 0 => (fun _ => 0, 0)
  | k + 1 =>
    let p := dfcmBefore size v k
    let d := v k - itemBefore v k
    (fun a => if a = p.2 then d else p.1 a, (p.2 * 4 ^^^ d.toNat / 2 ^ 40) % size)

/-- What the DFCM predictor says of item `k` (R187). -/
def dfcmSays (size : Nat) (v : Nat → Word) (k : Nat) : Word :=
  (dfcmBefore size v k).1 (dfcmBefore size v k).2 + itemBefore v k

/-- Item `k` of an FPC body (R188): a tie goes to FCM. -/
def fpcItem (size : Nat) (v : Nat → Word) (k : Nat) : List Bool :=
  let xf := v k ^^^ (fcmBefore size v k).1 (fcmBefore size v k).2
  let xd := v k ^^^ dfcmSays size v k
  let x := if lzb xf < lzb xd then xd else xf
  let cnt := min (lzb x) 7
  [decide (lzb xf < lzb xd)] ++ numBits cnt 3 ++ numBits x.toNat (8 * (8 - cnt))

/-- Window entry `j` before item `k` (R202): the item `j + 1` places back, 0 where there is none. -/
def windowEntry (v : Nat → Word) (k j : Nat) : Word := if j < k then v (k - 1 - j) else 0

/-- The entry PDFCM chooses for item `k`: the lowest of those whose XOR with it has the most zero bytes (R204). -/
def chosenEntry (v : Nat → Word) (k : Nat) : Nat :=
  ((List.range 8).find? fun j =>
    (List.range 8).all fun i => zb (v k ^^^ windowEntry v k i) ≤ zb (v k ^^^ windowEntry v k j)).getD 0

/-- A trimmed residual (R201): trailing and leading zero bytes skipped, the bytes between; the residual 0 skips 7. -/
def trimmedBits (x : Word) : List Bool :=
  let l := if x = 0 then 7 else lzb x
  let t := if x = 0 then 0 else tzb x
  numBits t 3 ++ numBits l 3 ++ numBits (x.toNat / 2 ^ (8 * t)) (8 * (8 - l - t))

/-- Record `k` of a PDFCM body, for item `k + 1` (R201, R204). -/
def pdfcmRecord (size : Nat) (v : Nat → Word) (k : Nat) : List Bool :=
  let j := chosenEntry v (k + 1)
  let w := windowEntry v (k + 1) j
  let xd := v (k + 1) ^^^ w
  let xp := v (k + 1) ^^^ dfcmSays size v (k + 1)
  if v (k + 1) = v k then [false]
  else if w = v (k + 1) then [true, false, false] ++ numBits j 3
  else if zb xp = 0 ∧ zb xd = 0 then [true, true, true] ++ numBits (v (k + 1)).toNat 64
  else if zb xd ≤ zb xp then [true, false, true] ++ trimmedBits xp
  else [true, true, false] ++ numBits j 3 ++ trimmedBits xd

/-- The code of a nibble (R261). -/
def nibbleCode (q : Nat) : List Bool :=
  if q = 0 then [false] else if q = 1 then [true, false, false, false] else true :: numBits q 4

/-- The sixteen codes of a pattern, most significant nibble first (R260, R262). -/
def patternCodes (x : Word) : List Bool := (List.range 16).flatMap fun k => nibbleCode (x.toNat / 16 ^ (15 - k) % 16)

/-- The pairs of a run-length body (R250). -/
def pairBits (runs : List (Word × Nat)) : List Bool :=
  runs.flatMap fun r => varintBits r.1 ++ varintBits (BitVec.ofNat 64 r.2)

/-- The bits of a run-length body that holds these runs (R250). -/
def rleBits (runs : List (Word × Nat)) : List Bool := varintBits (BitVec.ofNat 64 runs.length) ++ pairBits runs

/-- The items these runs stand for, and how many they are. -/
def runItems (runs : List (Word × Nat)) : List Word := runs.flatMap fun r => List.replicate r.2 r.1

@[inherit_doc runItems]
def runTotal (runs : List (Word × Nat)) : Nat := (runs.map Prod.snd).sum

/-- `RLE.D` takes all these pairs without an error (R252): each run is 1 or more as a signed number, the first is of value
`first`, and `count` items are not made before the last of them. -/
def TakesRuns (first : Word) (count : Nat) (runs : List (Word × Nat)) : Prop :=
  (∀ r ∈ runs, 1 ≤ r.2 ∧ r.2 < 2 ^ 63) ∧ (∀ r, runs.head? = some r → r.1 = first) ∧ runTotal runs.dropLast < count

/-! ## The command set in tables -/

/-- The opcodes of R93. -/
def definedOpcodes : List (BitVec 8) :=
  [0x00, 0x01, 0x02, 0x03, 0x04, 0x05, 0x06, 0x07, 0x10, 0x11, 0x20, 0x21, 0x22, 0x23, 0x24, 0x25, 0x28, 0x29, 0x30, 0x31,
    0x38, 0x39, 0x40, 0x41, 0x42, 0x43, 0x44, 0x45, 0x46, 0x47, 0x48, 0x49, 0x4A, 0x4B, 0x4C, 0x4D, 0x50, 0x51, 0x58, 0x59,
    0x60, 0x61, 0xF0, 0xF1]

/-- The must-be-zero bits of a word, by its opcode's format (R91, R95): all of 23:0, but for the 7 bits of `N` in format N
and the one bit of `b` in format B. -/
def mustBeZero (opc : BitVec 8) : BitVec 32 :=
  if opc = 0x03 ∨ opc = 0x07 then 0x00FFFF80 else if opc = 0x02 then 0x00FFFFFE else 0x00FFFFFF

/-- The `.D` commands with a bit-packed body (R18). -/
def bitDecoders : List Instr := [.gorillaD, .gorillazD, .gorillaplusD, .chimpD, .fpcD, .pdfcmD, .huffD]

/-- The `.D` commands whose body is a stream of varints. -/
def byteDecoders : List Instr := [.deltaD, .delta2D, .xordeltaD, .deltaxorD, .plainD, .deltaconstD, .rleD]

/-- Every decompress command (R93). -/
def decompressCommands : List Instr := bitDecoders ++ byteDecoders ++ [.constD]

/-- The compress commands whose count header is of 14 bits, and `HUFF.C`, of 16 bits (R302, `TOO_MANY`). -/
def countedEncoders : List Instr := [.gorillaC, .gorillazC, .gorillaplusC, .chimpC, .fpcC, .pdfcmC, .huffC]

/-- The compress commands whose body has no count header. -/
def streamEncoders : List Instr := [.deltaC, .delta2C, .xordeltaC, .deltaxorC, .plainC, .deltaconstC, .rleC]

/-- Every compress command (R93). -/
def compressCommands : List Instr := countedEncoders ++ streamEncoders ++ [.constC]

/-- `minN` of a compress command (R14). -/
def minItems (i : Instr) : Nat := if i = .deltaconstC then 2 else 1

/-- `maxN` of a compress command (R14): what the count header can hold, `VCAP` where the body has none. -/
def maxItems (i : Instr) (vcap : Nat) : Nat :=
  if i = .huffC then 65535 else if i ∈ countedEncoders then 16383 else vcap

/-- The table of R302: may this command raise this cause? -/
def raisedBy (c : Cause) (i : Instr) : Prop :=
  match c with
  | .eosBits => i = .readbit ∨ (∃ n, i = .readbits n) ∨ i ∈ bitDecoders
  | .eosVarint => i = .varget ∨ i ∈ byteDecoders
  | .eosItems => i ∈ byteDecoders
  | .window => i ∈ [Instr.gorillaD, .gorillazD, .gorillaplusD, .chimpD, .pdfcmD]
  | .oddPairs => i = .rleD
  | .tail => i ∈ decompressCommands
  | .countMismatch => i ∈ bitDecoders ∨ i = .rleD
  | .firstMismatch => i ∈ bitDecoders ∨ i = .rleD
  | .varintOverflow => i = .varget ∨ i ∈ byteDecoders
  | .badRun => i = .rleD
  | .nbits => (∃ n, i = .appendbits n) ∨ ∃ n, i = .readbits n
  | .tooFew => i ∈ compressCommands ∨ i ∈ decompressCommands
  | .tooMany => i ∈ countedEncoders
  | .notConst => i = .constC ∨ i = .deltaconstC
  | .unaligned => i = .varput ∨ i = .varget ∨ i ∈ decompressCommands
  | .illegalOpcode => False
  | .illegalField => False
  | .overflowBuf => (∃ b, i = .appendbit b) ∨ (∃ n, i = .appendbits n) ∨ i = .varput ∨ i ∈ countedEncoders ∨ i ∈ streamEncoders
  | .overflowDst => i ∈ decompressCommands

/-! ## Sequences of commands -/

/-- Put after put: each group's value written to `VAL`, then `APPENDBITS` of its width (R134). -/
def putAll : List (Word × Nat) → State → Host.Outcome State Fault Refusal
  | [], s => .next s
  | (v, n) :: rest, s =>
    match exec (.appendbits n) { s with val := v } with
    | .next t => putAll rest t
    | .fault r => .fault r
    | .refused r => .refused r

/-- Get after get: `READBITS` of each width completes, the values read are `ws`, and the last state is `t` (R134). -/
def GetAll : List Nat → List Word → State → State → Prop
  | [], ws, s, t => ws = [] ∧ t = s
  | n :: ns, ws, s, t =>
    ∃ w rest m, ws = w :: rest ∧ exec (.readbits n) s = .next m ∧ m.val = w ∧ m.status = s.status ∧ GetAll ns rest m t

end Sys2Proof.Machine
end

