-- ==== Sys2Proof/Certificates/Slice0/Obligations.lean ====
section
/-! DEFINITION. The statements for the provers, from the numbered rules of spec/. -/

open Sys2Proof Sys2Proof.Machine

/-! ## Encoding -/

/-- Words written out from the opcode map decode to the commands they stand for, one or more of each family (R93). -/
def Obligations.DecodeKnownWords : Prop :=
  decode 0x00000000#32 = .ok .nop ∧ decode 0x02000001#32 = .ok (.appendbit true) ∧
    decode 0x03000040#32 = .ok (.appendbits 64) ∧ decode 0x0700007F#32 = .ok (.readbits 127) ∧
    decode 0x11000000#32 = .ok .varget ∧ decode 0x25000000#32 = .ok .gorillaplusD ∧
    decode 0x28000000#32 = .ok .chimpC ∧ decode 0x31000000#32 = .ok .fpcD ∧ decode 0x38000000#32 = .ok .pdfcmC ∧
    decode 0x43000000#32 = .ok .delta2D ∧ decode 0x4C000000#32 = .ok .deltaconstC ∧ decode 0x51000000#32 = .ok .rleD ∧
    decode 0x58000000#32 = .ok .huffC ∧ decode 0x61000000#32 = .ok .classify ∧ decode 0xF1000000#32 = .ok .sreset

/-- Decoding the word of a well-formed command gives the command back, with every operand its field admits (R91 to R93). -/
def Obligations.DecodeEncode : Prop := ∀ i : Instr, i.wellFormed = true → decode (encode i) = .ok i

/-- The decoder is exact: a word decodes to a command only if the command is well formed and this is its word, and every
other word is illegal, by its opcode or by a must-be-zero bit (R94, R95, R97). -/
def Obligations.DecodeExactly : Prop :=
  ∀ w : CmdWord,
    (∀ i : Instr, decode w = .ok i ↔ i.wellFormed = true ∧ encode i = w) ∧
    (decode w = .error .opcode ↔ opcField w ∉ definedOpcodes) ∧
    (decode w = .error .field ↔ opcField w ∈ definedOpcodes ∧ w &&& mustBeZero (opcField w) ≠ 0)

/-! ## The CMD write, errors and the faulted state -/

/-- The four steps of a `CMD` write, in their order (R102), with what an illegal word does (R94, R95). -/
def Obligations.CommandWriteOrder : Prop :=
  ∀ (w : CmdWord) (s : State),
    (s.err ≠ 0 → opcField w ≠ 0xF0 → opcField w ≠ 0xF1 → commandWrite w s = .next s) ∧
    (s.err = 0 ∨ opcField w = 0xF0 ∨ opcField w = 0xF1 →
      (opcField w ∉ definedOpcodes →
        commandWrite w s = .next { s with status := statusWord .illegalOpcode (opcField w) }) ∧
      (opcField w ∈ definedOpcodes → w &&& mustBeZero (opcField w) ≠ 0 →
        commandWrite w s = .next { s with status := statusWord .illegalField (opcField w) }) ∧
      (opcField w ∈ definedOpcodes → w &&& mustBeZero (opcField w) = 0 →
        ∃ i, decode w = .ok i ∧ commandWrite w s = exec i s))

/-- While the block is faulted a command word that is not `CLRERR`'s or `SRESET`'s is discarded, and the host's register
and memory accesses do what they do when it is not faulted (R308, R36). -/
def Obligations.FaultedDiscards : Prop :=
  (∀ (s : State) (v : Word), s.err ≠ 0 → opcField (v.setWidth 32) ≠ 0xF0 → opcField (v.setWidth 32) ≠ 0xF1 →
    hostAction (.writeReg 0 v) s = .next s) ∧
  ∀ (s t : State) (e : HostEvent) (x : BitVec 32), (∀ v, e ≠ .writeReg 0 v) → e ≠ .readReg 1 → e ≠ .hwReset →
    hostAction e s = .next t → hostAction e { s with status := x } = .next { t with status := x }

/-- A step runs the decoded command: when the host's next action writes to `CMD` a word that decodes to `i` and passes
the gate, step is exec of `i`, the action taken off the list; and that is how `withFetchWord` runs a word (R71, R102). -/
def Obligations.StepRunsCommand : Prop :=
  ∀ (s : State) (w : CmdWord) (i : Instr), decode w = .ok i →
    s.err = 0 ∨ opcField w = 0xF0 ∨ opcField w = 0xF1 →
      step (s.withFetchWord 32 w.toNat) = exec i s ∧
      ∀ (v : Word) (rest : List HostEvent), s.inputs = .writeReg 0 v :: rest → v.setWidth 32 = w →
        step s = exec i { s with inputs := rest }

/-- What an error records, in the bits of `STATUS`: the class and sub-code of every cause, the opcode, zeros elsewhere; a
raise leaves the block faulted whatever is rolled back (R32, R301, R302, R304). -/
def Obligations.RaiseRecords : Prop :=
  ∀ (opc : BitVec 8) (s : State) (kind : CommandKind) (c : Cause),
    ((raise kind c opc s).status = statusWord c opc ∧ (raise kind c opc s).err ≠ 0 ∧
      (raise kind c opc s).eopc = opc ∧ (raise kind c opc s).sub = BitVec.ofNat 8 c.sub ∧
      statusWord c opc &&& 0xFF0000F0 = 0) ∧
    statusWord c opc = opc.setWidth 32 <<< 16 |||
      (match c with
      | .eosBits => 0x0101 | .eosVarint => 0x0201 | .eosItems => 0x0301
      | .window => 0x0102 | .oddPairs => 0x0202 | .tail => 0x0302 | .countMismatch => 0x0402
      | .firstMismatch => 0x0502 | .varintOverflow => 0x0602 | .badRun => 0x0702
      | .nbits => 0x0103 | .tooFew => 0x0203 | .tooMany => 0x0303 | .notConst => 0x0403 | .unaligned => 0x0503
      | .illegalOpcode => 0x0104 | .illegalField => 0x0204
      | .overflowBuf => 0x0105 | .overflowDst => 0x0205)

/-- From every state the word of `CLRERR` clears the fault; a `CLRERR` or `SRESET` word with a non-zero must-be-zero bit
passes the gate and replaces the record (R309, R312). -/
def Obligations.ClrerrUnfaults : Prop :=
  ∀ s : State,
    (∃ t, commandWrite 0xF0000000#32 s = .next t ∧ t.faulted = false ∧ t = { s with status := 0 }) ∧
    ∀ w : CmdWord, opcField w = 0xF0 ∨ opcField w = 0xF1 → w.extractLsb' 0 24 ≠ 0 →
      ∃ t, commandWrite w s = .next t ∧ t.faulted = true ∧
        t = { s with status := statusWord .illegalField (opcField w) }

/-- Every error a command records is one the table of R302 lets that command raise. -/
def Obligations.ErrorsOnlyByTable : Prop :=
  ∀ (i : Instr) (s t : State), s.Inv → exec i s = .next t →
    t.status = s.status ∨ (t.status = 0 ∧ (i = .clrerr ∨ i = .sreset)) ∨
      ∃ c, raisedBy c i ∧ t.status = statusWord c i.opc

/-! ## Reset, the invariant, whole-machine rules -/

/-- Hardware reset: every register 0, not faulted, the first command executes, and every bit and word of the memories is
a free value of that moment (R340; that "unspecified" is a free value is logs 2 and 3). -/
def Obligations.ResetValues : Prop :=
  ∀ s : State, ∃ t, hostAction .hwReset s = .next t ∧
    (t.status = 0 ∧ t.val = 0 ∧ t.first = 0 ∧ t.count = 0 ∧ t.slen = 0 ∧ t.dlen = 0 ∧ t.blen = 0 ∧ t.rpos = 0 ∧
      readRegister 0x06 t = 0 ∧ t.tag = 0 ∧ t.sumbits = 0 ∧ t.nzpairs = 0 ∧ t.repeats = 0 ∧ t.pairs = 0 ∧
      t.statf = false) ∧
    (∀ k, t.buf.bit k = Config.freeBit s.fresh k) ∧ (∀ k, t.srcAt k = Config.freeSrc s.fresh k) ∧
    (∀ k, t.dstAt k = Config.freeDst s.fresh k) ∧
    ∀ (w : CmdWord) (i : Instr), decode w = .ok i → commandWrite w t = exec i t

/-- The invariant is true after reset and preserved by every command word and every host access, so by every step
(R37). -/
def Obligations.StepKeepsInv : Prop :=
  State.reset.Inv ∧ (∀ s t : State, s.Inv → step s = .next t → t.Inv) ∧
    (∀ (s t : State) (w : CmdWord), s.Inv → commandWrite w s = .next t → t.Inv) ∧
    ∀ (s t : State) (e : HostEvent), s.Inv → hostAction e s = .next t → t.Inv

/-- Every command ends in a next state: it terminates, and no operand stops the model (R360). -/
def Obligations.CommandsAreSafe : Prop := ∀ (i : Instr) (s : State), Safe (exec i s)

/-- Which commands write a register: each register keeps its value under every other command (R22 to R31). The memory `SRC`
too keeps its words under every command (R24) and `DST` under all but decompress commands (R17, R60); that this holds of the
words of `DST` at and above `DLEN`, which U12 and D34 leave open, is the model's choice, log 17. -/
def Obligations.RegistersKept : Prop :=
  ∀ (i : Instr) (s t : State), exec i s = .next t → i ≠ .sreset →
    t.cfg = s.cfg ∧ t.src = s.src ∧ t.slen = s.slen ∧ t.inputs = s.inputs ∧ t.readData = s.readData ∧
    (i ≠ .readbit → (∀ n, i ≠ .readbits n) → i ≠ .varget → t.val = s.val) ∧
    (i ∉ compressCommands → t.first = s.first ∧ t.count = s.count) ∧
    (i ∉ decompressCommands → t.dlen = s.dlen ∧ t.dst = s.dst) ∧
    (i ≠ .classify → t.tag = s.tag) ∧
    (i ≠ .classify → i ≠ .stats →
      t.sumbits = s.sumbits ∧ t.nzpairs = s.nzpairs ∧ t.repeats = s.repeats ∧ t.pairs = s.pairs ∧ t.statf = s.statf) ∧
    (i ∉ compressCommands → i ≠ .bsreset → i ≠ .finish → i ≠ .varput → (∀ b, i ≠ .appendbit b) →
      (∀ n, i ≠ .appendbits n) → t.blen = s.blen) ∧
    (i ∉ compressCommands → i ∉ decompressCommands → i ≠ .bsreset → i ≠ .rewind → i ≠ .readbit →
      (∀ n, i ≠ .readbits n) → i ≠ .varget → t.rpos = s.rpos)

/-- No command but a compress command and `BSRESET`, which discard the stream, changes a meaningful bit of `BUF`, and no
command changes a word of `DST` below the `DLEN` it starts with, whether it completes or raises (R17, R21, R75, R305, R307,
R353). -/
def Obligations.MemoriesKept : Prop :=
  ∀ (i : Instr) (s t : State), s.Inv → exec i s = .next t →
    (i ∉ compressCommands → i ≠ .bsreset → ∀ k, k < s.blen.toNat → t.buf.bit k = s.buf.bit k) ∧
    ∀ j, j < s.dlen.toNat → t.dstAt j = s.dstAt j

/-! ## Stream and control commands -/

/-- `NOP`, `BSRESET` and `REWIND`, with their words (R125, R126, R130). `BSRESET` changes nothing on an already empty stream
(R126); that it leaves every bit of `BUF` unspecified, a free value of this moment, where it discards a stream is the
model's choice, log 8, by U11 and D34. That `REWIND` keeps the bits of `BUF` at and above `BLEN` (log 8), and `BSRESET` and
`REWIND` the words of `DST` at and above `DLEN` (log 17), is too. -/
def Obligations.StreamControl : Prop :=
  ∀ s : State,
    (exec .nop s = .next s ∧ commandWrite 0x00000000#32 s = .next s) ∧
    (∃ t, exec .bsreset s = .next t ∧ (s.err = 0 → commandWrite 0x01000000#32 s = .next t) ∧
      t = { s with blen := 0, rpos := 0, buf := t.buf, fresh := t.fresh } ∧
      (s.blen = 0 → t = { s with rpos := 0 }) ∧ (s.blen = 0 → s.rpos = 0 → t = s) ∧
      (s.blen ≠ 0 → ∀ k, t.buf.bit k = Config.freeBit s.fresh k)) ∧
    (exec .rewind s = .next { s with rpos := 0 } ∧
      (s.err = 0 → commandWrite 0x05000000#32 s = .next { s with rpos := 0 }))

/-- `CLRERR` and `SRESET`, with their words, faulted or not (R309, R342): the memories keep their content. -/
def Obligations.ControlCommands : Prop :=
  ∀ s : State,
    (exec .clrerr s = .next { s with status := 0 } ∧ commandWrite 0xF0000000#32 s = .next { s with status := 0 }) ∧
    ∃ t, exec .sreset s = .next t ∧ commandWrite 0xF1000000#32 s = .next t ∧ t = { s with
      status := 0, val := 0, first := 0, count := 0, blen := 0, rpos := 0, slen := 0, dlen := 0, tag := 0
      statf := false, sumbits := 0, nzpairs := 0, repeats := 0, pairs := 0 }

/-- `APPENDBIT b` appends its bit (R120, R127): no bit below `BLEN` changes. That the bits at and above the new `BLEN` are
then free values (R21, R354, U11), where R120 says that `PutBit` changes no other bit, is the model's choice, log 8; that
`DST` keeps its words at and above `DLEN` is too, log 17. -/
def Obligations.AppendBit : Prop :=
  ∀ (s : State) (b : Bool), s.cfg.wf → s.blen.toNat + 1 ≤ s.bufBits →
    ∃ t, exec (.appendbit b) s = .next t ∧ Appended s t [b]

/-- `APPENDBITS n` appends the `n` low bits of `VAL`, the most significant of them first (R121, R128). That the bits at and
above the new `BLEN` are then free values is the model's choice, log 8; that `DST` keeps its words at and above `DLEN` is
too, log 17. -/
def Obligations.AppendBits : Prop :=
  ∀ (s : State) (n : Nat), s.cfg.wf → 1 ≤ n → n ≤ 64 → s.blen.toNat + n ≤ s.bufBits →
    ∃ t, exec (.appendbits n) s = .next t ∧ Appended s t ((List.range n).map fun j => s.val.getLsbD (n - 1 - j))

/-- `FINISH` changes nothing at a byte boundary, else pads with zero bits to one, and a second `FINISH` changes nothing
(R124, R129, R354). That the bits at and above the new `BLEN` are free values where it pads is the model's choice, log 8;
that `DST` keeps its words at and above `DLEN` is too, log 17. -/
def Obligations.FinishPads : Prop :=
  ∀ s : State, s.Inv →
    ∃ t, exec .finish s = .next t ∧ (s.blen.toNat % 8 = 0 → t = s) ∧
      (s.blen.toNat % 8 ≠ 0 → Appended s t (List.replicate (8 - s.blen.toNat % 8) false)) ∧
      t.blen.toNat % 8 = 0 ∧ exec .finish t = .next t

/-- `READBIT` reads one bit into `VAL` and moves on; `READBITS n` reads `n` bits into `VAL`, first bit most significant,
zero-extended (R122, R123, R131, R132). Nothing else changes: of the bits of `BUF` at and above `BLEN` (U11, log 8) and the
words of `DST` at and above `DLEN` (U12, log 17), which D34 leaves open, that is the model's choice. -/
def Obligations.ReadBits : Prop :=
  (∀ s : State, s.rpos.toNat + 1 ≤ s.blen.toNat →
    exec .readbit s = .next { s with val := if s.buf.bit s.rpos.toNat then 1 else 0, rpos := s.rpos + 1 }) ∧
  ∀ (s : State) (n : Nat), 1 ≤ n → n ≤ 64 → s.rpos.toNat + n ≤ s.blen.toNat →
    ∃ t, exec (.readbits n) s = .next t ∧ t = { s with val := t.val, rpos := t.rpos } ∧
      t.rpos.toNat = s.rpos.toNat + n ∧
      (∀ j, j < n → t.val.getLsbD (n - 1 - j) = s.buf.bit (s.rpos.toNat + j)) ∧
      ∀ j, n ≤ j → t.val.getLsbD j = false

/-- Each primitive command raises where its rule says, and nothing but `STATUS` and bits of `BUF` at and above `BLEN` changes
(R127, R128, R131, R132, R287 to R289, R291, R305). `VARGET` raises off a byte boundary; where the stream ends before a last
byte; on a tenth byte above 1. -/
def Obligations.PrimitiveErrors : Prop :=
  ∀ s : State,
    (∀ b, s.bufBits < s.blen.toNat + 1 →
      ∃ t, exec (.appendbit b) s = .next t ∧ PrimitiveFailed s t .overflowBuf 0x02) ∧
    (∀ n, n < 1 ∨ 64 < n → ∃ t, exec (.appendbits n) s = .next t ∧ PrimitiveFailed s t .nbits 0x03) ∧
    (∀ n, 1 ≤ n → n ≤ 64 → s.bufBits < s.blen.toNat + n →
      ∃ t, exec (.appendbits n) s = .next t ∧ PrimitiveFailed s t .overflowBuf 0x03) ∧
    (s.blen.toNat < s.rpos.toNat + 1 → ∃ t, exec .readbit s = .next t ∧ PrimitiveFailed s t .eosBits 0x06) ∧
    (∀ n, n < 1 ∨ 64 < n → ∃ t, exec (.readbits n) s = .next t ∧ PrimitiveFailed s t .nbits 0x07) ∧
    (∀ n, 1 ≤ n → n ≤ 64 → s.blen.toNat < s.rpos.toNat + n →
      ∃ t, exec (.readbits n) s = .next t ∧ PrimitiveFailed s t .eosBits 0x07) ∧
    (s.blen.toNat % 8 ≠ 0 → ∃ t, exec .varput s = .next t ∧ PrimitiveFailed s t .unaligned 0x10) ∧
    (s.blen.toNat % 8 = 0 → s.bufBits < s.blen.toNat + 8 * (varintBytes s.val).length →
      ∃ t, exec .varput s = .next t ∧ PrimitiveFailed s t .overflowBuf 0x10) ∧
    (s.rpos.toNat % 8 ≠ 0 → ∃ t, exec .varget s = .next t ∧ PrimitiveFailed s t .unaligned 0x11) ∧
    (s.rpos.toNat % 8 = 0 → (s.blen.toNat - s.rpos.toNat) / 8 < 10 →
      (∀ j, j < (s.blen.toNat - s.rpos.toNat) / 8 → 128 ≤ (s.buf.byte (s.rpos.toNat / 8 + j)).toNat) →
        ∃ t, exec .varget s = .next t ∧ PrimitiveFailed s t .eosVarint 0x11) ∧
    (s.rpos.toNat % 8 = 0 → 10 ≤ (s.blen.toNat - s.rpos.toNat) / 8 →
      (∀ j, j < 9 → 128 ≤ (s.buf.byte (s.rpos.toNat / 8 + j)).toNat) →
      1 < (s.buf.byte (s.rpos.toNat / 8 + 9)).toNat →
        ∃ t, exec .varget s = .next t ∧ PrimitiveFailed s t .varintOverflow 0x11)

/-- Groups put one after another into an empty stream are got back by reads of the same widths, before and after a
`FINISH` (R134). -/
def Obligations.PutGetRoundTrip : Prop :=
  ∀ (s : State) (gs : List (Word × Nat)), s.Inv → s.blen = 0 → (∀ g ∈ gs, 1 ≤ g.2 ∧ g.2 ≤ 64) →
    (gs.map Prod.snd).sum ≤ s.bufBits →
      ∃ t f u v, putAll gs s = .next t ∧ t.blen.toNat = (gs.map Prod.snd).sum ∧ exec .finish t = .next f ∧
        f.blen.toNat = (gs.map Prod.snd).sum + (8 - (gs.map Prod.snd).sum % 8) % 8 ∧
        GetAll (gs.map Prod.snd) (gs.map fun g => BitVec.ofNat 64 (g.1.toNat % 2 ^ g.2)) { t with rpos := 0 } u ∧
        u.rpos = t.blen ∧
        GetAll (gs.map Prod.snd) (gs.map fun g => BitVec.ofNat 64 (g.1.toNat % 2 ^ g.2)) { f with rpos := 0 } v ∧
        v.rpos = t.blen

/-- A group of `8 m` bits appended at a byte boundary stands in `BUF` as `m` bytes, most significant first (R61, R62). -/
def Obligations.BigEndianGroups : Prop :=
  ∀ (s : State) (m : Nat), s.cfg.wf → 1 ≤ m → m ≤ 8 → s.blen.toNat % 8 = 0 → s.blen.toNat + 8 * m ≤ s.bufBits →
    ∃ t, exec (.appendbits (8 * m)) s = .next t ∧
      ∀ i, i < m → t.buf.byte (s.blen.toNat / 8 + i) = (s.val >>> (8 * (m - 1 - i))).setWidth 8

/-! ## Varints -/

/-- The varint format (R285, R286): zig-zag of the signed value, 7-bit groups with the least significant first, every
byte but the last with bit 7 set, the shortest form; and un-zig-zag takes zig-zag back. -/
def Obligations.VarintFormat : Prop :=
  ∀ v : Word,
    ((zigZag v).toNat : Int) = (if 0 ≤ v.toInt then 2 * v.toInt else -2 * v.toInt - 1) ∧ unZigZag (zigZag v) = v ∧
    1 ≤ (varintBytes v).length ∧ (varintBytes v).length ≤ 10 ∧
    (varintBytes v).foldr (fun b acc => b.toNat % 128 + 128 * acc) 0 = (zigZag v).toNat ∧
    (∀ j (h : j < (varintBytes v).length), 128 ≤ (varintBytes v)[j].toNat ↔ j + 1 < (varintBytes v).length) ∧
    (zigZag v).toNat < 2 ^ (7 * (varintBytes v).length) ∧
    (1 < (varintBytes v).length → 2 ^ (7 * ((varintBytes v).length - 1)) ≤ (zigZag v).toNat)

/-- `VARPUT` appends the bytes of `VAL`'s varint (R288, R290). That the bits at and above the new `BLEN` are then free
values is the model's choice, log 8; that `DST` keeps its words at and above `DLEN` is too, log 17. -/
def Obligations.VarPut : Prop :=
  ∀ s : State, s.cfg.wf → s.blen.toNat % 8 = 0 → s.blen.toNat + 8 * (varintBytes s.val).length ≤ s.bufBits →
    ∃ t, exec .varput s = .next t ∧ Appended s t (varintBits s.val) ∧
      ∀ j (h : j < (varintBytes s.val).length), t.buf.byte (s.blen.toNat / 8 + j) = (varintBytes s.val)[j]

/-- `VARGET` reads every byte string that is a varint, the over-long forms too: 1 to 10 bytes, only the last below 128, a
tenth byte of at most 1 (R287, R289, R291). Nothing else changes: of the bits of `BUF` at and above `BLEN` (U11, log 8) and
the words of `DST` at and above `DLEN` (U12, log 17), which D34 leaves open, that is the model's choice. -/
def Obligations.VarGetForms : Prop :=
  ∀ (s : State) (bs : List Byte), s.rpos.toNat % 8 = 0 → 1 ≤ bs.length → bs.length ≤ 10 →
    s.rpos.toNat + 8 * bs.length ≤ s.blen.toNat →
    (∀ j (h : j < bs.length), s.buf.byte (s.rpos.toNat / 8 + j) = bs[j]) →
    (∀ j (h : j < bs.length), 128 ≤ bs[j].toNat ↔ j + 1 < bs.length) → (∀ b, bs[9]? = some b → b.toNat ≤ 1) →
      exec .varget s = .next { s with
        val := unZigZag (BitVec.ofNat 64 (bs.foldr (fun b acc => b.toNat % 128 + 128 * acc) 0))
        rpos := s.rpos + BitVec.ofNat 32 (8 * bs.length) }

/-! ## The host's side -/

/-- The host's memory accesses: a write changes the one byte or word, a read changes nothing and gives what stands there
(R60, R67, R70). An index outside a memory names nothing (R60); that an access to it stops the model is the model's choice,
log 6. -/
def Obligations.HostMemory : Prop :=
  ∀ (s : State) (i : Nat),
    (i < s.cfg.bufCap →
      (∀ b, ∃ t, hostAction (.writeBuf i b) s = .next t ∧ t = { s with buf := t.buf } ∧
        ∀ j, t.buf.byte j = if j = i then b else s.buf.byte j) ∧
      hostAction (.readBuf i) s = .next { s with readData := (s.buf.byte i).setWidth 64 }) ∧
    (i < s.cfg.vcap →
      (∀ w, ∃ t, hostAction (.writeSrc i w) s = .next t ∧ t = { s with src := t.src } ∧
        ∀ j, t.srcAt j = if j = i then w else s.srcAt j) ∧
      (∀ w, ∃ t, hostAction (.writeDst i w) s = .next t ∧ t = { s with dst := t.dst } ∧
        ∀ j, t.dstAt j = if j = i then w else s.dstAt j) ∧
      hostAction (.readSrc i) s = .next { s with readData := s.srcAt i } ∧
      hostAction (.readDst i) s = .next { s with readData := s.dstAt i }) ∧
    (s.cfg.bufCap ≤ i → (∀ b, hostAction (.writeBuf i b) s = .fault .noSuchBufByte) ∧
      hostAction (.readBuf i) s = .fault .noSuchBufByte) ∧
    (s.cfg.vcap ≤ i → (∀ w, hostAction (.writeSrc i w) s = .fault .noSuchSrcWord) ∧
      hostAction (.readSrc i) s = .fault .noSuchSrcWord ∧
      (∀ w, hostAction (.writeDst i w) s = .fault .noSuchDstWord) ∧
      hostAction (.readDst i) s = .fault .noSuchDstWord)

/-- The register map: what a write of each number does and what each number reads as (R34, R35, R36). The model's choices:
that BYTELEN, SLEN and DLEN are compared with their bounds on the low 32 bits of the value written (log 16), that `8 * v` is
cut to 32 bits where BUF_CAP is larger than R22's register admits (log 10), that a write of BYTELEN keeps every bit of `BUF`
(log 8), and that what is read stands in `readData` (log 5). -/
def Obligations.HostRegisters : Prop :=
  ∀ (s : State) (v : Word),
    hostAction (.writeReg 0x02 v) s = .next { s with val := v } ∧
    hostAction (.writeReg 0x03 v) s = .next { s with first := v } ∧
    hostAction (.writeReg 0x04 v) s = .next { s with count := v.setWidth 32 } ∧
    hostAction (.writeReg 0x06 v) s = .next
      (if (v.setWidth 32).toNat ≤ s.cfg.bufCap then { s with blen := 8 * v.setWidth 32, rpos := 0 } else s) ∧
    hostAction (.writeReg 0x08 v) s = .next
      (if (v.setWidth 32).toNat ≤ s.cfg.vcap then { s with slen := v.setWidth 32 } else s) ∧
    hostAction (.writeReg 0x09 v) s = .next
      (if (v.setWidth 32).toNat ≤ s.cfg.vcap then { s with dlen := v.setWidth 32 } else s) ∧
    (∀ n, n ∉ [0x00, 0x02, 0x03, 0x04, 0x06, 0x08, 0x09] → hostAction (.writeReg n v) s = .next s) ∧
    (∀ n, ∃ x : Word, hostAction (.readReg n) s = .next { s with readData := x } ∧ x =
      if n = 0x01 then s.status.setWidth 64 else if n = 0x02 then s.val else if n = 0x03 then s.first
      else if n = 0x04 then s.count.setWidth 64 else if n = 0x05 then s.blen.setWidth 64
      else if n = 0x06 then BitVec.ofNat 64 ((s.blen.toNat + 7) / 8) else if n = 0x07 then s.rpos.setWidth 64
      else if n = 0x08 then s.slen.setWidth 64 else if n = 0x09 then s.dlen.setWidth 64
      else if n = 0x0A then s.tag.setWidth 64 else if n = 0x0B then (if s.statf then 1 else 0)
      else if n = 0x0C then s.sumbits.setWidth 64 else if n = 0x0D then s.nzpairs.setWidth 64
      else if n = 0x0E then s.repeats.setWidth 64 else if n = 0x0F then s.pairs.setWidth 64 else 0)

/-! ## Statistics and the selector -/

/-- `STATS` computes the five results from neighbouring items and writes nothing else (R270, R273). -/
def Obligations.StatsResults : Prop :=
  ∀ s : State, s.Inv →
    ∃ t, exec .stats s = .next t ∧
      t.pairs.toNat = s.slen.toNat - 1 ∧
      t.repeats.toNat = (List.range (s.slen.toNat - 1)).countP (fun i => s.srcAt (i + 1) ^^^ s.srcAt i = 0) ∧
      t.nzpairs.toNat = t.pairs.toNat - t.repeats.toNat ∧
      t.sumbits.toNat = ((List.range (s.slen.toNat - 1)).map fun i =>
        (List.range 64).countP fun j => (s.srcAt (i + 1) ^^^ s.srcAt i).getLsbD j).sum ∧
      t.statf = decide (9 * s.slen.toNat < 10 * t.repeats.toNat) ∧
      t = { s with
        sumbits := t.sumbits, nzpairs := t.nzpairs, repeats := t.repeats, pairs := t.pairs, statf := t.statf }

/-- `CLASSIFY` leaves what `STATS` leaves, and in `TAG` the code the selector's steps give, the first that applies
(R272, R275, R276, R278). -/
def Obligations.ClassifySelects : Prop :=
  ∀ s : State, ∃ u t, exec .stats s = .next u ∧ exec .classify s = .next t ∧ t = { u with tag := t.tag } ∧
    (let den := match s.cfg.statDenom with | .nz => u.nzpairs.toNat | .all => u.pairs.toNat
      t.tag = if s.slen.toNat ≤ 1 then 0 else if s.slen.toNat = 2 then 1 else if u.sumbits = 0 then 0
        else if u.statf then 2 else if u.sumbits.toNat < den then 4 else if 2 * u.sumbits.toNat < 41 * den then 3 else 5)

/-- With `STAT_DENOM = NZ` the mean is never below 1, so `CLASSIFY` never answers `ZSTDNearestDelta2` (R272). -/
def Obligations.NzNeverNearestDelta2 : Prop :=
  ∀ s : State, s.Inv → s.cfg.statDenom = .nz → ∃ t, exec .classify s = .next t ∧ t.tag ≠ 4

/-- The selector guarantees the precondition of the command it names: after tag 0 `CONST.C` completes with an empty body,
and tag 1 comes from a block of two items, whose `DELTACONST.C` completes where a varint fits `BUF` (R279). -/
def Obligations.SelectorGuarantees : Prop :=
  ∀ s : State, s.Inv → 1 ≤ s.slen.toNat →
    ∃ t, exec .classify s = .next t ∧
      (t.tag = 0 → ∃ u, exec .constC t = .next u ∧ Compressed t u []) ∧
      (t.tag = 1 → s.slen.toNat = 2 ∧ (10 ≤ s.cfg.bufCap →
        ∃ u, exec .deltaconstC t = .next u ∧ Compressed t u (varintBits (s.srcAt 1 - s.srcAt 0))))

/-- `TAG` after `CLASSIFY` depends only on the block and `STAT_DENOM` (R280). -/
def Obligations.SelectorPure : Prop :=
  ∀ s s' : State, s.slen = s'.slen → (∀ i, i < s.slen.toNat → s.srcAt i = s'.srcAt i) →
    s.cfg.statDenom = s'.cfg.statDenom →
      ∃ t t', exec .classify s = .next t ∧ exec .classify s' = .next t' ∧ t.tag = t'.tag

/-! ## Codec commands: exactness -/

/-- The Gorilla family is exact in each of its layouts (R154, R147 to R152). -/
def Obligations.GorillaExact : Prop :=
  RoundTrips .gorillaC .gorillaD (fun _ => 1) (fun _ => 16383) (fun _ vs => gorillaBody .g vs) ∧
    RoundTrips .gorillazC .gorillazD (fun _ => 1) (fun _ => 16383) (fun _ vs => gorillaBody .z vs) ∧
    RoundTrips .gorillaplusC .gorillaplusD (fun _ => 1) (fun _ => 16383) (fun _ vs => gorillaBody .p vs)

/-- Chimp is exact (R176). -/
def Obligations.ChimpExact : Prop :=
  RoundTrips .chimpC .chimpD (fun _ => 1) (fun _ => 16383) (fun _ vs => chimpBody vs)

/-- FPC is exact (R193). -/
def Obligations.FpcExact : Prop :=
  RoundTrips .fpcC .fpcD (fun _ => 1) (fun _ => 16383) (fun s vs => fpcBody s.cfg.fpcLog2 vs)

/-- PDFCM is exact (R208). -/
def Obligations.PdfcmExact : Prop :=
  RoundTrips .pdfcmC .pdfcmD (fun _ => 1) (fun _ => 16383) (fun s vs => pdfcmBody s.cfg.fpcLog2 vs)

/-- The five residual schemes are exact (R243). -/
def Obligations.ResidualExact : Prop :=
  RoundTrips .deltaC .deltaD (fun _ => 1) (fun s => s.cfg.vcap) (fun _ vs => residBody .delta vs) ∧
    RoundTrips .delta2C .delta2D (fun _ => 1) (fun s => s.cfg.vcap) (fun _ vs => residBody .delta2 vs) ∧
    RoundTrips .xordeltaC .xordeltaD (fun _ => 1) (fun s => s.cfg.vcap) (fun _ vs => residBody .xorDelta vs) ∧
    RoundTrips .deltaxorC .deltaxorD (fun _ => 1) (fun s => s.cfg.vcap) (fun _ vs => residBody .deltaXor vs) ∧
    RoundTrips .plainC .plainD (fun _ => 1) (fun s => s.cfg.vcap) (fun _ vs => residBody .plain vs)

/-- `Const` and `DeltaConst` are exact on the blocks their compress commands accept (R236 to R239). -/
def Obligations.ConstFamilyExact : Prop :=
  RoundTrips .constC .constD (fun _ => 1) (fun s => s.cfg.vcap) (fun _ vs => constBody vs) ∧
    RoundTrips .deltaconstC .deltaconstD (fun _ => 2) (fun s => s.cfg.vcap) (fun _ vs => deltaconstBody vs)

/-- The run-length codec is exact (R255). -/
def Obligations.RleExact : Prop :=
  RoundTrips .rleC .rleD (fun _ => 1) (fun s => s.cfg.vcap) (fun _ vs => rleBody vs)

/-- The Huffman coder is exact (R268). -/
def Obligations.HuffExact : Prop :=
  RoundTrips .huffC .huffD (fun _ => 1) (fun _ => 65535) (fun _ vs => huffBody vs)

/-! ## Codec commands: outcomes -/

/-- What a compress command answers: too few or too many items raise; else it completes with a body, or raises
`NOT_CONST` or `OVERFLOW(BUF)`; and what each outcome leaves (R14, R15, R306; that a command that completes keeps the words
of `DST` at and above `DLEN` is the model's choice, log 17). -/
def Obligations.CompressAnswers : Prop :=
  ∀ (i : Instr) (s : State), i ∈ compressCommands → s.Inv →
    ∃ t, exec i s = .next t ∧
      (s.slen.toNat < minItems i → CompressFailed s t .tooFew i.opc) ∧
      (minItems i ≤ s.slen.toNat → maxItems i s.cfg.vcap < s.slen.toNat → CompressFailed s t .tooMany i.opc) ∧
      (minItems i ≤ s.slen.toNat → s.slen.toNat ≤ maxItems i s.cfg.vcap →
        (∃ bits, Compressed s t bits) ∨ CompressFailed s t .notConst i.opc ∨ CompressFailed s t .overflowBuf i.opc)

/-- Every bit-packed body of a block fits 80 bits for each item and 80 more, and begins with its header: the first value in
64 bits and the item count in 14 (the Gorilla framing), the item count alone in 14 bits (FPC) or 16 (Huffman). The whole
Huffman body: the count, then for each item the sixteen codes of its XOR with the item before it (R69, R142, R171, R188,
R201, R262, R264). -/
def Obligations.BodyHeaders : Prop :=
  ∀ s : State, s.Inv → 1 ≤ s.slen.toNat → 80 * s.slen.toNat + 80 ≤ s.bufBits →
    (s.slen.toNat ≤ 16383 →
      (∀ i ∈ [Instr.gorillaC, .gorillazC, .gorillaplusC, .chimpC, .pdfcmC],
        ∃ t bits, exec i s = .next t ∧ Compressed s t bits ∧
          bitsToNat (t.buf.bits 0 64) = (s.srcAt 0).toNat ∧ bitsToNat (t.buf.bits 64 14) = s.slen.toNat) ∧
      ∃ t bits, exec .fpcC s = .next t ∧ Compressed s t bits ∧ bitsToNat (t.buf.bits 0 14) = s.slen.toNat) ∧
    (s.slen.toNat ≤ 65535 → ∃ t, exec .huffC s = .next t ∧ bitsToNat (t.buf.bits 0 16) = s.slen.toNat ∧
      Compressed s t (numBits s.slen.toNat 16 ++
        (List.range s.slen.toNat).flatMap fun k => patternCodes (s.srcAt k ^^^ itemBefore s.srcAt k)))

/-- The body of each Gorilla layout, bit by bit, by the formats of Safety.lean: the framing, then for each item its record,
with the window reused exactly where R145 says so; and `Contain` of R145 says that every 1 bit of the XOR lies inside the
window (R141 to R145). -/
def Obligations.GorillaRecords : Prop :=
  (∀ s : State, s.Inv → 1 ≤ s.slen.toNat → s.slen.toNat ≤ 16383 →
    ∀ row ∈ [(Instr.gorillaC, formatG), (.gorillazC, formatZ), (.gorillaplusC, formatP)],
      let bits := framingBits (s.srcAt 0) s.slen.toNat ++ (List.range (s.slen.toNat - 1)).flatMap (row.2.record s.srcAt)
      bits.length ≤ s.bufBits → ∃ t, exec row.1 s = .next t ∧ Compressed s t bits) ∧
  ∀ (st : GorillaState) (x : Word), x ≠ 0 → st.w ≠ 0 → st.pl + st.w ≤ 64 →
    (st.contains (clz x) (ctz x) = true ↔ ∀ i, x.getLsbD i = true → st.pt ≤ i ∧ i < st.pt + st.w)

/-- The body of Chimp, bit by bit: the framing, then for each item one of the four records (R171, R172). -/
def Obligations.ChimpRecords : Prop :=
  ∀ s : State, s.Inv → 1 ≤ s.slen.toNat → s.slen.toNat ≤ 16383 →
    let bits := framingBits (s.srcAt 0) s.slen.toNat ++ (List.range (s.slen.toNat - 1)).flatMap (chimpRecord s.srcAt)
    bits.length ≤ s.bufBits → ∃ t, exec .chimpC s = .next t ∧ Compressed s t bits

/-- The body of FPC, bit by bit: the count, then for each item its tag, its byte count and its residual bytes, the two
predictors by the formulas of R186 and R187 (R186 to R188, R191). -/
def Obligations.FpcRecords : Prop :=
  ∀ s : State, s.Inv → 1 ≤ s.slen.toNat → s.slen.toNat ≤ 16383 →
    let bits := numBits s.slen.toNat 14 ++ (List.range s.slen.toNat).flatMap (fpcItem (2 ^ s.cfg.fpcLog2) s.srcAt)
    bits.length ≤ s.bufBits → ∃ t, exec .fpcC s = .next t ∧ Compressed s t bits

/-- The body of PDFCM, bit by bit: the framing, then for each item one of the five records, the window being the last eight
items and 0 before them; and the window entry the encoder chooses is the lowest of those with the most zero bytes (R201 to
R204). -/
def Obligations.PdfcmRecords : Prop :=
  (∀ s : State, s.Inv → 1 ≤ s.slen.toNat → s.slen.toNat ≤ 16383 →
    let bits := framingBits (s.srcAt 0) s.slen.toNat ++
      (List.range (s.slen.toNat - 1)).flatMap (pdfcmRecord (2 ^ s.cfg.fpcLog2) s.srcAt)
    bits.length ≤ s.bufBits → ∃ t, exec .pdfcmC s = .next t ∧ Compressed s t bits) ∧
  ∀ (st : PdfcmState) (v : Word), st.window.length = 8 → st.best v < 8 ∧
    ∀ k, k < 8 → zb (v ^^^ st.entry k) ≤ zb (v ^^^ st.entry (st.best v)) ∧
      (k < st.best v → zb (v ^^^ st.entry k) < zb (v ^^^ st.entry (st.best v)))

/-- The body of `RLE.C` is that of the block's maximal runs: runs of one item or more that spell the block, neighbouring
runs of different values (R250, R251). -/
def Obligations.RleRuns : Prop :=
  ∀ s : State, s.Inv → 1 ≤ s.slen.toNat →
    ∃ runs : List (Word × Nat), runItems runs = (List.range s.slen.toNat).map s.srcAt ∧ (∀ r ∈ runs, 1 ≤ r.2) ∧
      (∀ k (h : k + 1 < runs.length), runs[k].1 ≠ runs[k + 1].1) ∧
      ((rleBits runs).length ≤ s.bufBits → ∃ t, exec .rleC s = .next t ∧ Compressed s t (rleBits runs)) ∧
      (s.bufBits < (rleBits runs).length → ∃ t, exec .rleC s = .next t ∧ CompressFailed s t .overflowBuf 0x50)

/-- `CONST.C` and `DELTACONST.C` by the block alone: equal items give the empty body, a constant difference the one
varint, any other block `PRECOND(NOT_CONST)` (R236, R238). -/
def Obligations.ConstCompress : Prop :=
  ∀ s : State, s.Inv →
    (1 ≤ s.slen.toNat → ∃ t, exec .constC s = .next t ∧
      ((∀ i, i < s.slen.toNat → s.srcAt i = s.srcAt 0) → Compressed s t []) ∧
      (¬ (∀ i, i < s.slen.toNat → s.srcAt i = s.srcAt 0) → CompressFailed s t .notConst 0x4A)) ∧
    (2 ≤ s.slen.toNat → ∃ t, exec .deltaconstC s = .next t ∧
      ((∀ i, i + 1 < s.slen.toNat → s.srcAt (i + 1) - s.srcAt i = s.srcAt 1 - s.srcAt 0) →
        (8 * (varintBytes (s.srcAt 1 - s.srcAt 0)).length ≤ s.bufBits →
          Compressed s t (varintBits (s.srcAt 1 - s.srcAt 0))) ∧
        (s.bufBits < 8 * (varintBytes (s.srcAt 1 - s.srcAt 0)).length → CompressFailed s t .overflowBuf 0x4C)) ∧
      (¬ (∀ i, i + 1 < s.slen.toNat → s.srcAt (i + 1) - s.srcAt i = s.srcAt 1 - s.srcAt 0) →
        CompressFailed s t .notConst 0x4C))

/-- The residual streams by formula: the body of each of the five schemes is the varints of its residuals, written with
the first-order differences and XORs of the block (R220 to R225, R241). -/
def Obligations.ResidualStreams : Prop :=
  ∀ s : State, s.Inv → 1 ≤ s.slen.toNat →
    (let d : Nat → Word := fun k => if k = 0 then 0 else s.srcAt k - s.srcAt (k - 1)
      let x : Nat → Word := fun k => if k = 0 then 0 else s.srcAt k ^^^ s.srcAt (k - 1)
      let stream : (Nat → Word) → List Bool := fun r =>
        (List.range (s.slen.toNat - 1)).flatMap fun k => varintBits (r (k + 1))
      ∀ row ∈ [(Instr.deltaC, stream d), (.delta2C, stream fun k => d k - d (k - 1)),
          (.xordeltaC, stream fun k => d k ^^^ d (k - 1)), (.deltaxorC, stream fun k => x k - x (k - 1)),
          (.plainC, stream s.srcAt)],
        row.2.length ≤ s.bufBits → ∃ t, exec row.1 s = .next t ∧ Compressed s t row.2)

/-- With the default capacity no block of at most 8192 items overflows `BUF`: every codec that takes every block
completes (R69). -/
def Obligations.DefaultsNeverOverflow : Prop :=
  ∀ (i : Instr) (s : State), i ∈ compressCommands → i ≠ .constC → i ≠ .deltaconstC → s.Inv →
    s.cfg.bufCap = 262144 → 1 ≤ s.slen.toNat → s.slen.toNat ≤ 8192 →
      ∃ t bits, exec i s = .next t ∧ Compressed s t bits

/-- What a decompress command answers, on any bits whatever: the three checks of `DecompressBegin` in their order; past
them it appends exactly `COUNT` items or raises; the prefix of `DST` stays (R16, R75, R307, R350). That a command that
completes keeps the bits of `BUF` at and above `BLEN` is the model's choice, log 8. -/
def Obligations.DecompressAnswers : Prop :=
  ∀ (i : Instr) (s : State), i ∈ decompressCommands → s.Inv →
    ∃ t, exec i s = .next t ∧
      (s.blen.toNat % 8 ≠ 0 → DecompressFailed s t .unaligned i.opc) ∧
      (s.blen.toNat % 8 = 0 → s.count = 0 → DecompressFailed s t .tooFew i.opc) ∧
      (s.blen.toNat % 8 = 0 → s.count ≠ 0 → s.cfg.vcap < s.dlen.toNat + s.count.toNat →
        DecompressFailed s t .overflowDst i.opc) ∧
      (ReadyToDecode s →
        (∃ items pos, items.length = s.count.toNat ∧ pos ≤ s.blen.toNat ∧ Decompressed s t items pos) ∨
        ∃ c, DecompressFailed s t c i.opc)

/-- The header of a bit-packed body: too short to read, then a count that differs from `COUNT`, then a first value that
differs from `FIRST`: in the Gorilla framing the one in the header, in FPC and Huffman the first coded item (R146, R173,
R205, R192, R267, R310). -/
def Obligations.HeaderChecks : Prop :=
  ∀ u : State, u.Inv → ReadyToDecode u →
    (∀ i ∈ [Instr.gorillaD, .gorillazD, .gorillaplusD, .chimpD, .pdfcmD],
      (u.blen.toNat < 78 → Fails i u .eosBits) ∧
      (78 ≤ u.blen.toNat → bitsToNat (u.buf.bits 64 14) ≠ u.count.toNat → Fails i u .countMismatch) ∧
      (78 ≤ u.blen.toNat → bitsToNat (u.buf.bits 64 14) = u.count.toNat →
        bitsToNat (u.buf.bits 0 64) ≠ u.first.toNat → Fails i u .firstMismatch)) ∧
    (∀ row ∈ [(Instr.fpcD, 14), (.huffD, 16)],
      (u.blen.toNat < row.2 → Fails row.1 u .eosBits) ∧
      (row.2 ≤ u.blen.toNat → bitsToNat (u.buf.bits 0 row.2) ≠ u.count.toNat → Fails row.1 u .countMismatch)) ∧
    (14 ≤ u.blen.toNat → bitsToNat (u.buf.bits 0 14) = u.count.toNat →
      let size := 8 * (8 - bitsToNat (u.buf.bits 15 3))
      (u.blen.toNat < 18 + size → Fails .fpcD u .eosBits) ∧
      (18 + size ≤ u.blen.toNat → bitsToNat (u.buf.bits 18 size) ≠ u.first.toNat → Fails .fpcD u .firstMismatch)) ∧
    ∀ x : Word, bitsToNat (u.buf.bits 0 16) = u.count.toNat → u.holdsAt 16 (patternCodes x) → x ≠ u.first →
      Fails .huffD u .firstMismatch

/-- Where `CORRUPT(WINDOW)` is raised, after any number `m` of good records: by the Gorilla family and Chimp on a record
that reuses what no record has sent, or whose window does not fit 64 bits, and by PDFCM on a residual that skips more than
seven bytes (R146, R173, R205). -/
def Obligations.WindowErrors : Prop :=
  ∀ (u : State) (v : Nat → Word) (m : Nat), u.Inv → ReadyToDecode u → u.first = v 0 → m + 1 < u.count.toNat →
    u.count.toNat ≤ 16383 →
      let sent := fun record : Nat → List Bool => framingBits (v 0) u.count.toNat ++ (List.range m).flatMap record
      (∀ row ∈ [(Instr.gorillaD, formatG), (.gorillazD, formatZ), (.gorillaplusD, formatP)],
        ((row.2.window v m).2 = 0 → u.holdsAt 0 (sent (row.2.record v) ++ [true, false]) → Fails row.1 u .window) ∧
        ∀ f w, f < 2 ^ row.2.lw → 1 ≤ w → w ≤ 64 → 64 < row.2.lead f + w →
          u.holdsAt 0 (sent (row.2.record v) ++ ([true, true] ++ numBits f row.2.lw ++ numBits (w - 1) 6)) →
            Fails row.1 u .window) ∧
      (chimpKept v m = none → u.holdsAt 0 (sent (chimpRecord v) ++ [true, false]) → Fails .chimpD u .window) ∧
      (∀ f w, f < 8 → 1 ≤ w → w ≤ 64 → 64 < 2 * f + w →
        u.holdsAt 0 (sent (chimpRecord v) ++ ([false, true] ++ numBits f 3 ++ numBits (w - 1) 6)) →
          Fails .chimpD u .window) ∧
      ∀ l t, l < 8 → t < 8 → 7 < l + t →
        (u.holdsAt 0 (sent (pdfcmRecord (2 ^ u.cfg.fpcLog2) v) ++ ([true, false, true] ++ numBits t 3 ++ numBits l 3)) →
          Fails .pdfcmD u .window) ∧
        ∀ j, j < 8 →
          u.holdsAt 0
            (sent (pdfcmRecord (2 ^ u.cfg.fpcLog2) v) ++ ([true, true, false] ++ numBits j 3 ++ numBits t 3 ++ numBits l 3)) →
              Fails .pdfcmD u .window

/-- A bit-packed body cut short by one byte is refused with `EOS(BITS)`, never decoded (R135). -/
def Obligations.BitBodiesRefuseCut : Prop :=
  RefusesCut .gorillaD (fun _ => 1) (fun _ => 16383) (fun _ vs => gorillaBody .g vs) [.eosBits] ∧
    RefusesCut .gorillazD (fun _ => 1) (fun _ => 16383) (fun _ vs => gorillaBody .z vs) [.eosBits] ∧
    RefusesCut .gorillaplusD (fun _ => 1) (fun _ => 16383) (fun _ vs => gorillaBody .p vs) [.eosBits] ∧
    RefusesCut .chimpD (fun _ => 1) (fun _ => 16383) (fun _ vs => chimpBody vs) [.eosBits] ∧
    RefusesCut .fpcD (fun _ => 1) (fun _ => 16383) (fun s vs => fpcBody s.cfg.fpcLog2 vs) [.eosBits] ∧
    RefusesCut .pdfcmD (fun _ => 1) (fun _ => 16383) (fun s vs => pdfcmBody s.cfg.fpcLog2 vs) [.eosBits] ∧
    RefusesCut .huffD (fun _ => 1) (fun _ => 65535) (fun _ vs => huffBody vs) [.eosBits]

/-- A byte-stream body cut short by one byte is refused: a residual, or the one difference of `DELTACONST.D`, is missing or
ends on a continuation byte, and in a run-length body the last run is missing or ends so (R239, R243, R255). -/
def Obligations.ByteBodiesRefuseCut : Prop :=
  RefusesCut .deltaD (fun _ => 1) (fun s => s.cfg.vcap) (fun _ vs => residBody .delta vs) [.eosItems, .eosVarint] ∧
    RefusesCut .delta2D (fun _ => 1) (fun s => s.cfg.vcap) (fun _ vs => residBody .delta2 vs) [.eosItems, .eosVarint] ∧
    RefusesCut .xordeltaD (fun _ => 1) (fun s => s.cfg.vcap) (fun _ vs => residBody .xorDelta vs)
      [.eosItems, .eosVarint] ∧
    RefusesCut .deltaxorD (fun _ => 1) (fun s => s.cfg.vcap) (fun _ vs => residBody .deltaXor vs)
      [.eosItems, .eosVarint] ∧
    RefusesCut .plainD (fun _ => 1) (fun s => s.cfg.vcap) (fun _ vs => residBody .plain vs) [.eosItems, .eosVarint] ∧
    RefusesCut .deltaconstD (fun _ => 2) (fun s => s.cfg.vcap) (fun _ vs => deltaconstBody vs) [.eosItems, .eosVarint] ∧
    RefusesCut .rleD (fun _ => 1) (fun s => s.cfg.vcap) (fun _ vs => rleBody vs) [.oddPairs, .eosVarint]

/-- One whole byte more after the last item is `CORRUPT(TAIL)` (R18, R237, R239, R242); in a run-length body, which is read
to its end first, it is one varint too many, `CORRUPT(ODD_PAIRS)`, or a varint cut short, `EOS(VARINT)` (R252). -/
def Obligations.ExtraByteIsTail : Prop :=
  RefusesExtra .gorillaD (fun _ => 1) (fun _ => 16383) (fun _ vs => gorillaBody .g vs) (fun _ => .tail) ∧
    RefusesExtra .gorillazD (fun _ => 1) (fun _ => 16383) (fun _ vs => gorillaBody .z vs) (fun _ => .tail) ∧
    RefusesExtra .gorillaplusD (fun _ => 1) (fun _ => 16383) (fun _ vs => gorillaBody .p vs) (fun _ => .tail) ∧
    RefusesExtra .chimpD (fun _ => 1) (fun _ => 16383) (fun _ vs => chimpBody vs) (fun _ => .tail) ∧
    RefusesExtra .fpcD (fun _ => 1) (fun _ => 16383) (fun s vs => fpcBody s.cfg.fpcLog2 vs) (fun _ => .tail) ∧
    RefusesExtra .pdfcmD (fun _ => 1) (fun _ => 16383) (fun s vs => pdfcmBody s.cfg.fpcLog2 vs) (fun _ => .tail) ∧
    RefusesExtra .huffD (fun _ => 1) (fun _ => 65535) (fun _ vs => huffBody vs) (fun _ => .tail) ∧
    RefusesExtra .deltaD (fun _ => 1) (fun s => s.cfg.vcap) (fun _ vs => residBody .delta vs) (fun _ => .tail) ∧
    RefusesExtra .delta2D (fun _ => 1) (fun s => s.cfg.vcap) (fun _ vs => residBody .delta2 vs) (fun _ => .tail) ∧
    RefusesExtra .xordeltaD (fun _ => 1) (fun s => s.cfg.vcap) (fun _ vs => residBody .xorDelta vs) (fun _ => .tail) ∧
    RefusesExtra .deltaxorD (fun _ => 1) (fun s => s.cfg.vcap) (fun _ vs => residBody .deltaXor vs) (fun _ => .tail) ∧
    RefusesExtra .plainD (fun _ => 1) (fun s => s.cfg.vcap) (fun _ vs => residBody .plain vs) (fun _ => .tail) ∧
    RefusesExtra .constD (fun _ => 1) (fun s => s.cfg.vcap) (fun _ vs => constBody vs) (fun _ => .tail) ∧
    RefusesExtra .deltaconstD (fun _ => 2) (fun s => s.cfg.vcap) (fun _ vs => deltaconstBody vs) (fun _ => .tail) ∧
    RefusesExtra .rleD (fun _ => 1) (fun s => s.cfg.vcap) (fun _ vs => rleBody vs)
      (fun b => if b.toNat < 128 then .oddPairs else .eosVarint)

/-- `RLE.D` by the varints of its body (R252): an empty body and runs that spell fewer than `COUNT` items raise `EOS(ITEMS)`,
an odd number of varints after the pair count `ODD_PAIRS`, a pair count that is not the number of pairs `COUNT_MISMATCH`; at
the first pair it cannot take, a pair that begins when `COUNT` items are made raises `TAIL`, a run of 0 or below `BAD_RUN`,
a first value that is not `FIRST` raises `FIRST_MISMATCH`; else it emits exactly `COUNT` items, an overshooting last run cut. -/
def Obligations.RleDecode : Prop :=
  ∀ u : State, u.Inv → ReadyToDecode u →
    (u.blen = 0 → Fails .rleD u .eosItems) ∧
    ∀ runs : List (Word × Nat), (∀ r ∈ runs, r.2 < 2 ^ 64) →
      (∀ p w : Word, HoldsExactly u (varintBits p ++ pairBits runs ++ varintBits w) → Fails .rleD u .oddPairs) ∧
      (∀ p : Word, p.toInt ≠ (runs.length : Int) → HoldsExactly u (varintBits p ++ pairBits runs) →
        Fails .rleD u .countMismatch) ∧
      (HoldsExactly u (rleBits runs) →
        (∀ pre r post, runs = pre ++ r :: post → TakesRuns u.first u.count.toNat pre →
          (u.count.toNat ≤ runTotal pre → Fails .rleD u .tail) ∧
          (runTotal pre < u.count.toNat → r.2 = 0 ∨ 2 ^ 63 ≤ r.2 → Fails .rleD u .badRun) ∧
          (pre = [] → 1 ≤ r.2 → r.2 < 2 ^ 63 → r.1 ≠ u.first → Fails .rleD u .firstMismatch)) ∧
        (TakesRuns u.first u.count.toNat runs → runTotal runs < u.count.toNat → Fails .rleD u .eosItems) ∧
        (TakesRuns u.first u.count.toNat runs → u.count.toNat ≤ runTotal runs →
          ∃ v, exec .rleD u = .next v ∧ Decompressed u v ((runItems runs).take u.count.toNat) u.blen.toNat))

/-- `CONST.D` emits `FIRST` `COUNT` times; `DELTACONST.D` emits the items `FIRST + i * dd` modulo 2^64 (R237, R239). -/
def Obligations.ProgressionDecode : Prop :=
  ∀ u : State, u.Inv → ReadyToDecode u →
    (u.blen = 0 → ∃ v, exec .constD u = .next v ∧
      Decompressed u v (List.replicate u.count.toNat u.first) 0) ∧
    ∀ dd : Word, u.blen.toNat = (varintBits dd).length → u.buf.bits 0 (varintBits dd).length = varintBits dd →
      ∃ v, exec .deltaconstD u = .next v ∧
        Decompressed u v ((List.range u.count.toNat).map fun i => u.first + BitVec.ofNat 64 i * dd) u.blen.toNat

/-! ## Inside the codecs -/

/-- The Huffman code is prefix-free and complete: every stream of five bits or more begins with exactly one code, and the
codes are those of R261's table. -/
def Obligations.HuffmanCode : Prop :=
  (∀ bs : List Bool, 5 ≤ bs.length → ∃! q, q < 16 ∧ huffBits q <+: bs) ∧
    huffBits 0 = [false] ∧ huffBits 1 = [true, false, false, false] ∧
    ∀ q, 2 ≤ q → q < 16 → huffBits q = [true, q.testBit 3, q.testBit 2, q.testBit 1, q.testBit 0]
end

