-- ==== Sys2Proof/Laws/Memory.lean ====
section
/-! SUPPORT. The laws of the memories: a read after a write to the same place gives what was written, a write leaves
every other place alone, and every operation keeps the canonical form. -/

namespace Sys2Proof.Machine

/-! ## Lists of cells -/

theorem mem_insertCell {α : Type} {a : Nat} {v : α} {l : List (Nat × α)} {c : Nat × α} :
    c ∈ insertCell a v l ↔ c = (a, v) ∨ c ∈ l := by
  induction l with
  | nil => simp [insertCell]
  | cons d rest ih =>
    unfold insertCell
    split
    · simp
    · simp only [List.mem_cons, ih]; tauto

theorem mem_removeCell {α : Type} {a : Nat} {l : List (Nat × α)} {c : Nat × α} :
    c ∈ removeCell a l ↔ c ∈ l ∧ c.1 ≠ a := by simp [removeCell]

theorem removeCell_sorted {α : Type} {a : Nat} {l : List (Nat × α)}
    (h : l.Pairwise fun x y => x.1 < y.1) : (removeCell a l).Pairwise fun x y => x.1 < y.1 := h.filter _

theorem insertCell_sorted {α : Type} {a : Nat} {v : α} {l : List (Nat × α)}
    (h : l.Pairwise fun x y => x.1 < y.1) (ha : ∀ c ∈ l, c.1 ≠ a) :
    (insertCell a v l).Pairwise fun x y => x.1 < y.1 := by
  induction l with
  | nil => simp [insertCell]
  | cons d rest ih =>
    obtain ⟨hd, hr⟩ := List.pairwise_cons.mp h
    unfold insertCell
    split
    · next hlt =>
      refine List.pairwise_cons.mpr ⟨fun c hc => ?_, h⟩
      rcases List.mem_cons.mp hc with rfl | hc
      · exact hlt
      · exact lt_trans hlt (hd c hc)
    · next hge =>
      refine List.pairwise_cons.mpr ⟨fun c hc => ?_, ih hr fun c hc => ha c (by simp [hc])⟩
      rcases mem_insertCell.mp hc with rfl | hc
      · exact lt_of_le_of_ne (not_lt.mp hge) (ha d (by simp))
      · exact hd c hc

theorem insert_remove_sorted {α : Type} {a : Nat} {v : α} {l : List (Nat × α)}
    (h : l.Pairwise fun x y => x.1 < y.1) : (insertCell a v (removeCell a l)).Pairwise fun x y => x.1 < y.1 :=
  insertCell_sorted (removeCell_sorted h) fun _ hc => (mem_removeCell.mp hc).2

/-! ## Planes -/

theorem planeGet_insertCell (l : List Host.Cell) (a : Nat) (v : Byte) (h : ∀ c ∈ l, c.1 ≠ a) (a' : Nat) :
    planeGet (insertCell a v l) a' = if a' = a then v else planeGet l a' := by
  induction l with
  | nil => simp [insertCell, planeGet, eq_comm]
  | cons d rest ih =>
    have hd : d.1 ≠ a := h d (by simp)
    have ih := ih fun c hc => h c (by simp [hc])
    unfold insertCell
    split
    · simp [planeGet, eq_comm]
    · simp only [planeGet, ih]
      split_ifs with h1 h2 <;> first | rfl | (subst h1; exact absurd h2 hd)

theorem planeGet_removeCell (l : List Host.Cell) (a a' : Nat) :
    planeGet (removeCell a l) a' = if a' = a then 0 else planeGet l a' := by
  induction l with
  | nil => simp [removeCell, planeGet]
  | cons d rest ih =>
    simp only [removeCell, List.filter_cons] at ih ⊢
    by_cases hd : d.1 = a
    · simp only [hd, ne_eq, not_true_eq_false, decide_false, Bool.false_eq_true, if_false, ih, planeGet]
      split_ifs with h1 h2 <;> first | rfl | exact absurd h2.symm h1
    · simp only [ne_eq, hd, not_false_eq_true, decide_true, if_true, planeGet, ih]
      split_ifs with h1 h2 <;> first | rfl | (subst h1; exact absurd h2 hd)

/-- What a plane reads after a write. -/
@[simp] theorem planeGet_planeSet (p : List Host.Cell) (a : Nat) (b : Byte) (a' : Nat) :
    planeGet (planeSet p a b) a' = if a' = a then b else planeGet p a' := by
  unfold planeSet
  split
  · next h => rw [planeGet_removeCell, h]
  · rw [planeGet_insertCell _ _ _ fun c hc => (mem_removeCell.mp hc).2, planeGet_removeCell]
    split_ifs <;> rfl

theorem planeGet_filter_below (p : List Host.Cell) (n a : Nat) :
    planeGet (p.filter fun c => decide (c.1 < n)) a = if a < n then planeGet p a else 0 := by
  induction p with
  | nil => simp [planeGet]
  | cons d rest ih =>
    rw [List.filter_cons]
    by_cases hd : d.1 < n
    · simp only [hd, decide_true, if_true, planeGet, ih]
      split_ifs with h1 h2 <;> first | rfl | (subst h1; exact absurd hd h2)
    · simp only [hd, decide_false, Bool.false_eq_true, if_false, ih, planeGet]
      split_ifs with h1 h2 <;> first | rfl | (subst h2; exact absurd h1 hd)

/-- What a plane reads after it is cut at a stream bit index. -/
@[simp] theorem planeGet_planeBelow (p : List Host.Cell) (lo a : Nat) :
    planeGet (planeBelow p lo) a =
      if a < lo / 8 then planeGet p a
      else if a = lo / 8 then planeGet p a &&& highMask (lo % 8) else 0 := by
  unfold planeBelow
  rw [planeGet_planeSet, planeGet_filter_below]
  by_cases h : a = lo / 8
  · simp [h]
  · simp [h]

theorem mem_planeSet {p : List Host.Cell} {a : Nat} {b : Byte} {c : Host.Cell} (h : c ∈ planeSet p a b) :
    (c = (a, b) ∧ b ≠ 0) ∨ (c ∈ p ∧ c.1 ≠ a) := by
  unfold planeSet at h
  split at h
  · exact .inr (mem_removeCell.mp h)
  · next hb =>
    rcases mem_insertCell.mp h with h | h
    · exact .inl ⟨h, hb⟩
    · exact .inr (mem_removeCell.mp h)

/-- A write keeps a plane canonical. -/
theorem planeSet_wf {p : List Host.Cell} (h : planeWf p) (a : Nat) (b : Byte) : planeWf (planeSet p a b) := by
  refine ⟨?_, fun c hc => ?_⟩
  · unfold planeSet
    split
    · exact removeCell_sorted h.1
    · exact insert_remove_sorted h.1
  · rcases mem_planeSet hc with ⟨rfl, hb⟩ | ⟨hc, -⟩
    · exact hb
    · exact h.2 c hc

/-- A cut keeps a plane canonical. -/
theorem planeBelow_wf {p : List Host.Cell} (h : planeWf p) (lo : Nat) : planeWf (planeBelow p lo) :=
  planeSet_wf ⟨h.1.filter _, fun c hc => h.2 c (List.mem_filter.mp hc).1⟩ _ _

/-- In a canonical plane an entry is what its address reads as. -/
theorem planeGet_of_mem {p : List Host.Cell} (h : p.Pairwise fun x y => x.1 < y.1) {c : Host.Cell} (hc : c ∈ p) :
    planeGet p c.1 = c.2 := by
  induction p with
  | nil => simp at hc
  | cons d rest ih =>
    obtain ⟨hd, hr⟩ := List.pairwise_cons.mp h
    rcases List.mem_cons.mp hc with rfl | hc
    · simp [planeGet]
    · simp [planeGet, (hd c hc).ne, ih hr hc]

/-- An address that reads as something else than 0 is listed. -/
theorem mem_of_planeGet_ne {p : List Host.Cell} {a : Nat} (h : planeGet p a ≠ 0) : (a, planeGet p a) ∈ p := by
  induction p with
  | nil => simp [planeGet] at h
  | cons d rest ih =>
    unfold planeGet at h ⊢
    split
    · next hd => simp [← hd]
    · next hd => rw [if_neg hd] at h; exact List.mem_cons_of_mem _ (ih h)

/-! ## Bits of a byte -/

theorem bitOfByte_setBitOfByte (b : Byte) (i : Nat) (v : Bool) (j : Nat) (hi : i < 8) (hj : j < 8) :
    bitOfByte (setBitOfByte b i v) j = if j = i then v else bitOfByte b j := by
  revert b v
  interval_cases i <;> interval_cases j <;> intro b v <;> cases v <;>
    simp [bitOfByte, setBitOfByte]

theorem bitOfByte_and_highMask (b : Byte) (r j : Nat) (hr : r < 8) (hj : j < 8) :
    bitOfByte (b &&& highMask r) j = (decide (j < r) && bitOfByte b j) := by
  interval_cases r <;> interval_cases j <;> simp [bitOfByte, highMask]

theorem byte_ext {b c : Byte} (h : ∀ j, j < 8 → bitOfByte b j = bitOfByte c j) : b = c := by
  apply BitVec.eq_of_getLsbD_eq
  intro i hi
  have := h (7 - i) (by omega)
  simpa [bitOfByte, show 7 - (7 - i) = i by omega] using this

theorem bitOfByte_zero (j : Nat) : bitOfByte 0#8 j = false := by simp [bitOfByte]

theorem bitOfByte_ones (j : Nat) : bitOfByte 255#8 j = true := by
  unfold bitOfByte
  have : 7 - j < 8 := by omega
  interval_cases h : 7 - j <;> rfl

/-! ## Marks of unspecified cells -/

theorem epochAt_filter_below (marks : List (Nat × Nat)) (lo k : Nat) (h : k < lo) :
    epochAt (marks.filter fun m => decide (m.1 < lo)) k = epochAt marks k := by
  induction marks with
  | nil => rfl
  | cons m rest ih =>
    rw [List.filter_cons]
    by_cases hm : m.1 < lo
    · simp [hm, epochAt, ih]
    · simp [hm, epochAt, ih, show ¬ m.1 ≤ k by omega]

/-- The moment a cell belongs to after a mark. -/
@[simp] theorem epochAt_markStale (marks : List (Nat × Nat)) (lo e k : Nat) :
    epochAt (markStale marks lo e) k = if lo ≤ k then e else epochAt marks k := by
  by_cases h : lo ≤ k
  · simp [markStale, epochAt, h]
  · simpa [markStale, epochAt, h] using epochAt_filter_below marks lo k (by omega)

theorem markStale_wf {marks : List (Nat × Nat)} {fresh : Nat} (h : staleWf marks fresh) (lo : Nat) :
    staleWf (markStale marks lo fresh) (fresh + 1) := by
  refine ⟨List.pairwise_cons.mpr ⟨fun m hm => ?_, h.1.filter _⟩, fun m hm => ?_⟩
  · simpa using (List.mem_filter.mp hm).2
  · rcases List.mem_cons.mp hm with rfl | hm
    · simp
    · exact Nat.lt_succ_of_lt (h.2 m (List.mem_filter.mp hm).1)

theorem staleWf_mono {marks : List (Nat × Nat)} {f g : Nat} (h : staleWf marks f) (hfg : f ≤ g) : staleWf marks g :=
  ⟨h.1, fun m hm => lt_of_lt_of_le (h.2 m hm) hfg⟩

/-! ## BUF -/

/-- A bit after a write of a bit (R120): the bit written, and no other. -/
@[simp] theorem bit_setBit (m : ByteMemory) (k : Nat) (v : Bool) (k' : Nat) :
    (m.setBit k v).bit k' = if k' = k then v else m.bit k' := by
  by_cases h : k' / 8 = k / 8
  · have h1 := bitOfByte_setBitOfByte (planeGet m.known (k / 8)) (k % 8) true (k' % 8) (by omega) (by omega)
    have h2 := bitOfByte_setBitOfByte (planeGet m.cells (k / 8)) (k % 8) v (k' % 8) (by omega) (by omega)
    by_cases hk : k' = k
    · subst hk
      simp only [if_true] at h1 h2
      simp [ByteMemory.bit, ByteMemory.setBit, h1, h2]
    · have : k' % 8 ≠ k % 8 := by omega
      simp only [this, if_false] at h1 h2
      simp [ByteMemory.bit, ByteMemory.setBit, h, h1, h2, hk]
  · have hk : k' ≠ k := by rintro rfl; exact h rfl
    simp [ByteMemory.bit, ByteMemory.setBit, h, hk]

/-- A bit after a write of bits: the bits written, and no other. -/
theorem bit_setBits (bs : List Bool) (m : ByteMemory) (k k' : Nat) :
    (m.setBits k bs).bit k' = if h : k ≤ k' ∧ k' - k < bs.length then bs[k' - k]'h.2 else m.bit k' := by
  induction bs generalizing m k with
  | nil => simp [ByteMemory.setBits]
  | cons b bs ih =>
    rw [ByteMemory.setBits, ih]
    by_cases h1 : k' = k
    · subst h1; simp
    · by_cases h2 : k + 1 ≤ k' ∧ k' - (k + 1) < bs.length
      · have h3 : k ≤ k' ∧ k' - k < (b :: bs).length := by simp; omega
        rw [dif_pos h2, dif_pos h3]
        have : k' - k = (k' - (k + 1)) + 1 := by omega
        simp [this]
      · have h3 : ¬ (k ≤ k' ∧ k' - k < (b :: bs).length) := by simp; omega
        rw [dif_neg h2, dif_neg h3, bit_setBit, if_neg h1]

/-- A bit below the bits written keeps its value. -/
theorem bit_setBits_below (bs : List Bool) (m : ByteMemory) {k k' : Nat} (h : k' < k) :
    (m.setBits k bs).bit k' = m.bit k' := by rw [bit_setBits, dif_neg (by omega)]

/-- A bit above the bits written keeps its value. -/
theorem bit_setBits_above (bs : List Bool) (m : ByteMemory) {k k' : Nat} (h : k + bs.length ≤ k') :
    (m.setBits k bs).bit k' = m.bit k' := by rw [bit_setBits, dif_neg (by omega)]

theorem bit_setBits_at (bs : List Bool) (m : ByteMemory) (k j : Nat) (h : j < bs.length) :
    (m.setBits k bs).bit (k + j) = bs[j] := by
  rw [bit_setBits, dif_pos ⟨by omega, by omega⟩]; simp

/-- A bit after the bits from `lo` on became unspecified. -/
@[simp] theorem bit_forget (m : ByteMemory) (lo e k : Nat) :
    (m.forget lo e).bit k = if k < lo then m.bit k else Config.freeBit e k := by
  unfold ByteMemory.bit ByteMemory.forget
  simp only [planeGet_planeBelow, epochAt_markStale]
  by_cases h : k < lo
  · rw [if_pos h, if_neg (show ¬ lo ≤ k by omega)]
    by_cases h1 : k / 8 < lo / 8
    · simp [h1]
    · have h2 : k / 8 = lo / 8 := by omega
      have h3 : k % 8 < lo % 8 := by omega
      simp [h2, bitOfByte_and_highMask _ _ _ (show lo % 8 < 8 by omega) (show k % 8 < 8 by omega), h3]
  · rw [if_neg h, if_pos (show lo ≤ k by omega)]
    have h1 : ¬ k / 8 < lo / 8 := by omega
    by_cases h2 : k / 8 = lo / 8
    · have h3 : ¬ k % 8 < lo % 8 := by omega
      simp [h2, bitOfByte_and_highMask _ _ _ (show lo % 8 < 8 by omega) (show k % 8 < 8 by omega), h3]
    · simp [h1, h2, bitOfByte_zero]

/-- A bit after the host's write of a byte. -/
theorem bit_setByte (m : ByteMemory) (i : Nat) (b : Byte) (k : Nat) :
    (m.setByte i b).bit k = if k / 8 = i then bitOfByte b (k % 8) else m.bit k := by
  unfold ByteMemory.bit ByteMemory.setByte
  simp only [planeGet_planeSet]
  by_cases h : k / 8 = i <;> simp [h, bitOfByte_ones]

@[simp] theorem bits_length (m : ByteMemory) (n k : Nat) : (m.bits k n).length = n := by
  induction n generalizing k with
  | zero => rfl
  | succ n ih => simp [ByteMemory.bits, ih]

theorem bits_getElem (m : ByteMemory) (n k j : Nat) (h : j < (m.bits k n).length) :
    (m.bits k n)[j] = m.bit (k + j) := by
  induction n generalizing k j with
  | zero => simp [ByteMemory.bits] at h
  | succ n ih =>
    cases j with
    | zero => simp [ByteMemory.bits]
    | succ j =>
      simp only [ByteMemory.bits, List.getElem_cons_succ]
      rw [ih]; congr 1; omega

theorem bits_append (m : ByteMemory) (k a b : Nat) : m.bits k (a + b) = m.bits k a ++ m.bits (k + a) b := by
  induction a generalizing k with
  | zero => simp [ByteMemory.bits]
  | succ a ih =>
    rw [show a + 1 + b = (a + b) + 1 by omega]
    simp only [ByteMemory.bits, ih, List.cons_append]
    rw [show k + 1 + a = k + (a + 1) by omega]

/-- Two memories that agree on a range of bits read the same groups there. -/
theorem bits_congr {m m' : ByteMemory} {k n : Nat} (h : ∀ j, j < n → m.bit (k + j) = m'.bit (k + j)) :
    m.bits k n = m'.bits k n := by
  refine List.ext_getElem (by simp) fun j h1 h2 => ?_
  rw [bits_getElem, bits_getElem]
  exact h j (by simpa using h1)

/-- Bits read after they are written are the bits written (R134). -/
theorem bits_setBits (m : ByteMemory) (k : Nat) (bs : List Bool) : (m.setBits k bs).bits k bs.length = bs := by
  refine List.ext_getElem (by simp) fun j h1 h2 => ?_
  rw [bits_getElem, bit_setBits_at _ _ _ _ h2]

theorem bits_eq_iff (m : ByteMemory) (k : Nat) (bs : List Bool) :
    m.bits k bs.length = bs ↔ ∀ j (h : j < bs.length), m.bit (k + j) = bs[j] := by
  constructor
  · intro h j hj
    rw [← bits_getElem m bs.length k j (by simpa using hj)]
    congr 1
  · intro h
    refine List.ext_getElem (by simp) fun j h1 h2 => ?_
    rw [bits_getElem, h j h2]

/-! ## The canonical form of BUF -/

theorem setBitOfByte_within (b c : Byte) (j : Nat) (v : Bool) (hj : j < 8) (h : b &&& ~~~c = 0) :
    setBitOfByte b j v &&& ~~~setBitOfByte c j true = 0 := by
  apply byte_ext
  intro i hi
  have h0 := congrArg (bitOfByte · i) h
  have h1 := bitOfByte_setBitOfByte b j v i hj hi
  have h2 := bitOfByte_setBitOfByte c j true i hj hi
  simp only [bitOfByte] at h0 h1 h2 ⊢
  have h7 : 7 - i < 8 := by omega
  simp only [BitVec.getLsbD_and, BitVec.getLsbD_not, h7, decide_true, Bool.true_and] at h0 ⊢
  rw [h1, h2]
  by_cases hij : i = j
  · simp [hij]
  · simpa [hij] using h0

theorem planeSet_below {p : List Host.Cell} {cap a : Nat} {b : Byte} (h : ∀ c ∈ p, c.1 < cap)
    (ha : a < cap ∨ b = 0) : ∀ c ∈ planeSet p a b, c.1 < cap := by
  intro c hc
  rcases mem_planeSet hc with ⟨rfl, hb⟩ | ⟨hc, -⟩
  · rcases ha with ha | ha
    · exact ha
    · exact absurd ha hb
  · exact h c hc

/-- A byte nothing has specified holds no bits in the plane of values. -/
theorem cells_within {m : ByteMemory} {cap fresh : Nat} (h : m.wf cap fresh) (a : Nat) :
    planeGet m.cells a &&& ~~~planeGet m.known a = 0 := by
  by_cases hz : planeGet m.cells a = 0
  · simp [hz]
  · exact h.2.2.2.2.1 _ (mem_of_planeGet_ne hz)

theorem setPlanes_wf {m : ByteMemory} {cap fresh : Nat} (h : m.wf cap fresh) {a : Nat} {v n : Byte}
    (ha : a < cap) (hv : v &&& ~~~n = 0) :
    ({ m with cells := planeSet m.cells a v, known := planeSet m.known a n } : ByteMemory).wf cap fresh := by
  obtain ⟨h1, h2, h3, h4, h5, h6⟩ := h
  refine ⟨planeSet_wf h1 _ _, planeSet_wf h2 _ _, planeSet_below h3 (.inl ha), planeSet_below h4 (.inl ha), ?_, h6⟩
  intro c hc
  rcases mem_planeSet hc with ⟨rfl, -⟩ | ⟨hc, hne⟩
  · simpa using hv
  · simpa [hne] using h5 c hc

/-- A write of a bit keeps the canonical form. -/
theorem setBit_wf {m : ByteMemory} {cap fresh : Nat} (h : m.wf cap fresh) {k : Nat} (hk : k < 8 * cap) (v : Bool) :
    (m.setBit k v).wf cap fresh :=
  setPlanes_wf h (by omega) (setBitOfByte_within _ _ _ _ (by omega) (cells_within h _))

/-- A write of bits keeps the canonical form. -/
theorem setBits_wf (bs : List Bool) {m : ByteMemory} {cap fresh : Nat} (h : m.wf cap fresh) {k : Nat}
    (hk : k + bs.length ≤ 8 * cap) : (m.setBits k bs).wf cap fresh := by
  induction bs generalizing m k with
  | nil => exact h
  | cons b bs ih =>
    simp only [List.length_cons] at hk
    exact ih (setBit_wf h (by omega) b) (by omega)

/-- The host's write of a byte keeps the canonical form. -/
theorem setByte_wf {m : ByteMemory} {cap fresh : Nat} (h : m.wf cap fresh) {i : Nat} (hi : i < cap) (b : Byte) :
    (m.setByte i b).wf cap fresh :=
  setPlanes_wf h hi (by
    have : ~~~(0xFF#8) = 0#8 := by decide
    simp [this])

theorem highMask_zero : highMask 0 = 0 := by decide

/-- Making bits unspecified keeps the canonical form. -/
theorem forget_wf {m : ByteMemory} {cap fresh : Nat} (h : m.wf cap fresh) {lo : Nat} (hlo : lo ≤ 8 * cap) :
    (m.forget lo fresh).wf cap (fresh + 1) := by
  obtain ⟨h1, h2, h3, h4, h5, h6⟩ := h
  have hcap : ∀ b : Byte, lo / 8 < cap ∨ b &&& highMask (lo % 8) = 0 := by
    intro b
    by_cases hc : lo / 8 < cap
    · exact .inl hc
    · have : lo % 8 = 0 := by omega
      right; rw [this, highMask_zero]; simp
  have hfil : ∀ {p : List Host.Cell}, (∀ c ∈ p, c.1 < cap) →
      ∀ c ∈ p.filter fun c => decide (c.1 < lo / 8), c.1 < cap :=
    fun hp c hc => hp c (List.mem_filter.mp hc).1
  refine ⟨planeBelow_wf h1 _, planeBelow_wf h2 _, planeSet_below (hfil h3) (hcap _), planeSet_below (hfil h4) (hcap _),
    ?_, markStale_wf h6 lo⟩
  intro c hc
  have hw := cells_within ⟨h1, h2, h3, h4, h5, h6⟩ (lo / 8)
  rcases mem_planeSet hc with ⟨rfl, -⟩ | ⟨hc, hne⟩
  · simp only [ByteMemory.forget, planeGet_planeBelow, lt_irrefl, if_false, if_true]
    apply byte_ext
    intro i hi
    have h0 := congrArg (bitOfByte · i) hw
    have hi7 : 7 - i < 8 := by omega
    simp only [bitOfByte, BitVec.getLsbD_and, BitVec.getLsbD_not, hi7, decide_true, Bool.true_and] at h0 ⊢
    have hz : (0 : Byte).getLsbD (7 - i) = false := by simp
    rw [hz] at h0 ⊢
    clear hz
    revert h0
    generalize (planeGet m.cells (lo / 8)).getLsbD (7 - i) = x
    generalize (planeGet m.known (lo / 8)).getLsbD (7 - i) = y
    generalize (highMask (lo % 8)).getLsbD (7 - i) = z
    revert x y z
    decide
  · have hlt : c.1 < lo / 8 := by simpa using (List.mem_filter.mp hc).2
    simpa [ByteMemory.forget, planeGet_planeBelow, hlt] using h5 c (List.mem_filter.mp hc).1

theorem ByteMemory.wf_mono {m : ByteMemory} {cap f g : Nat} (h : m.wf cap f) (hfg : f ≤ g) : m.wf cap g :=
  ⟨h.1, h.2.1, h.2.2.1, h.2.2.2.1, h.2.2.2.2.1, staleWf_mono h.2.2.2.2.2 hfg⟩

/-! ## SRC and DST -/

theorem wordGet_insertCell (l : List (Nat × Word)) (a : Nat) (v : Word) (h : ∀ c ∈ l, c.1 ≠ a) (a' : Nat) :
    wordGet (insertCell a v l) a' = if a' = a then some v else wordGet l a' := by
  induction l with
  | nil => simp [insertCell, wordGet, eq_comm]
  | cons d rest ih =>
    have hd : d.1 ≠ a := h d (by simp)
    have ih := ih fun c hc => h c (by simp [hc])
    unfold insertCell
    split
    · simp [wordGet, eq_comm]
    · simp only [wordGet, ih]
      split_ifs with h1 h2 <;> first | rfl | (subst h1; exact absurd h2 hd)

theorem wordGet_removeCell (l : List (Nat × Word)) (a a' : Nat) :
    wordGet (removeCell a l) a' = if a' = a then none else wordGet l a' := by
  induction l with
  | nil => simp [removeCell, wordGet]
  | cons d rest ih =>
    simp only [removeCell, List.filter_cons] at ih ⊢
    by_cases hd : d.1 = a
    · simp only [hd, ne_eq, not_true_eq_false, decide_false, Bool.false_eq_true, if_false, ih, wordGet]
      split_ifs with h1 h2 <;> first | rfl | exact absurd h2.symm h1
    · simp only [ne_eq, hd, not_false_eq_true, decide_true, if_true, wordGet, ih]
      split_ifs with h1 h2 <;> first | rfl | (subst h1; exact absurd h2 hd)

@[simp] theorem wordGet_wordSet (l : List (Nat × Word)) (a : Nat) (w : Word) (a' : Nat) :
    wordGet (wordSet l a w) a' = if a' = a then some w else wordGet l a' := by
  unfold wordSet
  rw [wordGet_insertCell _ _ _ fun c hc => (mem_removeCell.mp hc).2, wordGet_removeCell]
  split_ifs <;> rfl

theorem wordGet_filter_below (l : List (Nat × Word)) (n a : Nat) :
    wordGet (l.filter fun c => decide (c.1 < n)) a = if a < n then wordGet l a else none := by
  induction l with
  | nil => simp [wordGet]
  | cons d rest ih =>
    rw [List.filter_cons]
    by_cases hd : d.1 < n
    · simp only [hd, decide_true, if_true, wordGet, ih]
      split_ifs with h1 h2 <;> first | rfl | (subst h1; exact absurd hd h2)
    · simp only [hd, decide_false, Bool.false_eq_true, if_false, ih, wordGet]
      split_ifs with h1 h2 <;> first | rfl | (subst h2; exact absurd h1 hd)

/-- A word after a write. -/
@[simp] theorem read_write (free : Nat → Nat → Word) (m : WordMemory) (i : Nat) (w : Word) (j : Nat) :
    (m.write i w).read free j = if j = i then w else m.read free j := by
  unfold WordMemory.read WordMemory.write
  simp only [wordGet_wordSet]
  split_ifs <;> rfl

/-- A word after a write of words: the words written, and no other. -/
theorem read_writeAll (free : Nat → Nat → Word) (ws : List Word) (m : WordMemory) (i j : Nat) :
    (m.writeAll i ws).read free j = if h : i ≤ j ∧ j - i < ws.length then ws[j - i]'h.2 else m.read free j := by
  induction ws generalizing m i with
  | nil => simp [WordMemory.writeAll]
  | cons w ws ih =>
    rw [WordMemory.writeAll, ih]
    by_cases h1 : j = i
    · subst h1; simp
    · by_cases h2 : i + 1 ≤ j ∧ j - (i + 1) < ws.length
      · have h3 : i ≤ j ∧ j - i < (w :: ws).length := by simp; omega
        rw [dif_pos h2, dif_pos h3]
        have : j - i = (j - (i + 1)) + 1 := by omega
        simp [this]
      · have h3 : ¬ (i ≤ j ∧ j - i < (w :: ws).length) := by simp; omega
        rw [dif_neg h2, dif_neg h3, read_write, if_neg h1]

/-- A word after the words from `lo` on became unspecified. -/
@[simp] theorem read_forget (free : Nat → Nat → Word) (m : WordMemory) (lo e j : Nat) :
    (m.forget lo e).read free j = if j < lo then m.read free j else free e j := by
  unfold WordMemory.read WordMemory.forget
  simp only [wordGet_filter_below, epochAt_markStale]
  by_cases h : j < lo
  · simp [h, show ¬ lo ≤ j by omega]
  · simp [h, show lo ≤ j by omega]

theorem write_wf {m : WordMemory} {cap fresh : Nat} (h : m.wf cap fresh) {i : Nat} (hi : i < cap) (w : Word) :
    (m.write i w).wf cap fresh := by
  refine ⟨insert_remove_sorted h.1, fun c hc => ?_, h.2.2⟩
  rcases mem_insertCell.mp hc with rfl | hc
  · exact hi
  · exact h.2.1 c (mem_removeCell.mp hc).1

theorem writeAll_wf (ws : List Word) {m : WordMemory} {cap fresh : Nat} (h : m.wf cap fresh) {i : Nat}
    (hi : i + ws.length ≤ cap) : (m.writeAll i ws).wf cap fresh := by
  induction ws generalizing m i with
  | nil => exact h
  | cons w ws ih =>
    simp only [List.length_cons] at hi
    exact ih (write_wf h (by omega) w) (by omega)

theorem WordMemory.forget_wf {m : WordMemory} {cap fresh : Nat} (h : m.wf cap fresh) (lo : Nat) :
    (m.forget lo fresh).wf cap (fresh + 1) :=
  ⟨h.1.filter _, fun c hc => h.2.1 c (List.mem_filter.mp hc).1, markStale_wf h.2.2 lo⟩

theorem WordMemory.wf_mono {m : WordMemory} {cap f g : Nat} (h : m.wf cap f) (hfg : f ≤ g) : m.wf cap g :=
  ⟨h.1, h.2.1, staleWf_mono h.2.2 hfg⟩

end Sys2Proof.Machine
end

