-- ==== Sys2Proof/Laws/Operands.lean ====
section
/-! SUPPORT. The laws of the operand forms: a bit group and the number it stands for, the counting helpers of R8, zig-zag
(R286). -/

namespace Sys2Proof.Machine

/-! ## Groups -/

@[simp] theorem group_length (v : Word) (n : Nat) : (group v n).length = n := by
  induction n with
  | zero => rfl
  | succ n ih => simp [group, ih]

@[simp] theorem groupNat_length (k n : Nat) : (groupNat k n).length = n := group_length _ _

theorem group_getElem (v : Word) (n j : Nat) (h : j < (group v n).length) :
    (group v n)[j] = v.getLsbD (n - 1 - j) := by
  induction n generalizing j with
  | zero => simp [group] at h
  | succ n ih =>
    cases j with
    | zero => simp [group]
    | succ j =>
      simp only [group, List.getElem_cons_succ]
      rw [ih]; congr 1; omega

theorem bitsToNat_lt (bs : List Bool) : bitsToNat bs < 2 ^ bs.length := by
  induction bs with
  | nil => simp [bitsToNat]
  | cons b bs ih =>
    have : b.toNat ≤ 1 := Bool.toNat_le b
    simp only [bitsToNat, List.length_cons, pow_succ]
    nlinarith [Nat.mul_le_mul_right (2 ^ bs.length) this]

/-- The number of a group is the low bits of the value it was made of. -/
theorem bitsToNat_group (v : Word) (n : Nat) : bitsToNat (group v n) = v.toNat % 2 ^ n := by
  induction n with
  | zero => simp [group, bitsToNat, Nat.mod_one]
  | succ n ih =>
    simp only [group, bitsToNat, group_length, ih]
    rw [Nat.mod_pow_succ, BitVec.getLsbD, Nat.testBit_eq_decide_div_mod_eq]
    have : v.toNat / 2 ^ n % 2 < 2 := Nat.mod_lt _ (by omega)
    rcases (by omega : v.toNat / 2 ^ n % 2 = 0 ∨ v.toNat / 2 ^ n % 2 = 1) with h | h <;> simp [h, Nat.add_comm]

/-- `ReadBits(n)` after `AppendBits(v, n)`: the low `n` bits of `v` (R121, R123). -/
theorem ofGroup_group_toNat (v : Word) {n : Nat} (h : n ≤ 64) : (ofGroup (group v n)).toNat = v.toNat % 2 ^ n := by
  rw [ofGroup, BitVec.toNat_ofNat, bitsToNat_group]
  apply Nat.mod_eq_of_lt
  calc v.toNat % 2 ^ n < 2 ^ n := Nat.mod_lt _ (by positivity)
    _ ≤ 2 ^ 64 := Nat.pow_le_pow_right (by omega) h

@[simp] theorem ofGroup_group_64 (v : Word) : ofGroup (group v 64) = v := by
  apply BitVec.eq_of_toNat_eq
  rw [ofGroup_group_toNat v (le_refl _)]
  exact Nat.mod_eq_of_lt v.isLt

/-- A number that fits its group comes back. -/
theorem ofGroup_groupNat_toNat {k n : Nat} (hn : n ≤ 64) (hk : k < 2 ^ n) : (ofGroup (groupNat k n)).toNat = k := by
  have h64 : k < 2 ^ 64 := lt_of_lt_of_le hk (Nat.pow_le_pow_right (by omega) hn)
  rw [groupNat, ofGroup_group_toNat _ hn, BitVec.toNat_ofNat, Nat.mod_eq_of_lt h64, Nat.mod_eq_of_lt hk]

/-- A group of `n` bits holds a number below `2^n`. -/
theorem ofGroup_toNat_lt (bs : List Bool) : (ofGroup bs).toNat < 2 ^ bs.length := by
  rw [ofGroup, BitVec.toNat_ofNat]
  exact lt_of_le_of_lt (Nat.mod_le _ _) (bitsToNat_lt bs)

theorem bitsToNat_testBit (bs : List Bool) (i : Nat) :
    (bitsToNat bs).testBit i = if h : i < bs.length then bs[bs.length - 1 - i] else false := by
  induction bs generalizing i with
  | nil => simp [bitsToNat]
  | cons b bs ih =>
    have hlt := bitsToNat_lt bs
    simp only [bitsToNat, List.length_cons]
    rw [Nat.mul_comm, Nat.testBit_two_pow_mul_add _ hlt]
    by_cases h : i < bs.length
    · rw [if_pos h, ih, dif_pos h, dif_pos (by omega)]
      have : bs.length + 1 - 1 - i = (bs.length - 1 - i) + 1 := by omega
      simp only [this, List.getElem_cons_succ]
    · rw [if_neg h]
      by_cases h2 : i = bs.length
      · subst h2; cases b <;> simp
      · have h3 : ¬ i < bs.length + 1 := by omega
        rw [dif_neg h3]
        obtain ⟨n, hn⟩ : ∃ n, i - bs.length = n + 1 := ⟨i - bs.length - 1, by omega⟩
        rw [hn]
        cases b <;> simp [Nat.testBit_add_one]

/-- The bits of the pattern a group stands for. -/
theorem getLsbD_ofGroup (bs : List Bool) (hbs : bs.length ≤ 64) (i : Nat) :
    (ofGroup bs).getLsbD i = if h : i < bs.length then bs[bs.length - 1 - i] else false := by
  rw [ofGroup, BitVec.getLsbD_ofNat, bitsToNat_testBit]
  by_cases h : i < bs.length
  · have : i < 64 := by omega
    simp [h, this]
  · simp [h]

/-- A group read and written again is the same bits. -/
theorem group_ofGroup (bs : List Bool) (h : bs.length ≤ 64) : group (ofGroup bs) bs.length = bs := by
  refine List.ext_getElem (by simp) fun j h1 h2 => ?_
  rw [group_getElem, getLsbD_ofGroup bs h, dif_pos (by omega)]
  congr 1; omega

theorem padding_length (n : Nat) : (padding n).length = (8 - n % 8) % 8 := by simp [padding]

theorem add_padding_mod (n : Nat) : (n + (padding n).length) % 8 = 0 := by rw [padding_length]; omega

/-! ## Counting helpers (R8) -/

theorem clz_le (x : Word) : clz x ≤ 64 := by
  have := (List.takeWhile_prefix (l := group x 64) (fun b => !b)).length_le
  simpa [clz] using this

theorem ctz_le (x : Word) : ctz x ≤ 64 := by
  have := (List.takeWhile_prefix (l := (group x 64).reverse) (fun b => !b)).length_le
  simpa [ctz] using this

theorem takeWhile_getElem_false (l : List Bool) (j : Nat) (h : j < (l.takeWhile fun b => !b).length)
    (hl : j < l.length) : l[j] = false := by
  induction l generalizing j with
  | nil => simp at hl
  | cons b l ih =>
    cases b with
    | true => simp at h
    | false =>
      cases j with
      | zero => rfl
      | succ j => simp only [List.getElem_cons_succ]; exact ih j (by simpa using h) _

theorem takeWhile_stops (l : List Bool) (h : (l.takeWhile fun b => !b).length < l.length) :
    l[(l.takeWhile fun b => !b).length] = true := by
  induction l with
  | nil => simp at h
  | cons b l ih =>
    cases b with
    | true => simp
    | false => simpa using ih (by simpa using h)

/-- The `clz x` top bits are 0. -/
theorem getLsbD_of_clz (x : Word) {i : Nat} (hi : 64 - clz x ≤ i) : x.getLsbD i = false := by
  by_cases h64 : i < 64
  · have h := takeWhile_getElem_false (group x 64) (63 - i) (by unfold clz at hi; omega) (by simp; omega)
    rw [group_getElem] at h
    rwa [show 64 - 1 - (63 - i) = i by omega] at h
  · exact BitVec.getLsbD_of_ge x i (by omega)

/-- The `ctz x` low bits are 0. -/
theorem getLsbD_of_ctz (x : Word) {i : Nat} (hi : i < ctz x) : x.getLsbD i = false := by
  have h64 := ctz_le x
  have h := takeWhile_getElem_false (group x 64).reverse i (by unfold ctz at hi; exact hi) (by simp; omega)
  rw [List.getElem_reverse, group_getElem] at h
  simpa [show 64 - 1 - (64 - 1 - i) = i by omega] using h

theorem getLsbD_at_clz (x : Word) (h : clz x < 64) : x.getLsbD (63 - clz x) = true := by
  have := takeWhile_stops (group x 64) (by unfold clz at h; simpa using h)
  rw [group_getElem] at this
  simpa [clz] using this

theorem getLsbD_at_ctz (x : Word) (h : ctz x < 64) : x.getLsbD (ctz x) = true := by
  have := takeWhile_stops (group x 64).reverse (by unfold ctz at h; simpa using h)
  rw [List.getElem_reverse, group_getElem] at this
  have h2 : (List.takeWhile (fun b => !b) (group x 64).reverse).length = ctz x := rfl
  simp only [h2, group_length] at this
  rwa [show 64 - 1 - (64 - 1 - ctz x) = ctz x by omega] at this

/-- `clz(0) = 64` and only that (R8). -/
theorem clz_lt {x : Word} (h : x ≠ 0) : clz x < 64 := by
  by_contra hc
  apply h
  apply BitVec.eq_of_getLsbD_eq
  intro i _
  rw [getLsbD_of_clz x (by omega)]; simp

/-- For a non-zero pattern `clz(x) + ctz(x) <= 63` (R8). -/
theorem clz_add_ctz {x : Word} (h : x ≠ 0) : clz x + ctz x ≤ 63 := by
  have h1 := getLsbD_at_clz x (clz_lt h)
  by_contra hc
  have := getLsbD_of_ctz x (i := 63 - clz x) (by have := clz_lt h; omega)
  rw [this] at h1; exact absurd h1 (by simp)

/-- For a non-zero pattern `lzb(x) + tzb(x) <= 7` (R8). -/
theorem lzb_add_tzb {x : Word} (h : x ≠ 0) : lzb x + tzb x ≤ 7 := by
  have := clz_add_ctz h
  unfold lzb tzb; omega

/-- A pattern whose 1 bits all lie in the `w` bits from `t` on comes back from the group of those bits (R145, R204). -/
theorem window_exact {x : Word} {t w : Nat} (htw : t + w ≤ 64) (hlow : ∀ i, i < t → x.getLsbD i = false)
    (hhigh : ∀ i, t + w ≤ i → x.getLsbD i = false) : ofGroup (group (x >>> t) w) <<< t = x := by
  apply BitVec.eq_of_getLsbD_eq
  intro i hi
  rw [BitVec.getLsbD_shiftLeft, getLsbD_ofGroup _ (by simp; omega)]
  by_cases h1 : i < t
  · simp [h1, hlow i h1]
  · by_cases h2 : i - t < w
    · simp only [group_length, h2, dif_pos]
      rw [group_getElem, BitVec.getLsbD_ushiftRight]
      have : t + (w - 1 - (w - 1 - (i - t))) = i := by omega
      simp [hi, h1, this]
    · simp [h2, hhigh i (by omega)]

/-! ## Zig-zag (R286) -/

/-- `UnZigZag(ZigZag(v)) = v` (R286). -/
theorem unZigZag_zigZag (v : Word) : unZigZag (zigZag v) = v := by
  apply BitVec.eq_of_getLsbD_eq
  intro i hi
  have h0 : (zigZag v).getLsbD 0 = v.getLsbD 63 := by
    unfold zigZag; split <;> simp_all
  unfold unZigZag
  rw [h0]
  unfold zigZag
  simp only [BitVec.getLsbD_xor, BitVec.getLsbD_ushiftRight, BitVec.getLsbD_shiftLeft]
  by_cases h63 : i = 63
  · subst h63
    cases h : v.getLsbD 63 <;> simp
  · have : 1 + i < 64 := by omega
    have hi' : 1 + i - 1 = i := by omega
    cases h : v.getLsbD 63 with
    | false => simp [this, hi]
    | true =>
      simp only [if_true, BitVec.getLsbD_allOnes, this, hi, hi']
      simp

end Sys2Proof.Machine
end

