-- ==== Sys2Proof/Laws/State.lean ====
section
/-! SUPPORT. One lemma per field per update: what each named update of the state leaves of a field it does not write.
All are true by rfl, or by the cases of a kind. -/

namespace Sys2Proof.Machine

/-! ### clearError -/

@[simp] theorem clearError_cfg (s : State) : (clearError s).cfg = s.cfg := rfl
@[simp] theorem clearError_buf (s : State) : (clearError s).buf = s.buf := rfl
@[simp] theorem clearError_src (s : State) : (clearError s).src = s.src := rfl
@[simp] theorem clearError_dst (s : State) : (clearError s).dst = s.dst := rfl
@[simp] theorem clearError_blen (s : State) : (clearError s).blen = s.blen := rfl
@[simp] theorem clearError_rpos (s : State) : (clearError s).rpos = s.rpos := rfl
@[simp] theorem clearError_slen (s : State) : (clearError s).slen = s.slen := rfl
@[simp] theorem clearError_dlen (s : State) : (clearError s).dlen = s.dlen := rfl
@[simp] theorem clearError_val (s : State) : (clearError s).val = s.val := rfl
@[simp] theorem clearError_first (s : State) : (clearError s).first = s.first := rfl
@[simp] theorem clearError_count (s : State) : (clearError s).count = s.count := rfl
@[simp] theorem clearError_tag (s : State) : (clearError s).tag = s.tag := rfl
@[simp] theorem clearError_sumbits (s : State) : (clearError s).sumbits = s.sumbits := rfl
@[simp] theorem clearError_nzpairs (s : State) : (clearError s).nzpairs = s.nzpairs := rfl
@[simp] theorem clearError_repeats (s : State) : (clearError s).repeats = s.repeats := rfl
@[simp] theorem clearError_pairs (s : State) : (clearError s).pairs = s.pairs := rfl
@[simp] theorem clearError_statf (s : State) : (clearError s).statf = s.statf := rfl
@[simp] theorem clearError_fresh (s : State) : (clearError s).fresh = s.fresh := rfl
@[simp] theorem clearError_inputs (s : State) : (clearError s).inputs = s.inputs := rfl
@[simp] theorem clearError_readData (s : State) : (clearError s).readData = s.readData := rfl

/-! ### resetRegisters -/

@[simp] theorem resetRegisters_cfg (s : State) : (resetRegisters s).cfg = s.cfg := rfl
@[simp] theorem resetRegisters_buf (s : State) : (resetRegisters s).buf = s.buf := rfl
@[simp] theorem resetRegisters_src (s : State) : (resetRegisters s).src = s.src := rfl
@[simp] theorem resetRegisters_dst (s : State) : (resetRegisters s).dst = s.dst := rfl
@[simp] theorem resetRegisters_fresh (s : State) : (resetRegisters s).fresh = s.fresh := rfl
@[simp] theorem resetRegisters_inputs (s : State) : (resetRegisters s).inputs = s.inputs := rfl
@[simp] theorem resetRegisters_readData (s : State) : (resetRegisters s).readData = s.readData := rfl

/-! ### hardwareReset -/

@[simp] theorem hardwareReset_cfg (s : State) : (hardwareReset s).cfg = s.cfg := rfl
@[simp] theorem hardwareReset_inputs (s : State) : (hardwareReset s).inputs = s.inputs := rfl
@[simp] theorem hardwareReset_readData (s : State) : (hardwareReset s).readData = s.readData := rfl

/-! ### flush -/

@[simp] theorem flush_cfg (s : State) : (flush s).cfg = s.cfg := rfl
@[simp] theorem flush_src (s : State) : (flush s).src = s.src := rfl
@[simp] theorem flush_dst (s : State) : (flush s).dst = s.dst := rfl
@[simp] theorem flush_rpos (s : State) : (flush s).rpos = s.rpos := rfl
@[simp] theorem flush_slen (s : State) : (flush s).slen = s.slen := rfl
@[simp] theorem flush_dlen (s : State) : (flush s).dlen = s.dlen := rfl
@[simp] theorem flush_val (s : State) : (flush s).val = s.val := rfl
@[simp] theorem flush_first (s : State) : (flush s).first = s.first := rfl
@[simp] theorem flush_count (s : State) : (flush s).count = s.count := rfl
@[simp] theorem flush_tag (s : State) : (flush s).tag = s.tag := rfl
@[simp] theorem flush_sumbits (s : State) : (flush s).sumbits = s.sumbits := rfl
@[simp] theorem flush_nzpairs (s : State) : (flush s).nzpairs = s.nzpairs := rfl
@[simp] theorem flush_repeats (s : State) : (flush s).repeats = s.repeats := rfl
@[simp] theorem flush_pairs (s : State) : (flush s).pairs = s.pairs := rfl
@[simp] theorem flush_statf (s : State) : (flush s).statf = s.statf := rfl
@[simp] theorem flush_status (s : State) : (flush s).status = s.status := rfl
@[simp] theorem flush_fresh (s : State) : (flush s).fresh = s.fresh := rfl
@[simp] theorem flush_inputs (s : State) : (flush s).inputs = s.inputs := rfl
@[simp] theorem flush_readData (s : State) : (flush s).readData = s.readData := rfl

/-! ### readInto -/

@[simp] theorem readInto_cfg (r : Word × Nat) (s : State) : (readInto r s).cfg = s.cfg := rfl
@[simp] theorem readInto_buf (r : Word × Nat) (s : State) : (readInto r s).buf = s.buf := rfl
@[simp] theorem readInto_src (r : Word × Nat) (s : State) : (readInto r s).src = s.src := rfl
@[simp] theorem readInto_dst (r : Word × Nat) (s : State) : (readInto r s).dst = s.dst := rfl
@[simp] theorem readInto_blen (r : Word × Nat) (s : State) : (readInto r s).blen = s.blen := rfl
@[simp] theorem readInto_slen (r : Word × Nat) (s : State) : (readInto r s).slen = s.slen := rfl
@[simp] theorem readInto_dlen (r : Word × Nat) (s : State) : (readInto r s).dlen = s.dlen := rfl
@[simp] theorem readInto_first (r : Word × Nat) (s : State) : (readInto r s).first = s.first := rfl
@[simp] theorem readInto_count (r : Word × Nat) (s : State) : (readInto r s).count = s.count := rfl
@[simp] theorem readInto_tag (r : Word × Nat) (s : State) : (readInto r s).tag = s.tag := rfl
@[simp] theorem readInto_sumbits (r : Word × Nat) (s : State) : (readInto r s).sumbits = s.sumbits := rfl
@[simp] theorem readInto_nzpairs (r : Word × Nat) (s : State) : (readInto r s).nzpairs = s.nzpairs := rfl
@[simp] theorem readInto_repeats (r : Word × Nat) (s : State) : (readInto r s).repeats = s.repeats := rfl
@[simp] theorem readInto_pairs (r : Word × Nat) (s : State) : (readInto r s).pairs = s.pairs := rfl
@[simp] theorem readInto_statf (r : Word × Nat) (s : State) : (readInto r s).statf = s.statf := rfl
@[simp] theorem readInto_status (r : Word × Nat) (s : State) : (readInto r s).status = s.status := rfl
@[simp] theorem readInto_fresh (r : Word × Nat) (s : State) : (readInto r s).fresh = s.fresh := rfl
@[simp] theorem readInto_inputs (r : Word × Nat) (s : State) : (readInto r s).inputs = s.inputs := rfl
@[simp] theorem readInto_readData (r : Word × Nat) (s : State) : (readInto r s).readData = s.readData := rfl

/-! ### forgetTail -/

@[simp] theorem forgetTail_cfg (s : State) : (forgetTail s).cfg = s.cfg := rfl
@[simp] theorem forgetTail_src (s : State) : (forgetTail s).src = s.src := rfl
@[simp] theorem forgetTail_dst (s : State) : (forgetTail s).dst = s.dst := rfl
@[simp] theorem forgetTail_blen (s : State) : (forgetTail s).blen = s.blen := rfl
@[simp] theorem forgetTail_rpos (s : State) : (forgetTail s).rpos = s.rpos := rfl
@[simp] theorem forgetTail_slen (s : State) : (forgetTail s).slen = s.slen := rfl
@[simp] theorem forgetTail_dlen (s : State) : (forgetTail s).dlen = s.dlen := rfl
@[simp] theorem forgetTail_val (s : State) : (forgetTail s).val = s.val := rfl
@[simp] theorem forgetTail_first (s : State) : (forgetTail s).first = s.first := rfl
@[simp] theorem forgetTail_count (s : State) : (forgetTail s).count = s.count := rfl
@[simp] theorem forgetTail_tag (s : State) : (forgetTail s).tag = s.tag := rfl
@[simp] theorem forgetTail_sumbits (s : State) : (forgetTail s).sumbits = s.sumbits := rfl
@[simp] theorem forgetTail_nzpairs (s : State) : (forgetTail s).nzpairs = s.nzpairs := rfl
@[simp] theorem forgetTail_repeats (s : State) : (forgetTail s).repeats = s.repeats := rfl
@[simp] theorem forgetTail_pairs (s : State) : (forgetTail s).pairs = s.pairs := rfl
@[simp] theorem forgetTail_statf (s : State) : (forgetTail s).statf = s.statf := rfl
@[simp] theorem forgetTail_status (s : State) : (forgetTail s).status = s.status := rfl
@[simp] theorem forgetTail_inputs (s : State) : (forgetTail s).inputs = s.inputs := rfl
@[simp] theorem forgetTail_readData (s : State) : (forgetTail s).readData = s.readData := rfl

/-! ### emptyStream -/

@[simp] theorem emptyStream_cfg (s : State) : (emptyStream s).cfg = s.cfg := rfl
@[simp] theorem emptyStream_src (s : State) : (emptyStream s).src = s.src := rfl
@[simp] theorem emptyStream_dst (s : State) : (emptyStream s).dst = s.dst := rfl
@[simp] theorem emptyStream_slen (s : State) : (emptyStream s).slen = s.slen := rfl
@[simp] theorem emptyStream_dlen (s : State) : (emptyStream s).dlen = s.dlen := rfl
@[simp] theorem emptyStream_val (s : State) : (emptyStream s).val = s.val := rfl
@[simp] theorem emptyStream_first (s : State) : (emptyStream s).first = s.first := rfl
@[simp] theorem emptyStream_count (s : State) : (emptyStream s).count = s.count := rfl
@[simp] theorem emptyStream_tag (s : State) : (emptyStream s).tag = s.tag := rfl
@[simp] theorem emptyStream_sumbits (s : State) : (emptyStream s).sumbits = s.sumbits := rfl
@[simp] theorem emptyStream_nzpairs (s : State) : (emptyStream s).nzpairs = s.nzpairs := rfl
@[simp] theorem emptyStream_repeats (s : State) : (emptyStream s).repeats = s.repeats := rfl
@[simp] theorem emptyStream_pairs (s : State) : (emptyStream s).pairs = s.pairs := rfl
@[simp] theorem emptyStream_statf (s : State) : (emptyStream s).statf = s.statf := rfl
@[simp] theorem emptyStream_status (s : State) : (emptyStream s).status = s.status := rfl
@[simp] theorem emptyStream_inputs (s : State) : (emptyStream s).inputs = s.inputs := rfl
@[simp] theorem emptyStream_readData (s : State) : (emptyStream s).readData = s.readData := rfl

/-! ### compressEnd -/

@[simp] theorem compressEnd_cfg (s : State) : (compressEnd s).cfg = s.cfg := rfl
@[simp] theorem compressEnd_src (s : State) : (compressEnd s).src = s.src := rfl
@[simp] theorem compressEnd_dst (s : State) : (compressEnd s).dst = s.dst := rfl
@[simp] theorem compressEnd_rpos (s : State) : (compressEnd s).rpos = s.rpos := rfl
@[simp] theorem compressEnd_slen (s : State) : (compressEnd s).slen = s.slen := rfl
@[simp] theorem compressEnd_dlen (s : State) : (compressEnd s).dlen = s.dlen := rfl
@[simp] theorem compressEnd_val (s : State) : (compressEnd s).val = s.val := rfl
@[simp] theorem compressEnd_tag (s : State) : (compressEnd s).tag = s.tag := rfl
@[simp] theorem compressEnd_sumbits (s : State) : (compressEnd s).sumbits = s.sumbits := rfl
@[simp] theorem compressEnd_nzpairs (s : State) : (compressEnd s).nzpairs = s.nzpairs := rfl
@[simp] theorem compressEnd_repeats (s : State) : (compressEnd s).repeats = s.repeats := rfl
@[simp] theorem compressEnd_pairs (s : State) : (compressEnd s).pairs = s.pairs := rfl
@[simp] theorem compressEnd_statf (s : State) : (compressEnd s).statf = s.statf := rfl
@[simp] theorem compressEnd_status (s : State) : (compressEnd s).status = s.status := rfl
@[simp] theorem compressEnd_fresh (s : State) : (compressEnd s).fresh = s.fresh := rfl
@[simp] theorem compressEnd_inputs (s : State) : (compressEnd s).inputs = s.inputs := rfl
@[simp] theorem compressEnd_readData (s : State) : (compressEnd s).readData = s.readData := rfl

/-! ### emitAll -/

@[simp] theorem emitAll_cfg (items : List Word) (pos : Nat) (s : State) : (emitAll items pos s).cfg = s.cfg := rfl
@[simp] theorem emitAll_buf (items : List Word) (pos : Nat) (s : State) : (emitAll items pos s).buf = s.buf := rfl
@[simp] theorem emitAll_src (items : List Word) (pos : Nat) (s : State) : (emitAll items pos s).src = s.src := rfl
@[simp] theorem emitAll_blen (items : List Word) (pos : Nat) (s : State) : (emitAll items pos s).blen = s.blen := rfl
@[simp] theorem emitAll_slen (items : List Word) (pos : Nat) (s : State) : (emitAll items pos s).slen = s.slen := rfl
@[simp] theorem emitAll_val (items : List Word) (pos : Nat) (s : State) : (emitAll items pos s).val = s.val := rfl
@[simp] theorem emitAll_first (items : List Word) (pos : Nat) (s : State) : (emitAll items pos s).first = s.first := rfl
@[simp] theorem emitAll_count (items : List Word) (pos : Nat) (s : State) : (emitAll items pos s).count = s.count := rfl
@[simp] theorem emitAll_tag (items : List Word) (pos : Nat) (s : State) : (emitAll items pos s).tag = s.tag := rfl
@[simp] theorem emitAll_sumbits (items : List Word) (pos : Nat) (s : State) : (emitAll items pos s).sumbits = s.sumbits := rfl
@[simp] theorem emitAll_nzpairs (items : List Word) (pos : Nat) (s : State) : (emitAll items pos s).nzpairs = s.nzpairs := rfl
@[simp] theorem emitAll_repeats (items : List Word) (pos : Nat) (s : State) : (emitAll items pos s).repeats = s.repeats := rfl
@[simp] theorem emitAll_pairs (items : List Word) (pos : Nat) (s : State) : (emitAll items pos s).pairs = s.pairs := rfl
@[simp] theorem emitAll_statf (items : List Word) (pos : Nat) (s : State) : (emitAll items pos s).statf = s.statf := rfl
@[simp] theorem emitAll_status (items : List Word) (pos : Nat) (s : State) : (emitAll items pos s).status = s.status := rfl
@[simp] theorem emitAll_inputs (items : List Word) (pos : Nat) (s : State) : (emitAll items pos s).inputs = s.inputs := rfl
@[simp] theorem emitAll_readData (items : List Word) (pos : Nat) (s : State) : (emitAll items pos s).readData = s.readData := rfl

/-! ### statsPass -/

@[simp] theorem statsPass_cfg (s : State) : (statsPass s).cfg = s.cfg := rfl
@[simp] theorem statsPass_buf (s : State) : (statsPass s).buf = s.buf := rfl
@[simp] theorem statsPass_src (s : State) : (statsPass s).src = s.src := rfl
@[simp] theorem statsPass_dst (s : State) : (statsPass s).dst = s.dst := rfl
@[simp] theorem statsPass_blen (s : State) : (statsPass s).blen = s.blen := rfl
@[simp] theorem statsPass_rpos (s : State) : (statsPass s).rpos = s.rpos := rfl
@[simp] theorem statsPass_slen (s : State) : (statsPass s).slen = s.slen := rfl
@[simp] theorem statsPass_dlen (s : State) : (statsPass s).dlen = s.dlen := rfl
@[simp] theorem statsPass_val (s : State) : (statsPass s).val = s.val := rfl
@[simp] theorem statsPass_first (s : State) : (statsPass s).first = s.first := rfl
@[simp] theorem statsPass_count (s : State) : (statsPass s).count = s.count := rfl
@[simp] theorem statsPass_tag (s : State) : (statsPass s).tag = s.tag := rfl
@[simp] theorem statsPass_status (s : State) : (statsPass s).status = s.status := rfl
@[simp] theorem statsPass_fresh (s : State) : (statsPass s).fresh = s.fresh := rfl
@[simp] theorem statsPass_inputs (s : State) : (statsPass s).inputs = s.inputs := rfl
@[simp] theorem statsPass_readData (s : State) : (statsPass s).readData = s.readData := rfl

/-! ### issueWord -/

@[simp] theorem issueWord_cfg (w : CmdWord) (s : State) : (issueWord w s).cfg = s.cfg := rfl
@[simp] theorem issueWord_buf (w : CmdWord) (s : State) : (issueWord w s).buf = s.buf := rfl
@[simp] theorem issueWord_src (w : CmdWord) (s : State) : (issueWord w s).src = s.src := rfl
@[simp] theorem issueWord_dst (w : CmdWord) (s : State) : (issueWord w s).dst = s.dst := rfl
@[simp] theorem issueWord_blen (w : CmdWord) (s : State) : (issueWord w s).blen = s.blen := rfl
@[simp] theorem issueWord_rpos (w : CmdWord) (s : State) : (issueWord w s).rpos = s.rpos := rfl
@[simp] theorem issueWord_slen (w : CmdWord) (s : State) : (issueWord w s).slen = s.slen := rfl
@[simp] theorem issueWord_dlen (w : CmdWord) (s : State) : (issueWord w s).dlen = s.dlen := rfl
@[simp] theorem issueWord_val (w : CmdWord) (s : State) : (issueWord w s).val = s.val := rfl
@[simp] theorem issueWord_first (w : CmdWord) (s : State) : (issueWord w s).first = s.first := rfl
@[simp] theorem issueWord_count (w : CmdWord) (s : State) : (issueWord w s).count = s.count := rfl
@[simp] theorem issueWord_tag (w : CmdWord) (s : State) : (issueWord w s).tag = s.tag := rfl
@[simp] theorem issueWord_sumbits (w : CmdWord) (s : State) : (issueWord w s).sumbits = s.sumbits := rfl
@[simp] theorem issueWord_nzpairs (w : CmdWord) (s : State) : (issueWord w s).nzpairs = s.nzpairs := rfl
@[simp] theorem issueWord_repeats (w : CmdWord) (s : State) : (issueWord w s).repeats = s.repeats := rfl
@[simp] theorem issueWord_pairs (w : CmdWord) (s : State) : (issueWord w s).pairs = s.pairs := rfl
@[simp] theorem issueWord_statf (w : CmdWord) (s : State) : (issueWord w s).statf = s.statf := rfl
@[simp] theorem issueWord_status (w : CmdWord) (s : State) : (issueWord w s).status = s.status := rfl
@[simp] theorem issueWord_fresh (w : CmdWord) (s : State) : (issueWord w s).fresh = s.fresh := rfl
@[simp] theorem issueWord_readData (w : CmdWord) (s : State) : (issueWord w s).readData = s.readData := rfl

/-! ### rollback -/

@[simp] theorem rollback_cfg (k : CommandKind) (s : State) : (rollback k s).cfg = s.cfg := by cases k <;> rfl
@[simp] theorem rollback_src (k : CommandKind) (s : State) : (rollback k s).src = s.src := by cases k <;> rfl
@[simp] theorem rollback_slen (k : CommandKind) (s : State) : (rollback k s).slen = s.slen := by cases k <;> rfl
@[simp] theorem rollback_dlen (k : CommandKind) (s : State) : (rollback k s).dlen = s.dlen := by cases k <;> rfl
@[simp] theorem rollback_val (k : CommandKind) (s : State) : (rollback k s).val = s.val := by cases k <;> rfl
@[simp] theorem rollback_first (k : CommandKind) (s : State) : (rollback k s).first = s.first := by cases k <;> rfl
@[simp] theorem rollback_count (k : CommandKind) (s : State) : (rollback k s).count = s.count := by cases k <;> rfl
@[simp] theorem rollback_tag (k : CommandKind) (s : State) : (rollback k s).tag = s.tag := by cases k <;> rfl
@[simp] theorem rollback_sumbits (k : CommandKind) (s : State) : (rollback k s).sumbits = s.sumbits := by cases k <;> rfl
@[simp] theorem rollback_nzpairs (k : CommandKind) (s : State) : (rollback k s).nzpairs = s.nzpairs := by cases k <;> rfl
@[simp] theorem rollback_repeats (k : CommandKind) (s : State) : (rollback k s).repeats = s.repeats := by cases k <;> rfl
@[simp] theorem rollback_pairs (k : CommandKind) (s : State) : (rollback k s).pairs = s.pairs := by cases k <;> rfl
@[simp] theorem rollback_statf (k : CommandKind) (s : State) : (rollback k s).statf = s.statf := by cases k <;> rfl
@[simp] theorem rollback_status (k : CommandKind) (s : State) : (rollback k s).status = s.status := by cases k <;> rfl
@[simp] theorem rollback_inputs (k : CommandKind) (s : State) : (rollback k s).inputs = s.inputs := by cases k <;> rfl
@[simp] theorem rollback_readData (k : CommandKind) (s : State) : (rollback k s).readData = s.readData := by cases k <;> rfl

/-! ### raise -/

@[simp] theorem raise_cfg (k : CommandKind) (c : Cause) (opc : BitVec 8) (s : State) : (raise k c opc s).cfg = s.cfg := by cases k <;> rfl
@[simp] theorem raise_src (k : CommandKind) (c : Cause) (opc : BitVec 8) (s : State) : (raise k c opc s).src = s.src := by cases k <;> rfl
@[simp] theorem raise_slen (k : CommandKind) (c : Cause) (opc : BitVec 8) (s : State) : (raise k c opc s).slen = s.slen := by cases k <;> rfl
@[simp] theorem raise_dlen (k : CommandKind) (c : Cause) (opc : BitVec 8) (s : State) : (raise k c opc s).dlen = s.dlen := by cases k <;> rfl
@[simp] theorem raise_val (k : CommandKind) (c : Cause) (opc : BitVec 8) (s : State) : (raise k c opc s).val = s.val := by cases k <;> rfl
@[simp] theorem raise_first (k : CommandKind) (c : Cause) (opc : BitVec 8) (s : State) : (raise k c opc s).first = s.first := by cases k <;> rfl
@[simp] theorem raise_count (k : CommandKind) (c : Cause) (opc : BitVec 8) (s : State) : (raise k c opc s).count = s.count := by cases k <;> rfl
@[simp] theorem raise_tag (k : CommandKind) (c : Cause) (opc : BitVec 8) (s : State) : (raise k c opc s).tag = s.tag := by cases k <;> rfl
@[simp] theorem raise_sumbits (k : CommandKind) (c : Cause) (opc : BitVec 8) (s : State) : (raise k c opc s).sumbits = s.sumbits := by cases k <;> rfl
@[simp] theorem raise_nzpairs (k : CommandKind) (c : Cause) (opc : BitVec 8) (s : State) : (raise k c opc s).nzpairs = s.nzpairs := by cases k <;> rfl
@[simp] theorem raise_repeats (k : CommandKind) (c : Cause) (opc : BitVec 8) (s : State) : (raise k c opc s).repeats = s.repeats := by cases k <;> rfl
@[simp] theorem raise_pairs (k : CommandKind) (c : Cause) (opc : BitVec 8) (s : State) : (raise k c opc s).pairs = s.pairs := by cases k <;> rfl
@[simp] theorem raise_statf (k : CommandKind) (c : Cause) (opc : BitVec 8) (s : State) : (raise k c opc s).statf = s.statf := by cases k <;> rfl
@[simp] theorem raise_inputs (k : CommandKind) (c : Cause) (opc : BitVec 8) (s : State) : (raise k c opc s).inputs = s.inputs := by cases k <;> rfl
@[simp] theorem raise_readData (k : CommandKind) (c : Cause) (opc : BitVec 8) (s : State) : (raise k c opc s).readData = s.readData := by cases k <;> rfl

/-! ### The fields an update writes -/

@[simp] theorem clearError_status (s : State) :
    (clearError s).status = 0 := rfl
@[simp] theorem readInto_val (r : Word × Nat) (s : State) :
    (readInto r s).val = r.1 := rfl
@[simp] theorem readInto_rpos (r : Word × Nat) (s : State) :
    (readInto r s).rpos = BitVec.ofNat 32 r.2 := rfl
@[simp] theorem forgetTail_buf (s : State) :
    (forgetTail s).buf = s.buf.forget s.blen.toNat s.fresh := rfl
@[simp] theorem forgetTail_fresh (s : State) :
    (forgetTail s).fresh = s.fresh + 1 := rfl
@[simp] theorem emptyStream_blen (s : State) :
    (emptyStream s).blen = 0 := rfl
@[simp] theorem emptyStream_rpos (s : State) :
    (emptyStream s).rpos = 0 := rfl
@[simp] theorem emptyStream_buf (s : State) :
    (emptyStream s).buf = s.buf.forget 0 s.fresh := rfl
@[simp] theorem emptyStream_fresh (s : State) :
    (emptyStream s).fresh = s.fresh + 1 := rfl
@[simp] theorem compressEnd_first (s : State) :
    (compressEnd s).first = s.srcAt 0 := rfl
@[simp] theorem compressEnd_count (s : State) :
    (compressEnd s).count = s.slen := rfl
@[simp] theorem compressEnd_buf (s : State) :
    (compressEnd s).buf = (flush s).buf := rfl
@[simp] theorem compressEnd_blen (s : State) :
    (compressEnd s).blen = (flush s).blen := rfl
@[simp] theorem emitAll_dlen (items : List Word) (pos : Nat) (s : State) :
    (emitAll items pos s).dlen = BitVec.ofNat 32 (s.dlen.toNat + items.length) := rfl
@[simp] theorem emitAll_rpos (items : List Word) (pos : Nat) (s : State) :
    (emitAll items pos s).rpos = BitVec.ofNat 32 pos := rfl
@[simp] theorem raise_status (k : CommandKind) (c : Cause) (opc : BitVec 8) (s : State) :
    (raise k c opc s).status = statusWord c opc := rfl
@[simp] theorem raise_illegal (c : Cause) (opc : BitVec 8) (s : State) :
    raise .illegal c opc s = { s with status := statusWord c opc } := rfl
@[simp] theorem raise_primitive_blen (c : Cause) (opc : BitVec 8) (s : State) :
    (raise .primitive c opc s).blen = s.blen := rfl
@[simp] theorem raise_primitive_rpos (c : Cause) (opc : BitVec 8) (s : State) :
    (raise .primitive c opc s).rpos = s.rpos := rfl
@[simp] theorem raise_primitive_dst (c : Cause) (opc : BitVec 8) (s : State) :
    (raise .primitive c opc s).dst = s.dst := rfl
@[simp] theorem raise_primitive_buf (c : Cause) (opc : BitVec 8) (s : State) :
    (raise .primitive c opc s).buf = s.buf.forget s.blen.toNat s.fresh := rfl
@[simp] theorem raise_compress_blen (c : Cause) (opc : BitVec 8) (s : State) :
    (raise .compress c opc s).blen = 0 := rfl
@[simp] theorem raise_compress_rpos (c : Cause) (opc : BitVec 8) (s : State) :
    (raise .compress c opc s).rpos = 0 := rfl
@[simp] theorem raise_compress_dst (c : Cause) (opc : BitVec 8) (s : State) :
    (raise .compress c opc s).dst = s.dst := rfl
@[simp] theorem raise_compress_buf (c : Cause) (opc : BitVec 8) (s : State) :
    (raise .compress c opc s).buf = s.buf.forget 0 s.fresh := rfl
@[simp] theorem raise_decompress_blen (c : Cause) (opc : BitVec 8) (s : State) :
    (raise .decompress c opc s).blen = s.blen := rfl
@[simp] theorem raise_decompress_rpos (c : Cause) (opc : BitVec 8) (s : State) :
    (raise .decompress c opc s).rpos = 0 := rfl
@[simp] theorem raise_decompress_buf (c : Cause) (opc : BitVec 8) (s : State) :
    (raise .decompress c opc s).buf = s.buf := rfl
@[simp] theorem raise_decompress_dst (c : Cause) (opc : BitVec 8) (s : State) :
    (raise .decompress c opc s).dst = s.dst.forget s.dlen.toNat s.fresh := rfl
@[simp] theorem issueWord_inputs (w : CmdWord) (s : State) :
    (issueWord w s).inputs = .writeReg 0 (w.setWidth 64) :: s.inputs := rfl

/-! ### What is read through other fields -/

@[simp] theorem clearError_srcAt (s : State) (i : Nat) : (clearError s).srcAt i = s.srcAt i := rfl
@[simp] theorem clearError_srcItems (s : State) : (clearError s).srcItems = s.srcItems := rfl
@[simp] theorem clearError_dstAt (s : State) (i : Nat) : (clearError s).dstAt i = s.dstAt i := rfl
@[simp] theorem clearError_bufBits (s : State) : (clearError s).bufBits = s.bufBits := rfl
@[simp] theorem resetRegisters_srcAt (s : State) (i : Nat) : (resetRegisters s).srcAt i = s.srcAt i := rfl
@[simp] theorem resetRegisters_dstAt (s : State) (i : Nat) : (resetRegisters s).dstAt i = s.dstAt i := rfl
@[simp] theorem resetRegisters_bufBits (s : State) : (resetRegisters s).bufBits = s.bufBits := rfl
@[simp] theorem hardwareReset_bufBits (s : State) : (hardwareReset s).bufBits = s.bufBits := rfl
@[simp] theorem flush_srcAt (s : State) (i : Nat) : (flush s).srcAt i = s.srcAt i := rfl
@[simp] theorem flush_srcItems (s : State) : (flush s).srcItems = s.srcItems := rfl
@[simp] theorem flush_dstAt (s : State) (i : Nat) : (flush s).dstAt i = s.dstAt i := rfl
@[simp] theorem flush_bufBits (s : State) : (flush s).bufBits = s.bufBits := rfl
@[simp] theorem readInto_srcAt (r : Word × Nat) (s : State) (i : Nat) : (readInto r s).srcAt i = s.srcAt i := rfl
@[simp] theorem readInto_srcItems (r : Word × Nat) (s : State) : (readInto r s).srcItems = s.srcItems := rfl
@[simp] theorem readInto_dstAt (r : Word × Nat) (s : State) (i : Nat) : (readInto r s).dstAt i = s.dstAt i := rfl
@[simp] theorem readInto_bufBits (r : Word × Nat) (s : State) : (readInto r s).bufBits = s.bufBits := rfl
@[simp] theorem forgetTail_srcAt (s : State) (i : Nat) : (forgetTail s).srcAt i = s.srcAt i := rfl
@[simp] theorem forgetTail_srcItems (s : State) : (forgetTail s).srcItems = s.srcItems := rfl
@[simp] theorem forgetTail_dstAt (s : State) (i : Nat) : (forgetTail s).dstAt i = s.dstAt i := rfl
@[simp] theorem forgetTail_bufBits (s : State) : (forgetTail s).bufBits = s.bufBits := rfl
@[simp] theorem emptyStream_srcAt (s : State) (i : Nat) : (emptyStream s).srcAt i = s.srcAt i := rfl
@[simp] theorem emptyStream_srcItems (s : State) : (emptyStream s).srcItems = s.srcItems := rfl
@[simp] theorem emptyStream_dstAt (s : State) (i : Nat) : (emptyStream s).dstAt i = s.dstAt i := rfl
@[simp] theorem emptyStream_bufBits (s : State) : (emptyStream s).bufBits = s.bufBits := rfl
@[simp] theorem compressEnd_srcAt (s : State) (i : Nat) : (compressEnd s).srcAt i = s.srcAt i := rfl
@[simp] theorem compressEnd_srcItems (s : State) : (compressEnd s).srcItems = s.srcItems := rfl
@[simp] theorem compressEnd_dstAt (s : State) (i : Nat) : (compressEnd s).dstAt i = s.dstAt i := rfl
@[simp] theorem compressEnd_bufBits (s : State) : (compressEnd s).bufBits = s.bufBits := rfl
@[simp] theorem emitAll_srcAt (items : List Word) (pos : Nat) (s : State) (i : Nat) : (emitAll items pos s).srcAt i = s.srcAt i := rfl
@[simp] theorem emitAll_srcItems (items : List Word) (pos : Nat) (s : State) : (emitAll items pos s).srcItems = s.srcItems := rfl
@[simp] theorem emitAll_bufBits (items : List Word) (pos : Nat) (s : State) : (emitAll items pos s).bufBits = s.bufBits := rfl
@[simp] theorem statsPass_srcAt (s : State) (i : Nat) : (statsPass s).srcAt i = s.srcAt i := rfl
@[simp] theorem statsPass_srcItems (s : State) : (statsPass s).srcItems = s.srcItems := rfl
@[simp] theorem statsPass_dstAt (s : State) (i : Nat) : (statsPass s).dstAt i = s.dstAt i := rfl
@[simp] theorem statsPass_bufBits (s : State) : (statsPass s).bufBits = s.bufBits := rfl
@[simp] theorem issueWord_srcAt (w : CmdWord) (s : State) (i : Nat) : (issueWord w s).srcAt i = s.srcAt i := rfl
@[simp] theorem issueWord_srcItems (w : CmdWord) (s : State) : (issueWord w s).srcItems = s.srcItems := rfl
@[simp] theorem issueWord_dstAt (w : CmdWord) (s : State) (i : Nat) : (issueWord w s).dstAt i = s.dstAt i := rfl
@[simp] theorem issueWord_bufBits (w : CmdWord) (s : State) : (issueWord w s).bufBits = s.bufBits := rfl
@[simp] theorem rollback_srcAt (k : CommandKind) (s : State) (i : Nat) : (rollback k s).srcAt i = s.srcAt i := by cases k <;> rfl
@[simp] theorem rollback_srcItems (k : CommandKind) (s : State) : (rollback k s).srcItems = s.srcItems := by cases k <;> rfl
@[simp] theorem rollback_bufBits (k : CommandKind) (s : State) : (rollback k s).bufBits = s.bufBits := by cases k <;> rfl
@[simp] theorem raise_srcAt (k : CommandKind) (c : Cause) (opc : BitVec 8) (s : State) (i : Nat) : (raise k c opc s).srcAt i = s.srcAt i := by cases k <;> rfl
@[simp] theorem raise_srcItems (k : CommandKind) (c : Cause) (opc : BitVec 8) (s : State) : (raise k c opc s).srcItems = s.srcItems := by cases k <;> rfl
@[simp] theorem raise_bufBits (k : CommandKind) (c : Cause) (opc : BitVec 8) (s : State) : (raise k c opc s).bufBits = s.bufBits := by cases k <;> rfl

end Sys2Proof.Machine
end

