-- ==== Sys2Proof/Laws/Ops.lean ====
section
/-! SUPPORT. One specification lemma per shared operation: what it answers and when, which the proofs about commands cite
instead of unfolding it. -/

namespace Sys2Proof.Machine

/-! ## Sequencing in `Except` -/

/-- A sequence that answers a value: both parts do. -/
theorem bind_eq_ok {α β : Type} {x : Except Cause α} {f : α → Except Cause β} {b : β} :
    (x >>= f) = .ok b ↔ ∃ a, x = .ok a ∧ f a = .ok b := by
  cases x with
  | error c => simp [bind, Except.bind]
  | ok a => simp [bind, Except.bind]

/-- A sequence that raises: the first part does, or it answers and the second part raises. -/
theorem bind_eq_error {α β : Type} {x : Except Cause α} {f : α → Except Cause β} {c : Cause} :
    (x >>= f) = .error c ↔ x = .error c ∨ ∃ a, x = .ok a ∧ f a = .error c := by
  cases x with
  | error c => simp [bind, Except.bind]
  | ok a => simp [bind, Except.bind]

@[simp] theorem ok_bind {α β : Type} (a : α) (f : α → Except Cause β) : ((Except.ok a : Except Cause α) >>= f) = f a :=
  rfl

@[simp] theorem error_bind {α β : Type} (c : Cause) (f : α → Except Cause β) :
    ((Except.error c : Except Cause α) >>= f) = .error c := rfl

/-! ## The raise -/

theorem statusWord_err (c : Cause) (opc : BitVec 8) : (statusWord c opc).extractLsb' 0 4 = BitVec.ofNat 4 c.cls := by
  cases c <;> (simp only [statusWord, Cause.sub, Cause.cls]; revert opc; decide)

theorem statusWord_sub (c : Cause) (opc : BitVec 8) : (statusWord c opc).extractLsb' 8 8 = BitVec.ofNat 8 c.sub := by
  cases c <;> (simp only [statusWord, Cause.sub, Cause.cls]; revert opc; decide)

theorem statusWord_eopc (c : Cause) (opc : BitVec 8) : (statusWord c opc).extractLsb' 16 8 = opc := by
  cases c <;> (simp only [statusWord, Cause.sub, Cause.cls]; revert opc; decide)

/-- The class of a recorded error (R301, R304). -/
theorem raise_err (kind : CommandKind) (c : Cause) (opc : BitVec 8) (s : State) :
    (raise kind c opc s).err = BitVec.ofNat 4 c.cls := statusWord_err c opc

theorem statusWord_reserved (c : Cause) (opc : BitVec 8) : statusWord c opc &&& 0xFF0000F0 = 0 := by
  cases c <;> (simp only [statusWord, Cause.sub, Cause.cls]; revert opc; decide)

theorem cls_pos (c : Cause) : 1 ≤ c.cls := by cases c <;> decide

theorem cls_le (c : Cause) : c.cls ≤ 5 := by cases c <;> decide

/-- A raise always leaves the block faulted (R304, R308). -/
theorem raise_faulted (kind : CommandKind) (c : Cause) (opc : BitVec 8) (s : State) :
    (raise kind c opc s).faulted = true := by
  unfold State.faulted
  rw [raise_err]
  cases c <;> decide

/-! ## Reading the stream -/

/-- `GetBit` answers exactly where a bit is left (R122). -/
theorem getBit_eq_ok {s : State} {pos : Nat} {r : Bool × Nat} :
    getBit s pos = .ok r ↔ pos + 1 ≤ s.blen.toNat ∧ r = (s.buf.bit pos, pos + 1) := by
  unfold getBit
  split
  · rename_i h; constructor
    · intro h'; cases h'
    · rintro ⟨h', -⟩; omega
  · rename_i h; constructor
    · intro h'; cases h'; exact ⟨by omega, rfl⟩
    · rintro ⟨-, rfl⟩; rfl

/-- `GetBit` raises `EOS(BITS)` and nothing else (R122). -/
theorem getBit_eq_error {s : State} {pos : Nat} {c : Cause} :
    getBit s pos = .error c ↔ s.blen.toNat < pos + 1 ∧ c = .eosBits := by
  unfold getBit
  split
  · rename_i h; constructor
    · intro h'; cases h'; exact ⟨by omega, rfl⟩
    · rintro ⟨-, rfl⟩; rfl
  · rename_i h; constructor
    · intro h'; cases h'
    · rintro ⟨h', -⟩; omega

/-- `Get(n)` answers exactly where `n` bits are left (R123). -/
theorem getBits_eq_ok {s : State} {pos n : Nat} {r : Word × Nat} :
    getBits s pos n = .ok r ↔ pos + n ≤ s.blen.toNat ∧ r = (ofGroup (s.buf.bits pos n), pos + n) := by
  unfold getBits
  split
  · rename_i h; constructor
    · intro h'; cases h'
    · rintro ⟨h', -⟩; omega
  · rename_i h; constructor
    · intro h'; cases h'; exact ⟨by omega, rfl⟩
    · rintro ⟨-, rfl⟩; rfl

/-- `Get(n)` raises `EOS(BITS)` and nothing else (R123). -/
theorem getBits_eq_error {s : State} {pos n : Nat} {c : Cause} :
    getBits s pos n = .error c ↔ s.blen.toNat < pos + n ∧ c = .eosBits := by
  unfold getBits
  split
  · rename_i h; constructor
    · intro h'; cases h'; exact ⟨by omega, rfl⟩
    · rintro ⟨-, rfl⟩; rfl
  · rename_i h; constructor
    · intro h'; cases h'
    · rintro ⟨h', -⟩; omega

/-- What is held after a sequence is held. -/
theorem holdsAt_append {s : State} {pos : Nat} {a b : List Bool} :
    s.holdsAt pos (a ++ b) ↔ s.holdsAt pos a ∧ s.holdsAt (pos + a.length) b := by
  unfold State.holdsAt
  rw [List.length_append, bits_append]
  constructor
  · rintro ⟨h1, h2⟩
    have := List.append_inj h2 (by simp)
    exact ⟨⟨by omega, this.1⟩, ⟨by omega, this.2⟩⟩
  · rintro ⟨⟨h1, h2⟩, ⟨h3, h4⟩⟩
    exact ⟨by omega, by rw [h2, h4]⟩

theorem holdsAt_nil {s : State} {pos : Nat} : s.holdsAt pos [] ↔ pos ≤ s.blen.toNat := by
  simp [State.holdsAt, ByteMemory.bits]

/-- Reading a held group gives the number it stands for (R123). -/
theorem getBits_of_holdsAt {s : State} {pos : Nat} {bs : List Bool} (h : s.holdsAt pos bs) :
    getBits s pos bs.length = .ok (ofGroup bs, pos + bs.length) := by
  rw [getBits_eq_ok]; exact ⟨h.1, by rw [h.2]⟩

theorem getBits_group {s : State} {pos n : Nat} {v : Word} (h : s.holdsAt pos (group v n)) :
    getBits s pos n = .ok (ofGroup (group v n), pos + n) := by
  simpa using getBits_of_holdsAt h

theorem getBits_groupNat {s : State} {pos n k : Nat} (h : s.holdsAt pos (groupNat k n)) :
    getBits s pos n = .ok (ofGroup (groupNat k n), pos + n) := by
  simpa using getBits_of_holdsAt h

theorem getBit_of_holdsAt {s : State} {pos : Nat} {b : Bool} (h : s.holdsAt pos [b]) :
    getBit s pos = .ok (b, pos + 1) := by
  rw [getBit_eq_ok]
  refine ⟨by simpa using h.1, ?_⟩
  have := h.2
  simp [ByteMemory.bits] at this
  rw [this]

/-! ## Writing the stream -/

/-- `Put` answers exactly where the bits fit, and then writes them at `BLEN` (R121). -/
theorem putBits_eq_ok {bs : List Bool} {s t : State} :
    putBits bs s = .ok t ↔ s.blen.toNat + bs.length ≤ s.bufBits ∧
      t = { s with buf := s.buf.setBits s.blen.toNat bs, blen := BitVec.ofNat 32 (s.blen.toNat + bs.length) } := by
  unfold putBits
  split
  · rename_i h; constructor
    · intro h'; cases h'
    · rintro ⟨h', -⟩; omega
  · rename_i h; constructor
    · intro h'; cases h'; exact ⟨by omega, rfl⟩
    · rintro ⟨-, rfl⟩; rfl

/-- `Put` raises `OVERFLOW(BUF)` and nothing else (R121). -/
theorem putBits_eq_error {bs : List Bool} {s : State} {c : Cause} :
    putBits bs s = .error c ↔ s.bufBits < s.blen.toNat + bs.length ∧ c = .overflowBuf := by
  unfold putBits
  split
  · rename_i h; constructor
    · intro h'; cases h'; exact ⟨by omega, rfl⟩
    · rintro ⟨-, rfl⟩; rfl
  · rename_i h; constructor
    · intro h'; cases h'
    · rintro ⟨h', -⟩; omega

/-- What a primitive command's appends answer, and where (R120, R121, R354). -/
theorem appendBits_eq_ok {bs : List Bool} {s t : State} :
    appendBits bs s = .ok t ↔ s.blen.toNat + bs.length ≤ s.bufBits ∧
      t = forgetTail { s with buf := s.buf.setBits s.blen.toNat bs, blen := BitVec.ofNat 32 (s.blen.toNat + bs.length) } := by
  unfold appendBits
  rw [bind_eq_ok]
  simp only [putBits_eq_ok]
  constructor
  · rintro ⟨-, ⟨h, rfl⟩, h'⟩; cases h'; exact ⟨h, rfl⟩
  · rintro ⟨h, rfl⟩; exact ⟨_, ⟨h, rfl⟩, rfl⟩

/-- They raise `OVERFLOW(BUF)` and nothing else (R121). -/
theorem appendBits_eq_error {bs : List Bool} {s : State} {c : Cause} :
    appendBits bs s = .error c ↔ s.bufBits < s.blen.toNat + bs.length ∧ c = .overflowBuf := by
  unfold appendBits
  rw [bind_eq_error, putBits_eq_error]
  constructor
  · rintro (h | ⟨_, -, h⟩)
    · exact h
    · cases h
  · exact .inl

/-- A state whose tail is forgotten after bits were written at `BLEN` and counted in has them appended. -/
theorem forgetTail_appended {bs : List Bool} {s : State} (h : s.blen.toNat + bs.length < 2 ^ 32) :
    Appended s (forgetTail { s with
      buf := s.buf.setBits s.blen.toNat bs, blen := BitVec.ofNat 32 (s.blen.toNat + bs.length) }) bs := by
  have hl : (BitVec.ofNat 32 (s.blen.toNat + bs.length)).toNat = s.blen.toNat + bs.length := by
    rw [BitVec.toNat_ofNat]; exact Nat.mod_eq_of_lt h
  refine ⟨hl, fun j hj => ?_, fun k hk => ?_, fun k hk => ?_, rfl⟩
  · simp only [forgetTail_buf, hl]
    rw [bit_forget, if_pos (by omega)]
    exact bit_setBits_at _ _ _ _ hj
  · simp only [forgetTail_buf, hl]
    rw [bit_forget, if_pos (by omega)]
    exact bit_setBits_below _ _ hk
  · simp only [forgetTail_buf, hl]
    rw [bit_forget, if_neg (by omega)]

/-- A primitive command whose effect completes. -/
theorem primitive_ok {opc : BitVec 8} {effect : State → Except Cause State} {s t : State} (h : effect s = .ok t) :
    primitive opc effect s = t := by unfold primitive; rw [h]

/-- A primitive command whose effect raises (R305). -/
theorem primitive_error {opc : BitVec 8} {effect : State → Except Cause State} {s : State} {c : Cause}
    (h : effect s = .error c) : primitive opc effect s = raise .primitive c opc s := by unfold primitive; rw [h]

/-- A length that fits the register. -/
theorem ofNat_toNat_len {n : Nat} (h : n < 2 ^ 32) : (BitVec.ofNat 32 n).toNat = n := by
  rw [BitVec.toNat_ofNat]; exact Nat.mod_eq_of_lt h

/-- Padding to a byte boundary never leaves a capacity of whole bytes (R124). -/
theorem pad_le {n cap : Nat} (h : n ≤ 8 * cap) : n + (padding n).length ≤ 8 * cap := by
  rw [padding_length]; omega

/-! ## Compress commands -/

/-- A compress command answers exactly where the block's length is in range, the body raises nothing and the body
fits `BUF`; what it leaves is CompressEnd over the body's bits (R13 to R15). -/
theorem compressRun_eq_ok {minN maxN : Nat} {body : List Word → Except Cause (List Bool)} {s t : State} :
    compressRun minN maxN body s = .ok t ↔
      minN ≤ s.slen.toNat ∧ s.slen.toNat ≤ maxN ∧ ∃ bits, body s.srcItems = .ok bits ∧ bits.length ≤ s.bufBits ∧
        ∃ p, putBits bits (emptyStream s) = .ok p ∧ t = compressEnd p := by
  unfold compressRun
  split
  · rename_i h; constructor
    · intro h'; cases h'
    · rintro ⟨h', -⟩; omega
  · split
    · rename_i h; constructor
      · intro h'; cases h'
      · rintro ⟨-, h', -⟩; omega
    · rename_i h1 h2
      simp only [bind_eq_ok]
      constructor
      · rintro ⟨bits, hb, p, hp, ht⟩
        refine ⟨by omega, by omega, bits, hb, ?_, p, hp, ?_⟩
        · have := (putBits_eq_ok.1 hp).1
          simpa [emptyStream, State.bufBits] using this
        · cases ht; rfl
      · rintro ⟨-, -, bits, hb, -, p, hp, rfl⟩
        exact ⟨bits, hb, p, hp, rfl⟩

/-- A compress command that completes (R13 to R15): its body stands in `BUF`. -/
theorem compress_ok {opc : BitVec 8} {minN maxN : Nat} {body : List Word → Except Cause (List Bool)} {s : State}
    {bits : List Bool} (hs : s.Inv) (h1 : minN ≤ s.slen.toNat) (h2 : s.slen.toNat ≤ maxN)
    (hb : body s.srcItems = .ok bits) (hf : bits.length ≤ s.bufBits) :
    Compressed s (compress opc minN maxN body s) bits := by
  have hcap : s.bufBits < 2 ^ 32 := hs.cfg.2.1
  have hbl : (emptyStream s).blen.toNat = 0 := rfl
  have hfit : (emptyStream s).blen.toNat + bits.length ≤ (emptyStream s).bufBits := by
    rw [hbl, Nat.zero_add]; exact hf
  have hlen : (BitVec.ofNat 32 bits.length).toNat = bits.length := ofNat_toNat_len (by omega)
  have hpad : bits.length + (padding bits.length).length ≤ s.bufBits := pad_le hf
  have hlen2 : (BitVec.ofNat 32 (bits.length + (padding bits.length).length)).toNat
      = bits.length + (padding bits.length).length := ofNat_toNat_len (by omega)
  have hrun : compressRun minN maxN body s = .ok (compressEnd
      { emptyStream s with
        buf := (emptyStream s).buf.setBits 0 bits
        blen := BitVec.ofNat 32 bits.length }) := by
    rw [compressRun_eq_ok]
    refine ⟨h1, h2, bits, hb, hf, _, putBits_eq_ok.2 ⟨hfit, rfl⟩, ?_⟩
    rw [hbl, Nat.zero_add]
  have heq : compress opc minN maxN body s = compressEnd
      { emptyStream s with
        buf := (emptyStream s).buf.setBits 0 bits
        blen := BitVec.ofNat 32 bits.length } := by
    unfold compress; rw [hrun]
  rw [heq]
  refine ⟨⟨?_, ?_, rfl, rfl⟩, ?_, ?_⟩
  · simp only [compressEnd, flush, hlen, hlen2]
  · simp only [compressEnd, flush, hlen]
    rw [bits_congr (m' := (emptyStream s).buf.setBits 0 bits)]
    · exact bits_setBits _ _ _
    · intro j hj
      exact bit_setBits_below _ _ (by omega)
  · intro k hk1 hk2
    simp only [compressEnd, flush, hlen, hlen2] at hk2 ⊢
    rw [bit_setBits, dif_pos ⟨hk1, by omega⟩]
    simp [padding]
  · simp [compressEnd, flush, emptyStream, State.srcAt]

/-- A compress command that raises (R306). -/
theorem compress_error {opc : BitVec 8} {minN maxN : Nat} {body : List Word → Except Cause (List Bool)} {s : State}
    {c : Cause} (h : compressRun minN maxN body s = .error c) :
    compress opc minN maxN body s = raise .compress c opc s := by
  unfold compress; rw [h]

/-! ## Decompress commands -/

/-- The checks of DecompressBegin pass (R16). -/
theorem decompressCheck_eq_ok {s : State} :
    decompressCheck s = .ok () ↔
      s.blen.toNat % 8 = 0 ∧ s.count ≠ 0 ∧ s.dlen.toNat + s.count.toNat ≤ s.cfg.vcap := by
  unfold decompressCheck
  split
  · rename_i h; constructor
    · intro h'; cases h'
    · rintro ⟨h', -⟩; omega
  · split
    · rename_i h; constructor
      · intro h'; cases h'
      · rintro ⟨-, h', -⟩; exact absurd h h'
    · split
      · rename_i h; constructor
        · intro h'; cases h'
        · rintro ⟨-, -, h'⟩; omega
      · rename_i h1 h2 h3
        exact ⟨fun _ => ⟨by omega, h2, by omega⟩, fun _ => rfl⟩

/-- A decompress command whose checks pass and whose body reads (R16 to R18, R75). -/
theorem decompress_ok {opc : BitVec 8} {body : State → Except Cause (List Word × Nat)} {u : State} {items : List Word}
    {pos : Nat} (hu : u.Inv) (hc : decompressCheck u = .ok ()) (hb : body u = .ok (items, pos))
    (hlen : u.dlen.toNat + items.length ≤ u.cfg.vcap) (hpos : pos < 2 ^ 32) :
    Decompressed u (decompress opc body u) items pos := by
  have heq : decompress opc body u = emitAll items pos u := by
    unfold decompress; rw [hc, ok_bind, hb]
  have hv := hu.cfg.2.2.2
  rw [heq]
  refine ⟨?_, ?_, ?_, ?_, ?_⟩
  · exact ofNat_toNat_len (by omega)
  · intro i hi
    simp only [emitAll, State.dstAt]
    rw [read_forget, if_pos (by omega), read_writeAll, dif_pos ⟨by omega, by omega⟩]
    simp
  · intro i hi
    simp only [emitAll, State.dstAt]
    rw [read_forget, if_pos (by omega), read_writeAll, dif_neg (by omega)]
  · exact ofNat_toNat_len hpos
  · rfl

theorem decompress_error {opc : BitVec 8} {body : State → Except Cause (List Word × Nat)} {s : State} {c : Cause}
    (h : (decompressCheck s >>= fun _ => body s) = .error c) : decompress opc body s = raise .decompress c opc s := by
  unfold decompress; rw [h]

/-! ## The item loops -/

/-- Where a decoder's step undoes an encoder's step, the loops undo one another. `P` is what the codec's state keeps. -/
theorem decodeItems_encodeItems {σ : Type} {enc : σ → Word → List Bool × σ}
    {dec : σ → Nat → Except Cause (Word × σ × Nat)} {P : σ → Prop} {s : State}
    (hstep : ∀ st v pos, P st → s.holdsAt pos (enc st v).1 →
      dec st pos = .ok (v, (enc st v).2, pos + (enc st v).1.length))
    (hkeep : ∀ st v, P st → P (enc st v).2) (vs : List Word) (st : σ) (pos : Nat) (hP : P st)
    (h : s.holdsAt pos (encodeItems enc st vs)) :
    decodeItems dec vs.length st pos = .ok (vs, pos + (encodeItems enc st vs).length) := by
  induction vs generalizing st pos with
  | nil => simp [decodeItems, encodeItems]
  | cons v vs ih =>
    simp only [encodeItems] at h ⊢
    rw [holdsAt_append] at h
    simp only [List.length_cons, decodeItems]
    rw [hstep st v pos hP h.1, ok_bind]
    simp only
    rw [ih _ _ (hkeep st v hP) h.2, ok_bind]
    simp [Nat.add_assoc]

/-- The item loop gives as many items as it is asked for. -/
theorem decodeItems_length {σ : Type} {dec : σ → Nat → Except Cause (Word × σ × Nat)} {n : Nat} {st : σ} {pos : Nat}
    {r : List Word × Nat} (h : decodeItems dec n st pos = .ok r) : r.1.length = n := by
  induction n generalizing st pos r with
  | zero => simp only [decodeItems] at h; cases h; rfl
  | succ n ih =>
    simp only [decodeItems, bind_eq_ok] at h
    obtain ⟨a, -, b, hb, hr⟩ := h
    cases hr
    simp [ih hb]

/-- Where one item keeps a property of the cursor, the loop does. -/
theorem decodeItems_cursor {σ : Type} {dec : σ → Nat → Except Cause (Word × σ × Nat)} {Q : Nat → Prop}
    (hstep : ∀ st pos r, Q pos → dec st pos = .ok r → Q r.2.2) {n : Nat} {st : σ} {pos : Nat}
    {r : List Word × Nat} (hp : Q pos) (h : decodeItems dec n st pos = .ok r) : Q r.2 := by
  induction n generalizing st pos r with
  | zero => simp only [decodeItems] at h; cases h; exact hp
  | succ n ih =>
    simp only [decodeItems, bind_eq_ok] at h
    obtain ⟨a, ha, b, hb, hr⟩ := h
    rw [← Except.ok.inj hr]
    exact ih (r := b) (hstep _ _ _ hp ha) hb

/-- The Gorilla framing's header read from a body that starts with it, `COUNT` and `FIRST` in place (R142, R146). -/
theorem readFramedHeader_ok {u : State} {v0 : Word} {n : Nat} (h : u.holdsAt 0 (framedHeader v0 n))
    (hf : u.first = v0) (hc : u.count.toNat = n) (hn : n < 2 ^ 14) : readFramedHeader u = .ok (v0, 78) := by
  unfold framedHeader at h
  rw [holdsAt_append] at h
  unfold readFramedHeader
  rw [getBits_group h.1, ok_bind]
  have h2 := h.2
  simp only [group_length] at h2
  simp only
  rw [getBits_groupNat h2, ok_bind]
  simp only
  rw [ofGroup_groupNat_toNat (by omega) hn, if_neg (by omega), ofGroup_group_64, if_neg (by simp [hf])]

end Sys2Proof.Machine
end

