-- ==== Sys2Proof/Laws/Varint.lean ====
section
/-! SUPPORT. The laws of the varint format (49_varint.md): what its bytes are and that a read takes back what a write
appended. -/

namespace Sys2Proof.Machine

@[simp] theorem byteBits_length (b : Byte) : (byteBits b).length = 8 := group_length _ _

theorem ofGroup_byteBits (b : Byte) : ofGroup (byteBits b) = b.setWidth 64 := by
  apply BitVec.eq_of_toNat_eq
  rw [byteBits, ofGroup_group_toNat _ (by omega)]
  have := b.isLt
  simp only [BitVec.toNat_setWidth]
  omega

theorem flatMap_byteBits_length (bs : List Byte) : (bs.flatMap byteBits).length = 8 * bs.length := by
  induction bs with
  | nil => rfl
  | cons b bs ih => simp only [List.flatMap_cons, List.length_append, byteBits_length, ih, List.length_cons]; omega

theorem varintGroups_length_le (fuel : Nat) (u : Word) : (varintGroups fuel u).length ≤ fuel := by
  induction fuel generalizing u with
  | zero => simp [varintGroups]
  | succ fuel ih =>
    unfold varintGroups
    split
    · simp
    · simp only [List.length_cons]; have := ih (u >>> 7); omega

theorem varintGroups_length_pos (fuel : Nat) (u : Word) : 1 ≤ (varintGroups (fuel + 1) u).length := by
  unfold varintGroups; split <;> simp

/-- A varint takes 1 to 10 bytes (R285). -/
theorem varintBytes_length (v : Word) : 1 ≤ (varintBytes v).length ∧ (varintBytes v).length ≤ 10 :=
  ⟨varintGroups_length_pos 9 _, varintGroups_length_le 10 _⟩

theorem varintBits_length (v : Word) : (varintBits v).length = 8 * (varintBytes v).length := flatMap_byteBits_length _

theorem varintBits_length_bounds (v : Word) : 8 ≤ (varintBits v).length ∧ (varintBits v).length ≤ 80 := by
  have := varintBytes_length v
  rw [varintBits_length]; omega

/-- The last byte of a varint: what is left fits seven bits. -/
theorem low_group {w : Word} (h : w.toNat < 128) :
    ((w.setWidth 8 : Byte).setWidth 64 &&& 0x7F#64) = w ∧ ((w.setWidth 8 : Byte).setWidth 64).toNat = w.toNat := by
  have h2 : ((w.setWidth 8 : Byte).setWidth 64) = w := by
    apply BitVec.eq_of_toNat_eq
    simp only [BitVec.toNat_setWidth]; omega
  rw [h2]
  refine ⟨?_, rfl⟩
  apply BitVec.eq_of_toNat_eq
  rw [BitVec.toNat_and]
  exact Nat.and_two_pow_sub_one_of_lt_two_pow (n := 7) h

/-- A byte that is not the last: its top bit is 1. -/
theorem high_group (w : Word) : 128 ≤ ((0x80#8 ||| w.setWidth 8 : Byte).setWidth 64).toNat := by
  have h : (0x80#8 ||| w.setWidth 8 : Byte).getLsbD 7 = true := by simp
  have h2 : ((0x80#8 ||| w.setWidth 8 : Byte).setWidth 64).getLsbD 7 = true := by simp
  exact Nat.ge_two_pow_of_testBit h2

/-- The seven bits a byte carries, put in their place, and the rest of the pattern above them. -/
theorem join_group (w : Word) (k : Nat) :
    (((0x80#8 ||| w.setWidth 8 : Byte).setWidth 64 &&& 0x7F#64) <<< (7 * k)) ||| ((w >>> 7) <<< (7 * (k + 1)))
      = w <<< (7 * k) := by
  apply BitVec.eq_of_getLsbD_eq
  intro i hi
  have h7f : ∀ j, (0x7F#64).getLsbD j = decide (j < 7) := by
    intro j
    by_cases hj : j < 64
    · revert hj; revert j; decide
    · rw [BitVec.getLsbD_of_ge _ _ (by omega)]; simp; omega
  simp only [BitVec.getLsbD_or, BitVec.getLsbD_shiftLeft, BitVec.getLsbD_and, BitVec.getLsbD_setWidth,
    BitVec.getLsbD_ushiftRight, hi, h7f]
  by_cases h1 : i < 7 * k
  · have : i < 7 * (k + 1) := by omega
    simp [h1, this]
  · by_cases h2 : i < 7 * (k + 1)
    · have h3 : i - 7 * k < 7 := by omega
      have h4 : i - 7 * k < 64 := by omega
      have h5 : i - 7 * k < 8 := by omega
      have h6 : (0x80#8).getLsbD (i - 7 * k) = false := by
        generalize i - 7 * k = j at h3; revert h3; revert j; decide
      rw [h6]
      simp [h1, h2, h3, h4, h5]
    · have h3 : ¬ i - 7 * k < 7 := by omega
      have h4 : 7 + (i - 7 * (k + 1)) = i - 7 * k := by omega
      simp [h1, h2, h3, h4]

/-- `VarGet` over the groups of a pattern that starts at bit `7 k` (R286, R291). -/
theorem varGetFrom_groups {s : State} (fuel k : Nat) (w u : Word) (pos : Nat) (hk : fuel + k = 10) (hk9 : k ≤ 9)
    (hw : w.toNat < 2 ^ (64 - 7 * k)) (h : s.holdsAt pos ((varintGroups fuel w).flatMap byteBits)) :
    varGetFrom s fuel k u pos
      = .ok (unZigZag (u ||| w <<< (7 * k)), pos + ((varintGroups fuel w).flatMap byteBits).length) := by
  induction fuel generalizing k w u pos with
  | zero => omega
  | succ fuel ih =>
    have hfirst : ∀ (b : Byte) (rest : List Bool), s.holdsAt pos (byteBits b ++ rest) →
        ¬ s.blen.toNat - pos < 8 ∧ getBits s pos 8 = .ok (b.setWidth 64, pos + 8) ∧ s.holdsAt (pos + 8) rest := by
      intro b rest hb
      rw [holdsAt_append] at hb
      have h1 := hb.1.1
      have h3 := hb.2
      have h2 := getBits_of_holdsAt hb.1
      rw [byteBits_length] at h1 h2 h3
      rw [ofGroup_byteBits] at h2
      exact ⟨by omega, h2, h3⟩
    have hk9' : k = 9 → w.toNat < 2 := by rintro rfl; simpa using hw
    unfold varGetFrom
    rw [varintGroups] at h ⊢
    by_cases hlt : w.toNat < 128
    · rw [if_pos hlt] at h ⊢
      obtain ⟨h1, h2, -⟩ := hfirst _ [] (by simpa using h)
      obtain ⟨h4, h5⟩ := low_group hlt
      rw [if_neg h1, h2, ok_bind]
      simp only [h4, h5]
      rw [if_neg (by rintro ⟨h6, h7⟩; have := hk9' h6; omega), if_pos hlt]
      simp
    · rw [if_neg hlt] at h ⊢
      obtain ⟨h1, h2, h3⟩ := hfirst _ _ (by simpa using h)
      have h80 := high_group w
      have hkn : k ≠ 9 := by intro h6; have := hk9' h6; omega
      rw [if_neg h1, h2, ok_bind]
      simp only
      rw [if_neg (by rintro ⟨h6, -⟩; exact hkn h6), if_neg (by omega)]
      rw [ih (k + 1) (w >>> 7) _ (pos + 8) (by omega) (by omega) ?_ h3]
      · rw [BitVec.or_assoc, join_group]
        simp [Nat.add_assoc]
      · rw [BitVec.toNat_ushiftRight, Nat.shiftRight_eq_div_pow]
        have : 2 ^ (64 - 7 * k) = 2 ^ (64 - 7 * (k + 1)) * 2 ^ 7 := by rw [← pow_add]; congr 1; omega
        rw [this] at hw
        exact Nat.div_lt_of_lt_mul (by omega)

/-- A varint read where it was appended gives its value back (R287, R291). -/
theorem varGet_varintBits {s : State} {v : Word} {pos : Nat} (h : s.holdsAt pos (varintBits v)) :
    varGet s pos = .ok (v, pos + (varintBits v).length) := by
  have := varGetFrom_groups (s := s) 10 0 (zigZag v) 0 pos rfl (by omega) (zigZag v).isLt h
  unfold varGet
  rw [this]
  simp [unZigZag_zigZag, varintBits, varintBytes]

/-- What `VarGet` answers stands within the stream, 1 to 10 bytes further on (R289, R291). -/
theorem varGetFrom_cursor {s : State} {fuel k : Nat} {u : Word} {pos : Nat} {r : Word × Nat}
    (h : varGetFrom s fuel k u pos = .ok r) :
    r.2 ≤ s.blen.toNat ∧ ∃ n, 1 ≤ n ∧ n ≤ fuel ∧ r.2 = pos + 8 * n := by
  induction fuel generalizing k u pos with
  | zero => simp [varGetFrom] at h
  | succ fuel ih =>
    unfold varGetFrom at h
    split at h
    · cases h
    · rw [bind_eq_ok] at h
      obtain ⟨b, hb, h⟩ := h
      rw [getBits_eq_ok] at hb
      obtain ⟨hb1, rfl⟩ := hb
      simp only at h
      split at h
      · cases h
      · split at h
        · cases h
          exact ⟨hb1, 1, by omega, by omega, rfl⟩
        · obtain ⟨h1, n, h2, h3, h4⟩ := ih h
          exact ⟨h1, n + 1, by omega, by omega, by omega⟩

theorem varGet_cursor {s : State} {pos : Nat} {r : Word × Nat} (h : varGet s pos = .ok r) :
    r.2 ≤ s.blen.toNat ∧ ∃ n, 1 ≤ n ∧ n ≤ 10 ∧ r.2 = pos + 8 * n := varGetFrom_cursor h

end Sys2Proof.Machine
end

