-- ==== Sys2Proof/Laws/Framed.lean ====
section
/-! SUPPORT. The item laws of the bit-packed codecs: a decoder's step over an encoder's record gives the item, the
codec's next state and the cursor after the record (R153, R177, R191, R204, R266). -/

namespace Sys2Proof.Machine

theorem holdsAt_of_body {u : State} {bits : List Bool} {first : Word} {n : Nat} (h : HoldsBody u bits first n) :
    u.holdsAt 0 bits := ⟨by have := h.1; omega, h.2.1⟩

/-- A body padded by fewer than eight bits has no tail (R18). -/
theorem endOfBits_ok {u : State} {bits : List Bool} {first : Word} {n : Nat} (h : HoldsBody u bits first n)
    (items : List Word) : endOfBits u (items, bits.length) = .ok (items, bits.length) := by
  unfold endOfBits
  have h1 := h.1
  rw [padding_length] at h1
  rw [if_neg]
  simp only; omega

theorem xor_xor_left (a b : Word) : a ^^^ (a ^^^ b) = b := by
  rw [← BitVec.xor_assoc]; simp

theorem xor_xor_right (a b : Word) : (a ^^^ b) ^^^ b = a := by
  rw [BitVec.xor_assoc]; simp

theorem eq_of_xor_eq_zero {a b : Word} (h : a ^^^ b = 0) : a = b := by
  have h2 := xor_xor_left a b
  rw [h] at h2
  simpa using h2

/-! ## Gorilla -/

theorem Layout.field_lt (lay : Layout) {lz : Nat} (h : lz < 64) : lay.field lz < 2 ^ lay.lw := by
  cases lay <;> simp only [Layout.field, Layout.lw] <;> omega

theorem Layout.lead_le (lay : Layout) (lz : Nat) : lay.lead (lay.field lz) ≤ lz := by
  cases lay <;> simp only [Layout.field, Layout.lead] <;> omega

theorem reuse_contains {st : GorillaState} {lay : Layout} {lz tz : Nat} (h : st.reuse lay lz tz = true) :
    st.w ≠ 0 ∧ st.pl ≤ lz ∧ st.pt ≤ tz := by
  cases lay <;> simp only [GorillaState.reuse, GorillaState.contains, Bool.and_eq_true, decide_eq_true_eq] at h
  · exact h
  · exact h
  · exact h.1

/-- The window of the encoder's state lies within the pattern (R143). -/
theorem gorillaPutItem_keeps (lay : Layout) (st : GorillaState) (v : Word) (h : st.pl + st.w ≤ 64) :
    (gorillaPutItem lay st v).2.pl + (gorillaPutItem lay st v).2.w ≤ 64 := by
  unfold gorillaPutItem
  simp only
  split
  · exact h
  · split
    · exact h
    · have := lay.lead_le (clz (st.prev ^^^ v))
      have := clz_le (st.prev ^^^ v)
      simp only; omega

/-- A Gorilla record read back (R142, R146). -/
theorem gorillaGetItem_putItem {u : State} (lay : Layout) (st : GorillaState) (v : Word) (pos : Nat)
    (hst : st.pl + st.w ≤ 64) (h : u.holdsAt pos (gorillaPutItem lay st v).1) :
    gorillaGetItem u lay st pos
      = .ok (v, (gorillaPutItem lay st v).2, pos + (gorillaPutItem lay st v).1.length) := by
  unfold gorillaPutItem at h ⊢
  unfold gorillaGetItem
  simp only at h ⊢
  by_cases hx : st.prev ^^^ v = 0
  · rw [if_pos hx] at h ⊢
    have hv := eq_of_xor_eq_zero hx
    subst hv
    rw [getBit_of_holdsAt h, ok_bind]
    simp
  · rw [if_neg hx] at h ⊢
    by_cases hr : st.reuse lay (clz (st.prev ^^^ v)) (ctz (st.prev ^^^ v))
    · rw [if_pos hr] at h ⊢
      obtain ⟨h1, h2, h3⟩ := reuse_contains hr
      rw [holdsAt_append] at h
      obtain ⟨h4, h5⟩ := h
      rw [show [true, false] = [true] ++ [false] from rfl, holdsAt_append] at h4
      rw [getBit_of_holdsAt h4.1, ok_bind]
      simp only [if_true]
      unfold gorillaGetWindow
      have h6 : u.holdsAt (pos + 1) [false] := h4.2
      rw [getBit_of_holdsAt h6, ok_bind]
      simp only [Bool.false_eq_true, if_false, ok_bind]
      rw [if_neg (by omega)]
      have h7 : u.holdsAt (pos + 1 + 1) (group ((st.prev ^^^ v) >>> st.pt) st.w) := h5
      rw [getBits_group h7, ok_bind]
      have hpt : 64 - st.pl - st.w = st.pt := rfl
      have hle : st.pt + st.w ≤ 64 := by unfold GorillaState.pt; omega
      simp only [hpt]
      rw [window_exact hle (fun i hi => getLsbD_of_ctz _ (by omega))
        (fun i hi => getLsbD_of_clz _ (by unfold GorillaState.pt at hi; omega)), xor_xor_left]
      simp
      omega
    · rw [if_neg hr] at h ⊢
      have h64 := clz_add_ctz hx
      have hl := lay.lead_le (clz (st.prev ^^^ v))
      have hf : lay.field (clz (st.prev ^^^ v)) < 2 ^ lay.lw := lay.field_lt (by omega)
      generalize hfd : lay.field (clz (st.prev ^^^ v)) = f at *
      generalize hld : lay.lead f = l at *
      obtain ⟨w, hw⟩ : ∃ w, 64 - l - ctz (st.prev ^^^ v) = w + 1 := ⟨63 - l - ctz (st.prev ^^^ v), by omega⟩
      rw [hw] at h ⊢
      simp only [holdsAt_append, Nat.add_sub_cancel, List.length_append, groupNat_length] at h
      obtain ⟨⟨⟨h4, h5⟩, h6⟩, h7⟩ := h
      rw [show [true, true] = [true] ++ [true] from rfl, holdsAt_append] at h4
      rw [getBit_of_holdsAt h4.1, ok_bind]
      simp only [if_true]
      unfold gorillaGetWindow
      have h8 : u.holdsAt (pos + 1) [true] := h4.2
      rw [getBit_of_holdsAt h8, ok_bind]
      simp only [if_true]
      have h9 : u.holdsAt (pos + 1 + 1) (groupNat f lay.lw) := h5
      rw [getBits_groupNat h9, ok_bind]
      simp only
      have h10 : u.holdsAt (pos + 1 + 1 + lay.lw) (groupNat w 6) := by
        have e : pos + 1 + 1 + lay.lw = pos + ([true, true].length + lay.lw) := by simp; omega
        rw [e]; exact h6
      rw [getBits_groupNat h10, ok_bind]
      simp only [ok_bind]
      have hlw : lay.lw ≤ 64 := by cases lay <;> decide
      rw [ofGroup_groupNat_toNat hlw hf, ofGroup_groupNat_toNat (by omega) (show w < 2 ^ 6 by omega), hld]
      rw [if_neg (by omega)]
      have h11 : u.holdsAt (pos + 1 + 1 + lay.lw + 6) (group ((st.prev ^^^ v) >>> ctz (st.prev ^^^ v)) (w + 1)) := by
        have e : pos + 1 + 1 + lay.lw + 6 = pos + ([true, true].length + lay.lw + 6) := by simp; omega
        rw [e]; exact h7
      rw [getBits_group h11, ok_bind]
      have hsh : 64 - l - (w + 1) = ctz (st.prev ^^^ v) := by omega
      simp only [hsh]
      rw [window_exact (by omega) (fun i hi => getLsbD_of_ctz _ hi)
        (fun i hi => getLsbD_of_clz _ (by omega)), xor_xor_left]
      simp
      omega

/-! ## Chimp -/

theorem chimpLead_bounds (lz : Nat) : chimpLead lz ≤ lz ∧ chimpLead lz ≤ 14 ∧ 2 * (chimpLead lz / 2) = chimpLead lz := by
  unfold chimpLead; omega

/-- A leading-zero count the encoder keeps is one it may send (R172). -/
theorem chimpPutItem_keeps (st : ChimpState) (v : Word) (h : ∀ l, st.pL = some l → l ≤ 14) :
    ∀ l, (chimpPutItem st v).2.pL = some l → l ≤ 14 := by
  have hb := chimpLead_bounds (clz (st.prev ^^^ v))
  unfold chimpPutItem
  simp only
  split
  · exact h
  · split
    · intro l hl; cases hl; exact hb.2.1
    · split
      · exact h
      · intro l hl; cases hl; exact hb.2.1

/-- A Chimp record read back (R171, R173). -/
theorem chimpGetItem_putItem {u : State} (st : ChimpState) (v : Word) (pos : Nat)
    (h : u.holdsAt pos (chimpPutItem st v).1) :
    chimpGetItem u st pos = .ok (v, (chimpPutItem st v).2, pos + (chimpPutItem st v).1.length) := by
  have hcode : ∀ bs : List Bool, bs.length = 2 → u.holdsAt pos bs → getBits u pos 2 = .ok (ofGroup bs, pos + 2) := by
    intro bs hl hb
    have := getBits_of_holdsAt hb
    rwa [hl] at this
  have hb := chimpLead_bounds (clz (st.prev ^^^ v))
  have hc := clz_le (st.prev ^^^ v)
  unfold chimpPutItem at h ⊢
  unfold chimpGetItem
  simp only at h ⊢
  generalize hld : chimpLead (clz (st.prev ^^^ v)) = l at *
  by_cases hx : st.prev ^^^ v = 0
  · rw [if_pos hx] at h ⊢
    have hv := eq_of_xor_eq_zero hx
    subst hv
    rw [hcode _ rfl h, ok_bind]
    have : ofGroup [false, false] = 0 := by decide
    simp [this]
  · rw [if_neg hx] at h ⊢
    have h64 := clz_add_ctz hx
    have hlow : ∀ i, 64 - l ≤ i → (st.prev ^^^ v).getLsbD i = false := fun i hi => getLsbD_of_clz _ (by omega)
    have htop : ofGroup (group (st.prev ^^^ v) (64 - l)) = st.prev ^^^ v := by
      have := window_exact (x := st.prev ^^^ v) (t := 0) (w := 64 - l) (by omega) (by omega)
        (fun i hi => hlow i (by omega))
      simpa using this
    by_cases ht : ctz (st.prev ^^^ v) > 6
    · rw [if_pos ht] at h ⊢
      obtain ⟨w, hw⟩ : ∃ w, 64 - l - ctz (st.prev ^^^ v) = w + 1 := ⟨63 - l - ctz (st.prev ^^^ v), by omega⟩
      rw [hw] at h ⊢
      simp only [holdsAt_append, Nat.add_sub_cancel, List.length_append, groupNat_length] at h
      obtain ⟨⟨⟨h1, h2⟩, h3⟩, h4⟩ := h
      rw [hcode _ rfl h1, ok_bind]
      have hc1 : ofGroup [false, true] = 1 := by decide
      simp only [hc1]
      rw [if_neg (by decide)]
      unfold chimpGetXor
      rw [if_pos (by decide)]
      have h2' : u.holdsAt (pos + 2) (groupNat (l / 2) 3) := h2
      rw [getBits_groupNat h2', ok_bind]
      simp only
      have h3' : u.holdsAt (pos + 2 + 3) (groupNat w 6) := h3
      have h4' : u.holdsAt (pos + 2 + 3 + 6) (group ((st.prev ^^^ v) >>> ctz (st.prev ^^^ v)) (w + 1)) := h4
      rw [getBits_groupNat h3', ok_bind]
      simp only [ofGroup_groupNat_toNat (show (3 : Nat) ≤ 64 by omega) (show l / 2 < 2 ^ 3 by omega),
        ofGroup_groupNat_toNat (show (6 : Nat) ≤ 64 by omega) (show w < 2 ^ 6 by omega), hb.2.2]
      rw [if_neg (by omega), getBits_group h4', ok_bind]
      have hsh : 64 - l - (w + 1) = ctz (st.prev ^^^ v) := by omega
      simp only [hsh, ok_bind]
      rw [window_exact (by omega) (fun i hi => getLsbD_of_ctz _ hi) (fun i hi => hlow i (by omega)), xor_xor_left]
      simp
      omega
    · rw [if_neg ht] at h ⊢
      by_cases hp : st.pL = some l
      · rw [if_pos hp] at h ⊢
        rw [holdsAt_append] at h
        rw [hcode _ rfl h.1, ok_bind]
        have hc1 : ofGroup [true, false] = 2 := by decide
        simp only [hc1]
        rw [if_neg (by decide)]
        unfold chimpGetXor
        rw [if_neg (by decide), if_pos (by decide), hp]
        have h2 : u.holdsAt (pos + 2) (group (st.prev ^^^ v) (64 - l)) := h.2
        simp only
        rw [getBits_group h2, ok_bind]
        simp only [ok_bind, htop, xor_xor_left]
        simp
        omega
      · rw [if_neg hp] at h ⊢
        simp only [holdsAt_append, List.length_append, groupNat_length] at h
        obtain ⟨⟨h1, h2⟩, h3⟩ := h
        rw [hcode _ rfl h1, ok_bind]
        have hc1 : ofGroup [true, true] = 3 := by decide
        simp only [hc1]
        rw [if_neg (by decide)]
        unfold chimpGetXor
        rw [if_neg (by decide), if_neg (by decide)]
        have h2' : u.holdsAt (pos + 2) (groupNat (l / 2) 3) := h2
        have h3' : u.holdsAt (pos + 2 + 3) (group (st.prev ^^^ v) (64 - l)) := h3
        rw [getBits_groupNat h2', ok_bind]
        simp only [ofGroup_groupNat_toNat (show (3 : Nat) ≤ 64 by omega) (show l / 2 < 2 ^ 3 by omega), hb.2.2]
        rw [getBits_group h3', ok_bind]
        simp only [ok_bind, htop, xor_xor_left]
        simp
        omega

/-! ## FPC -/

theorem clz_ge_lzb (x : Word) : 8 * lzb x ≤ clz x := by unfold lzb; omega

/-- An FPC item read back (R188, R192). -/
theorem fpcGetItem_putItem {u : State} (st : FpcState) (v : Word) (pos : Nat)
    (h : u.holdsAt pos (fpcPutItem u.cfg.fpcLog2 st v).1) :
    fpcGetItem u st pos
      = .ok (v, (fpcPutItem u.cfg.fpcLog2 st v).2, pos + (fpcPutItem u.cfg.fpcLog2 st v).1.length) := by
  unfold fpcPutItem at h ⊢
  unfold fpcGetItem
  simp only at h ⊢
  generalize hsel : decide (lzb (v ^^^ st.dfcm.predict) > lzb (v ^^^ st.fcm.predict)) = sel at h ⊢
  have hx : (if sel = true then v ^^^ st.dfcm.predict else v ^^^ st.fcm.predict)
      = v ^^^ (if sel = true then st.dfcm.predict else st.fcm.predict) := by cases sel <;> rfl
  rw [hx] at h ⊢
  generalize hp : (if sel = true then st.dfcm.predict else st.fcm.predict) = p at h ⊢
  generalize hcnt : min (lzb (v ^^^ p)) 7 = cnt at h ⊢
  have hlz := clz_ge_lzb (v ^^^ p)
  simp only [holdsAt_append, List.length_append, groupNat_length] at h
  obtain ⟨⟨h1, h2⟩, h3⟩ := h
  have h2' : u.holdsAt (pos + 1) (groupNat cnt 3) := h2
  have h3' : u.holdsAt (pos + 1 + 3) (group (v ^^^ p) (8 * (8 - cnt))) := h3
  have htop : ofGroup (group (v ^^^ p) (8 * (8 - cnt))) = v ^^^ p := by
    have := window_exact (x := v ^^^ p) (t := 0) (w := 8 * (8 - cnt)) (by omega) (by omega)
      (fun i hi => getLsbD_of_clz _ (by omega))
    simpa using this
  rw [getBit_of_holdsAt h1, ok_bind]
  simp only
  rw [getBits_groupNat h2', ok_bind]
  simp only [ofGroup_groupNat_toNat (show (3 : Nat) ≤ 64 by omega) (show cnt < 2 ^ 3 by omega)]
  rw [getBits_group h3', ok_bind]
  simp only [htop, hp, xor_xor_right]
  simp
  omega

/-! ## PDFCM -/

/-- The scan stays within the window (R204). -/
theorem bestEntry_lt (v : Word) (ws : List Word) (k : Nat) (best : Nat × Nat) (hb : best.1 < max 1 (k + ws.length)) :
    (bestEntry v ws k best).1 < max 1 (k + ws.length) := by
  induction ws generalizing k best with
  | nil => simpa [bestEntry] using hb
  | cons w ws ih =>
    simp only [bestEntry, List.length_cons]
    have := ih (k + 1) (if zb (v ^^^ w) > best.2 then (k, zb (v ^^^ w)) else best) (by
      simp only [List.length_cons] at hb
      split
      · simp only; omega
      · omega)
    omega

theorem best_lt {st : PdfcmState} (h : st.window.length = 8) (v : Word) : st.best v < 8 := by
  have := bestEntry_lt v st.window 0 (0, 0) (by simp)
  unfold PdfcmState.best
  omega

theorem push_window {st : PdfcmState} (h : st.window.length = 8) (log2 : Nat) (v : Word) :
    (st.push log2 v).window.length = 8 := by simp [PdfcmState.push, h]

theorem init_window (log2 : Nat) (v : Word) : (PdfcmState.init log2 v).window.length = 8 := by
  simp [PdfcmState.init, PdfcmState.push]

theorem trim_bounds (x : Word) : (trim x).1 + (trim x).2 ≤ 7 := by
  unfold trim
  split
  · simp
  · rename_i h; exact lzb_add_tzb h

/-- The bytes between the trimmed ones carry the whole pattern (R204). -/
theorem trim_exact (x : Word) :
    ofGroup (group (x >>> (8 * (trim x).2)) (8 * (8 - (trim x).1 - (trim x).2))) <<< (8 * (trim x).2) = x := by
  have hb := trim_bounds x
  apply window_exact (by omega)
  · intro i hi
    unfold trim at hi
    split at hi
    · simp at hi
    · apply getLsbD_of_ctz
      unfold tzb at hi
      simp only at hi
      omega
  · intro i hi
    by_cases hx : x = 0
    · subst hx; simp
    · apply getLsbD_of_clz
      unfold trim at hi
      rw [if_neg hx] at hi
      unfold lzb tzb at hi
      simp only at hi
      have := clz_add_ctz hx
      omega

theorem getResidual_bits {u : State} {x : Word} {pos : Nat} (h : u.holdsAt pos (residualBits x)) :
    getResidual u pos = .ok (x, pos + (residualBits x).length) := by
  have hb := trim_bounds x
  have hx := trim_exact x
  unfold residualBits at h ⊢
  unfold getResidual
  simp only at h ⊢
  generalize (trim x).1 = l at *
  generalize (trim x).2 = t at *
  simp only [holdsAt_append, List.length_append, groupNat_length] at h
  obtain ⟨⟨h1, h2⟩, h3⟩ := h
  have h3' : u.holdsAt (pos + 3 + 3) (group (x >>> (8 * t)) (8 * (8 - l - t))) := h3
  rw [getBits_groupNat h1, ok_bind]
  simp only
  rw [getBits_groupNat h2, ok_bind]
  simp only [ofGroup_groupNat_toNat (show (3 : Nat) ≤ 64 by omega) (show l < 2 ^ 3 by omega),
    ofGroup_groupNat_toNat (show (3 : Nat) ≤ 64 by omega) (show t < 2 ^ 3 by omega)]
  rw [if_neg (by omega), getBits_group h3', ok_bind]
  simp only [hx]
  simp
  omega

/-- A PDFCM record read back (R201, R205). -/
theorem pdfcmGetItem_putItem {u : State} (st : PdfcmState) (v : Word) (pos : Nat) (hw : st.window.length = 8)
    (h : u.holdsAt pos (pdfcmPutItem u.cfg.fpcLog2 st v).1) :
    pdfcmGetItem u st pos
      = .ok (v, (pdfcmPutItem u.cfg.fpcLog2 st v).2, pos + (pdfcmPutItem u.cfg.fpcLog2 st v).1.length) := by
  have hj := best_lt hw v
  have hshape : ∀ bs : List Bool, bs.length = 2 → u.holdsAt (pos + 1) bs →
      getBits u (pos + 1) 2 = .ok (ofGroup bs, pos + 1 + 2) := by
    intro bs hl hb
    have := getBits_of_holdsAt hb
    rwa [hl] at this
  unfold pdfcmPutItem at h ⊢
  unfold pdfcmGetItem
  simp only at h ⊢
  generalize st.best v = j at *
  by_cases h1 : v = st.prev
  · rw [if_pos h1] at h ⊢
    rw [getBit_of_holdsAt h, ok_bind]
    simp [h1]
  rw [if_neg h1] at h ⊢
  by_cases h2 : st.entry j = v
  · rw [if_pos h2] at h ⊢
    rw [show [true, false, false] = [true] ++ [false, false] from rfl] at h
    simp only [holdsAt_append, List.length_append] at h
    obtain ⟨⟨a1, a2⟩, a3⟩ := h
    have a3' : u.holdsAt (pos + 1 + 2) (groupNat j 3) := a3
    rw [getBit_of_holdsAt a1, ok_bind]
    simp only [if_true]
    unfold pdfcmGetShape
    rw [hshape _ rfl a2, ok_bind]
    simp only
    rw [if_pos (by decide)]
    rw [getBits_groupNat a3', ok_bind]
    simp only [ofGroup_groupNat_toNat (show (3 : Nat) ≤ 64 by omega) (show j < 2 ^ 3 by omega), h2, ok_bind]
    simp
  rw [if_neg h2] at h ⊢
  by_cases h3 : max (zb (v ^^^ st.dfcm.predict)) (zb (v ^^^ st.entry j)) = 0
  · rw [if_pos h3] at h ⊢
    rw [show [true, true, true] = [true] ++ [true, true] from rfl] at h
    simp only [holdsAt_append, List.length_append] at h
    obtain ⟨⟨a1, a2⟩, a3⟩ := h
    have a3' : u.holdsAt (pos + 1 + 2) (group v 64) := a3
    rw [getBit_of_holdsAt a1, ok_bind]
    simp only [if_true]
    unfold pdfcmGetShape
    rw [hshape _ rfl a2, ok_bind]
    simp only
    rw [if_neg (by decide), if_pos (by decide)]
    rw [getBits_group a3', ok_bind]
    simp only [ofGroup_group_64]
    simp
  rw [if_neg h3] at h ⊢
  by_cases h4 : zb (v ^^^ st.dfcm.predict) ≥ zb (v ^^^ st.entry j)
  · rw [if_pos h4] at h ⊢
    rw [show [true, false, true] = [true] ++ [false, true] from rfl] at h
    simp only [holdsAt_append, List.length_append] at h
    obtain ⟨⟨a1, a2⟩, a3⟩ := h
    have a3' : u.holdsAt (pos + 1 + 2) (residualBits (v ^^^ st.dfcm.predict)) := a3
    rw [getBit_of_holdsAt a1, ok_bind]
    simp only [if_true]
    unfold pdfcmGetShape
    rw [hshape _ rfl a2, ok_bind]
    simp only
    rw [if_neg (by decide), if_neg (by decide), if_neg (by decide)]
    rw [getResidual_bits a3', ok_bind]
    simp only [ok_bind, xor_xor_right]
    simp
    omega
  · rw [if_neg h4] at h ⊢
    rw [show [true, true, false] = [true] ++ [true, false] from rfl] at h
    simp only [holdsAt_append, List.length_append, groupNat_length] at h
    obtain ⟨⟨⟨a1, a2⟩, a3⟩, a4⟩ := h
    have a3' : u.holdsAt (pos + 1 + 2) (groupNat j 3) := a3
    have a4' : u.holdsAt (pos + 1 + 2 + 3) (residualBits (v ^^^ st.entry j)) := a4
    rw [getBit_of_holdsAt a1, ok_bind]
    simp only [if_true]
    unfold pdfcmGetShape
    rw [hshape _ rfl a2, ok_bind]
    simp only
    rw [if_neg (by decide), if_neg (by decide), if_pos (by decide)]
    rw [getBits_groupNat a3', ok_bind]
    simp only
    rw [getResidual_bits a4', ok_bind]
    simp only [ofGroup_groupNat_toNat (show (3 : Nat) ≤ 64 by omega) (show j < 2 ^ 3 by omega), ok_bind, xor_xor_right]
    simp
    omega

/-! ## Huffman -/

theorem nibble_lt (x : Word) (k : Nat) : nibble x k < 16 := by
  unfold nibble
  rw [BitVec.toNat_and]
  exact lt_of_le_of_lt Nat.and_le_right (by decide)

/-- The tree walk over a code gives its nibble (R261, R263). -/
theorem getNibble_huffBits {u : State} {q pos : Nat} (hq : q < 16) (h : u.holdsAt pos (huffBits q)) :
    getNibble u pos = .ok (q, pos + (huffBits q).length) := by
  unfold getNibble
  by_cases h0 : q = 0
  · subst h0
    have h' : u.holdsAt pos [false] := h
    rw [getBit_of_holdsAt h', ok_bind]
    rfl
  by_cases h1 : q = 1
  · subst h1
    have h' : u.holdsAt pos ([true] ++ [false, false, false]) := h
    rw [holdsAt_append] at h'
    rw [getBit_of_holdsAt h'.1, ok_bind]
    have h2 : u.holdsAt (pos + 1) [false, false, false] := h'.2
    have h3 := getBits_of_holdsAt h2
    rw [show ([false, false, false] : List Bool).length = 3 from rfl] at h3
    simp only [if_true]
    rw [h3, ok_bind]
    simp only
    rw [if_pos (by decide)]
    rfl
  · have hbits : ∃ t c, huffBits q = [true] ++ t ++ [c] ∧ t.length = 3 ∧ ofGroup t ≠ 0 ∧
        2 * (ofGroup t).toNat + c.toNat = q ∧ (huffBits q).length = 5 := by
      have : ∀ q, q < 16 → q ≠ 0 → q ≠ 1 → huffBits q = [true] ++ [q.testBit 3, q.testBit 2, q.testBit 1] ++ [q.testBit 0]
          ∧ ofGroup [q.testBit 3, q.testBit 2, q.testBit 1] ≠ 0 ∧
          2 * (ofGroup [q.testBit 3, q.testBit 2, q.testBit 1]).toNat + (q.testBit 0).toNat = q ∧
          (huffBits q).length = 5 := by decide
      obtain ⟨a1, a2, a3, a4⟩ := this q hq h0 h1
      exact ⟨_, _, a1, rfl, a2, a3, a4⟩
    obtain ⟨t, c, a1, a2, a3, a4, a5⟩ := hbits
    rw [a5]
    rw [a1, holdsAt_append, holdsAt_append] at h
    obtain ⟨⟨b1, b2⟩, b3⟩ := h
    have b2' : u.holdsAt (pos + 1) t := b2
    have b2'' := getBits_of_holdsAt b2'
    rw [a2] at b2''
    have b3' : u.holdsAt (pos + 1 + 3) [c] := by
      have : ([true] ++ t).length = 4 := by simp [a2]
      rw [this] at b3; exact b3
    rw [getBit_of_holdsAt b1, ok_bind]
    simp only [if_true]
    rw [b2'', ok_bind]
    simp only
    rw [if_neg a3, getBit_of_holdsAt b3', ok_bind, a4]

theorem nibble_join (x acc : Word) (n : Nat) (hacc : acc = x >>> (4 * (n + 1))) :
    (acc <<< 4 ||| BitVec.ofNat 64 (nibble x n)) = x >>> (4 * n) := by
  subst hacc
  unfold nibble
  rw [BitVec.ofNat_toNat, BitVec.setWidth_eq]
  have hf : ∀ j, (0xF#64).getLsbD j = decide (j < 4) := by
    intro j
    by_cases hj : j < 64
    · revert hj; revert j; decide
    · rw [BitVec.getLsbD_of_ge _ _ (by omega)]; simp; omega
  apply BitVec.eq_of_getLsbD_eq
  intro i hi
  simp only [BitVec.getLsbD_or, BitVec.getLsbD_shiftLeft, BitVec.getLsbD_and, BitVec.getLsbD_ushiftRight, hf, hi]
  by_cases h4 : i < 4
  · simp [h4]
  · have : 4 * (n + 1) + (i - 4) = 4 * n + i := by omega
    simp [h4, this]

/-- The sixteen codes of a pattern read back into it (R262, R267). -/
theorem getNibbles_codes {u : State} (x : Word) (n : Nat) (acc : Word) (pos : Nat) (hacc : acc = x >>> (4 * n))
    (h : u.holdsAt pos (nibbleCodes x n)) :
    getNibbles u n acc pos = .ok (x, pos + (nibbleCodes x n).length) := by
  induction n generalizing acc pos with
  | zero =>
    subst hacc
    simp [getNibbles, nibbleCodes]
  | succ n ih =>
    simp only [nibbleCodes, holdsAt_append] at h
    unfold getNibbles
    rw [getNibble_huffBits (nibble_lt x n) h.1, ok_bind]
    simp only
    rw [ih _ _ (nibble_join x acc n hacc) h.2]
    simp [nibbleCodes, Nat.add_assoc]

/-- A Huffman item read back (R262, R267). -/
theorem huffGetItem_putItem {u : State} (prev v : Word) (pos : Nat) (h : u.holdsAt pos (huffPutItem prev v).1) :
    huffGetItem u prev pos = .ok (v, (huffPutItem prev v).2, pos + (huffPutItem prev v).1.length) := by
  unfold huffPutItem at h ⊢
  unfold huffGetItem
  simp only at h ⊢
  rw [getNibbles_codes _ _ _ _ ?_ h, ok_bind]
  · simp only [xor_xor_right]
  · exact (BitVec.ushiftRight_eq_zero (by omega)).symm

end Sys2Proof.Machine
end

