-- ==== Sys2Proof/Laws/PerInstr.lean ====
section
/-! SUPPORT. The per-instruction family `WordShape`: the encoded word of each command has its opcode in bits 31:24 and
zeros in bits 23:7 (R90, R91). -/

namespace Sys2Proof.Laws.WordShape

/-- The word of a well-formed command holds its opcode and keeps the reserved field `Z` zero (R90). -/
def Statement (i : Instr) : Prop :=
  i.wellFormed = true → opcField (encode i) = i.opc ∧ (encode i).extractLsb' 7 17 = 0#17

theorem high_of_append (a : BitVec 8) (b : BitVec 24) : (a ++ b).extractLsb' 24 8 = a := by
  ext i hi
  simp only [BitVec.getElem_extractLsb', BitVec.getLsbD_append]
  simp [hi]

theorem middle_of_append (a : BitVec 8) (b : BitVec 24) : (a ++ b).extractLsb' 7 17 = b.extractLsb' 7 17 := by
  ext i hi
  simp only [BitVec.getElem_extractLsb', BitVec.getLsbD_append]
  have : 7 + i < 24 := by omega
  simp [this]

theorem small_count (n : Nat) (h : n < 128) : (BitVec.ofNat 24 n).extractLsb' 7 17 = 0#17 := by
  apply BitVec.eq_of_toNat_eq
  simp only [BitVec.extractLsb'_toNat, BitVec.toNat_ofNat, Nat.shiftRight_eq_div_pow]
  omega

theorem of_operand (i : Instr) (h : i.operand.extractLsb' 7 17 = 0#17) :
    opcField (encode i) = i.opc ∧ (encode i).extractLsb' 7 17 = 0#17 :=
  ⟨high_of_append _ _, (middle_of_append _ _).trans h⟩

theorem nop : Statement .nop := fun _ => of_operand _ rfl
theorem bsreset : Statement .bsreset := fun _ => of_operand _ rfl
theorem appendbit (b : Bool) : Statement (.appendbit b) := fun _ => of_operand _ (by cases b <;> rfl)
theorem appendbits (n : Nat) : Statement (.appendbits n) := fun h =>
  of_operand _ (small_count n (by simpa [Instr.wellFormed, fitsN] using h))
theorem finish : Statement .finish := fun _ => of_operand _ rfl
theorem rewind : Statement .rewind := fun _ => of_operand _ rfl
theorem readbit : Statement .readbit := fun _ => of_operand _ rfl
theorem readbits (n : Nat) : Statement (.readbits n) := fun h =>
  of_operand _ (small_count n (by simpa [Instr.wellFormed, fitsN] using h))
theorem varput : Statement .varput := fun _ => of_operand _ rfl
theorem varget : Statement .varget := fun _ => of_operand _ rfl
theorem gorillaC : Statement .gorillaC := fun _ => of_operand _ rfl
theorem gorillaD : Statement .gorillaD := fun _ => of_operand _ rfl
theorem gorillazC : Statement .gorillazC := fun _ => of_operand _ rfl
theorem gorillazD : Statement .gorillazD := fun _ => of_operand _ rfl
theorem gorillaplusC : Statement .gorillaplusC := fun _ => of_operand _ rfl
theorem gorillaplusD : Statement .gorillaplusD := fun _ => of_operand _ rfl
theorem chimpC : Statement .chimpC := fun _ => of_operand _ rfl
theorem chimpD : Statement .chimpD := fun _ => of_operand _ rfl
theorem fpcC : Statement .fpcC := fun _ => of_operand _ rfl
theorem fpcD : Statement .fpcD := fun _ => of_operand _ rfl
theorem pdfcmC : Statement .pdfcmC := fun _ => of_operand _ rfl
theorem pdfcmD : Statement .pdfcmD := fun _ => of_operand _ rfl
theorem deltaC : Statement .deltaC := fun _ => of_operand _ rfl
theorem deltaD : Statement .deltaD := fun _ => of_operand _ rfl
theorem delta2C : Statement .delta2C := fun _ => of_operand _ rfl
theorem delta2D : Statement .delta2D := fun _ => of_operand _ rfl
theorem xordeltaC : Statement .xordeltaC := fun _ => of_operand _ rfl
theorem xordeltaD : Statement .xordeltaD := fun _ => of_operand _ rfl
theorem deltaxorC : Statement .deltaxorC := fun _ => of_operand _ rfl
theorem deltaxorD : Statement .deltaxorD := fun _ => of_operand _ rfl
theorem plainC : Statement .plainC := fun _ => of_operand _ rfl
theorem plainD : Statement .plainD := fun _ => of_operand _ rfl
theorem constC : Statement .constC := fun _ => of_operand _ rfl
theorem constD : Statement .constD := fun _ => of_operand _ rfl
theorem deltaconstC : Statement .deltaconstC := fun _ => of_operand _ rfl
theorem deltaconstD : Statement .deltaconstD := fun _ => of_operand _ rfl
theorem rleC : Statement .rleC := fun _ => of_operand _ rfl
theorem rleD : Statement .rleD := fun _ => of_operand _ rfl
theorem huffC : Statement .huffC := fun _ => of_operand _ rfl
theorem huffD : Statement .huffD := fun _ => of_operand _ rfl
theorem stats : Statement .stats := fun _ => of_operand _ rfl
theorem classify : Statement .classify := fun _ => of_operand _ rfl
theorem clrerr : Statement .clrerr := fun _ => of_operand _ rfl
theorem sreset : Statement .sreset := fun _ => of_operand _ rfl

end Sys2Proof.Laws.WordShape
end

