-- ==== Sys2Proof/Laws/Streams.lean ====
section
/-! SUPPORT. The laws of the varint-stream codecs (45_delta_family.md, 46_rle.md): residuals and their items, the
arithmetic progression, runs and their expansion. -/

namespace Sys2Proof.Machine

/-! ## Residual schemes -/

/-- Every scheme's decoding step undoes its residual, modulo 2^64 (R243). -/
theorem item_resid (k : Scheme) (st : ResidState) (v : Word) : k.item st (k.resid st v) = v := by
  have hsub : ∀ a b : Word, a + (b - a) = b := fun a b => by rw [BitVec.add_comm]; exact BitVec.sub_add_cancel b a
  have hxor : ∀ a b : Word, a ^^^ (b ^^^ a) = b := fun a b => by
    rw [BitVec.xor_comm b a, ← BitVec.xor_assoc]; simp
  cases k <;> simp only [Scheme.item, Scheme.resid]
  · rw [hsub]
  · rw [hsub, hsub]
  · rw [hxor, hsub]
  · rw [hsub, hxor]

/-- One varint of a residual stream read back (R241, R242). -/
theorem residGetItem_putItem {u : State} (k : Scheme) (st : ResidState) (v : Word) (pos : Nat)
    (h : u.holdsAt pos (residPutItem k st v).1) :
    residGetItem u k st pos = .ok (v, (residPutItem k st v).2, pos + (residPutItem k st v).1.length) := by
  unfold residPutItem at h ⊢
  unfold residGetItem
  simp only at h ⊢
  have h1 := h.1
  have h2 := varintBits_length_bounds (k.resid st v)
  rw [if_neg (by omega), varGet_varintBits h, ok_bind]
  simp only [item_resid]

theorem encodeItems_resid_mod (k : Scheme) (vs : List Word) (st : ResidState) :
    (encodeItems (residPutItem k) st vs).length % 8 = 0 := by
  induction vs generalizing st with
  | nil => rfl
  | cons v vs ih =>
    have h1 := ih (residPutItem k st v).2
    have h2 : (residPutItem k st v).1.length = 8 * (varintBytes (k.resid st v)).length := varintBits_length _
    simp only [encodeItems, List.length_append]
    omega

/-- A byte-stream body has no tail (R18). -/
theorem endOfBytes_ok {u : State} {bits : List Bool} {first : Word} {n : Nat} (h : HoldsBody u bits first n)
    (hm : bits.length % 8 = 0) (items : List Word) :
    endOfBytes u (items, bits.length) = .ok (items, bits.length) := by
  unfold endOfBytes
  have h1 := h.1
  rw [padding_length] at h1
  rw [if_neg]
  simp only; omega

/-! ## Constant difference -/

/-- A block of constant difference is the progression of its first item and that difference (R238, R239). -/
theorem progression_differences (dd : Word) (v0 : Word) (vs : List Word)
    (h : ∀ d ∈ differences (v0 :: vs), d = dd) : progression dd (vs.length + 1) v0 = v0 :: vs := by
  induction vs generalizing v0 with
  | nil => rfl
  | cons v1 vs ih =>
    simp only [differences, List.mem_cons, forall_eq_or_imp] at h
    have h1 : v0 + dd = v1 := by
      rw [← h.1, BitVec.add_comm]; exact BitVec.sub_add_cancel v1 v0
    rw [List.length_cons, progression, h1, ih v1 h.2]

theorem progression_length (dd : Word) (n : Nat) (p : Word) : (progression dd n p).length = n := by
  induction n generalizing p with
  | zero => rfl
  | succ n ih => simp [progression, ih]

/-! ## Runs -/

/-- The runs of a block, expanded, are the block (R251). -/
theorem runsFrom_expand (cv : Word) (cl : Nat) (vs : List Word) :
    ((runsFrom cv cl vs).flatMap fun r => List.replicate r.2 r.1) = List.replicate cl cv ++ vs := by
  induction vs generalizing cv cl with
  | nil => simp [runsFrom]
  | cons v vs ih =>
    unfold runsFrom
    split
    · rename_i h; subst h
      rw [ih, List.replicate_succ']; simp
    · simp [ih]

theorem runsFrom_length (cv : Word) (cl : Nat) (vs : List Word) : (runsFrom cv cl vs).length ≤ vs.length + 1 := by
  induction vs generalizing cv cl with
  | nil => simp [runsFrom]
  | cons v vs ih =>
    unfold runsFrom
    split
    · have := ih cv (cl + 1); simp only [List.length_cons]; omega
    · have := ih v 1; simp only [List.length_cons]; omega

theorem runsFrom_bounds (cv : Word) (cl : Nat) (vs : List Word) (hcl : 1 ≤ cl) :
    ∀ r ∈ runsFrom cv cl vs, 1 ≤ r.2 ∧ r.2 ≤ cl + vs.length := by
  induction vs generalizing cv cl with
  | nil => intro r hr; simp [runsFrom] at hr; subst hr; simp [hcl]
  | cons v vs ih =>
    intro r hr
    unfold runsFrom at hr
    simp only [List.length_cons]
    split at hr
    · have := ih cv (cl + 1) (by omega) r hr; omega
    · rcases List.mem_cons.1 hr with rfl | hr
      · simp only; omega
      · have := ih v 1 (by omega) r hr; omega

/-- The runs are maximal: their first is a run of the first value. -/
theorem runsFrom_head (cv : Word) (cl : Nat) (vs : List Word) : ∃ n rest, runsFrom cv cl vs = (cv, n) :: rest := by
  induction vs generalizing cl with
  | nil => exact ⟨cl, [], rfl⟩
  | cons v vs ih =>
    unfold runsFrom
    split
    · exact ih _
    · exact ⟨cl, _, rfl⟩

/-- The array of varints to the end of the body (R252). -/
theorem restVarints_ok {u : State} (ws : List Word) (fuel pos : Nat) (hf : ws.length < fuel)
    (h : u.holdsAt pos (ws.flatMap varintBits)) (hend : pos + (ws.flatMap varintBits).length = u.blen.toNat) :
    restVarints u fuel pos = .ok ws := by
  induction ws generalizing fuel pos with
  | nil =>
    obtain ⟨fuel, rfl⟩ : ∃ m, fuel = m + 1 := ⟨fuel - 1, by simp at hf; omega⟩
    simp at hend
    simp [restVarints, hend]
  | cons w ws ih =>
    obtain ⟨fuel, rfl⟩ : ∃ m, fuel = m + 1 := ⟨fuel - 1, by simp at hf; omega⟩
    simp only [List.flatMap_cons, holdsAt_append, List.length_append, List.length_cons] at h hend hf
    have h2 := varintBits_length_bounds w
    unfold restVarints
    rw [if_neg (by omega), varGet_varintBits h.1, ok_bind]
    simp only
    rw [ih fuel _ (by omega) h.2 (by omega), ok_bind]

/-- The array of a list of runs, as `RLE.C` writes it (R250). -/
def runArray (runs : List (Word × Nat)) : List Word := runs.flatMap fun r => [r.1, BitVec.ofNat 64 r.2]

theorem runArray_length (runs : List (Word × Nat)) : (runArray runs).length = 2 * runs.length := by
  induction runs with
  | nil => rfl
  | cons r rs ih => simp only [runArray, List.flatMap_cons, List.length_append, List.length_cons, List.length_nil] at ih ⊢; omega

theorem runArray_bits (runs : List (Word × Nat)) :
    (runArray runs).flatMap varintBits = runs.flatMap fun r => varintBits r.1 ++ varintBits (BitVec.ofNat 64 r.2) := by
  induction runs with
  | nil => rfl
  | cons r rs ih =>
    simp only [runArray, List.flatMap_cons, List.flatMap_append, List.flatMap_nil, List.append_nil] at ih ⊢
    rw [ih]

/-- The pair loop over a list of runs that makes exactly `COUNT` items (R252). -/
theorem expandPairs_runs {u : State} (runs : List (Word × Nat)) (head : Bool) (made : Nat)
    (hr : ∀ r ∈ runs, 1 ≤ r.2 ∧ r.2 < 2 ^ 63)
    (hsum : made + (runs.flatMap fun r => List.replicate r.2 r.1).length = u.count.toNat)
    (hfirst : head = true → ∀ r rest, runs = r :: rest → r.1 = u.first) :
    expandPairs u (runArray runs) head made = .ok (runs.flatMap fun r => List.replicate r.2 r.1) := by
  induction runs generalizing head made with
  | nil =>
    simp at hsum
    simp [runArray, expandPairs, hsum]
  | cons r rs ih =>
    obtain ⟨h1, h2⟩ := hr r (by simp)
    simp only [List.flatMap_cons, List.length_append, List.length_replicate] at hsum
    have hN : (BitVec.ofNat 64 r.2).toNat = r.2 := by
      rw [BitVec.toNat_ofNat]; exact Nat.mod_eq_of_lt (by omega)
    have hI : ¬ (BitVec.ofNat 64 r.2).toInt ≤ 0 := by
      rw [BitVec.toInt_eq_toNat_cond, hN, if_pos (by omega)]; omega
    have hm : min (BitVec.ofNat 64 r.2).toNat (u.count.toNat - made) = r.2 := by rw [hN]; omega
    show expandPairs u (r.1 :: BitVec.ofNat 64 r.2 :: runArray rs) head made = _
    unfold expandPairs
    rw [if_neg (by omega), if_neg hI, if_neg]
    · simp only [hm]
      rw [ih false (made + r.2) (fun r' hr' => hr r' (by simp [hr'])) (by omega) (by intro h; cases h), ok_bind]
      simp
    · rintro ⟨h3, h4⟩
      exact h4 (hfirst h3 r rs rfl)

end Sys2Proof.Machine
end

