-- ==== Sys2Proof/Tests/Slice0.lean ====
section
/-! SUPPORT. Tests: command words written out from the encoding tables of 30_encoding.md, ill-formed terms, single steps
whose expected results are the spec's own vectors (95_test_vectors.md), and for each statement with hypotheses a state
and operands that meet them all. -/

set_option Elab.async false

namespace Sys2Proof.Tests

open Sys2Proof Sys2Proof.Machine

/-! ## Helpers -/

/-- The outcome is a next state with this property. -/
def answers (o : Host.Outcome State Fault Refusal) (p : State → Bool) : Bool :=
  match o with
  | .next t => p t
  | .fault _ => false
  | .refused _ => false

/-- The reset state with a block in `SRC`. -/
def withSrc (ws : List Word) : State :=
  { State.reset with src := WordMemory.writeAll ⟨[], []⟩ 0 ws, slen := BitVec.ofNat 32 ws.length }

/-- The reset state with these bits appended. -/
def holding (bits : List Bool) : State :=
  { State.reset with buf := ByteMemory.setBits ⟨[], [], []⟩ 0 bits, blen := BitVec.ofNat 32 bits.length }

/-- The reset state with these bytes as the body, `FIRST` and `COUNT` in place. -/
def loaded (bs : List Byte) (first : Word) (count : Nat) : State :=
  { holding (bs.flatMap byteBits) with first := first, count := BitVec.ofNat 32 count }

/-- The bytes of the body. -/
def bodyOf (s : State) : List Byte := (List.range s.byteLen).map s.buf.byte

/-- The items of `DST`. -/
def items (s : State) : List Word := (List.range s.dlen.toNat).map s.dstAt

/-- Parameters with a `BUF` of `n` bytes. -/
def small (n : Nat) (s : State) : State := { s with cfg := { s.cfg with bufCap := n } }

/-- The compress command leaves this body. -/
def bodyIs (i : Instr) (ws : List Word) (bs : List Byte) : Bool :=
  answers (exec i (withSrc ws)) fun t =>
    bodyOf t = bs && t.first = ws.headD 0 && t.count = BitVec.ofNat 32 ws.length && t.status = 0

/-- The decompress command gives these items and leaves the cursor at `pos`. -/
def decodes (i : Instr) (bs : List Byte) (first : Word) (count : Nat) (ws : List Word) (pos : Nat) : Bool :=
  answers (exec i (loaded bs first count)) fun t => items t = ws && t.rpos = BitVec.ofNat 32 pos && t.status = 0

/-- The decompress command records this word in `STATUS`, and `DLEN` and `RPOS` are 0. -/
def raises (i : Instr) (bs : List Byte) (first : Word) (count : Nat) (word : BitVec 32) : Bool :=
  answers (exec i (loaded bs first count)) fun t => t.status = word && t.dlen = 0 && t.rpos = 0

/-- The block of the spec's scenarios. -/
def blockS : List Word := [1, 2, 3, 4, 5, 6, 7, 8, 9, 0]

/-- All ones. -/
def ones : Word := 0xFFFFFFFFFFFFFFFF

/-! ## Decoding (30_encoding.md, R93): every word written out -/

theorem test_decode_bitstream :
    decode 0x00000000#32 = .ok .nop ∧ decode 0x01000000#32 = .ok .bsreset ∧
    decode 0x02000000#32 = .ok (.appendbit false) ∧ decode 0x02000001#32 = .ok (.appendbit true) ∧
    decode 0x03000040#32 = .ok (.appendbits 64) ∧ decode 0x03000041#32 = .ok (.appendbits 65) ∧
    decode 0x04000000#32 = .ok .finish ∧ decode 0x05000000#32 = .ok .rewind ∧ decode 0x06000000#32 = .ok .readbit ∧
    decode 0x07000003#32 = .ok (.readbits 3) ∧ decode 0x0700007F#32 = .ok (.readbits 127) := by decide

theorem test_decode_varint : decode 0x10000000#32 = .ok .varput ∧ decode 0x11000000#32 = .ok .varget := by decide

theorem test_decode_gorilla :
    decode 0x20000000#32 = .ok .gorillaC ∧ decode 0x21000000#32 = .ok .gorillaD ∧
    decode 0x22000000#32 = .ok .gorillazC ∧ decode 0x23000000#32 = .ok .gorillazD ∧
    decode 0x24000000#32 = .ok .gorillaplusC ∧ decode 0x25000000#32 = .ok .gorillaplusD := by decide

theorem test_decode_chimp_fpc_pdfcm :
    decode 0x28000000#32 = .ok .chimpC ∧ decode 0x29000000#32 = .ok .chimpD ∧ decode 0x30000000#32 = .ok .fpcC ∧
    decode 0x31000000#32 = .ok .fpcD ∧ decode 0x38000000#32 = .ok .pdfcmC ∧ decode 0x39000000#32 = .ok .pdfcmD := by
  decide

theorem test_decode_delta :
    decode 0x40000000#32 = .ok .deltaC ∧ decode 0x41000000#32 = .ok .deltaD ∧ decode 0x42000000#32 = .ok .delta2C ∧
    decode 0x43000000#32 = .ok .delta2D ∧ decode 0x44000000#32 = .ok .xordeltaC ∧
    decode 0x45000000#32 = .ok .xordeltaD ∧ decode 0x46000000#32 = .ok .deltaxorC ∧
    decode 0x47000000#32 = .ok .deltaxorD ∧ decode 0x48000000#32 = .ok .plainC ∧
    decode 0x49000000#32 = .ok .plainD ∧ decode 0x4A000000#32 = .ok .constC ∧ decode 0x4B000000#32 = .ok .constD ∧
    decode 0x4C000000#32 = .ok .deltaconstC ∧ decode 0x4D000000#32 = .ok .deltaconstD := by decide

theorem test_decode_rle_huff :
    decode 0x50000000#32 = .ok .rleC ∧ decode 0x51000000#32 = .ok .rleD ∧ decode 0x58000000#32 = .ok .huffC ∧
    decode 0x59000000#32 = .ok .huffD := by decide

theorem test_decode_stats_control :
    decode 0x60000000#32 = .ok .stats ∧ decode 0x61000000#32 = .ok .classify ∧ decode 0xF0000000#32 = .ok .clrerr ∧
    decode 0xF1000000#32 = .ok .sreset := by decide

/-- The illegal words of 95_test_vectors.md section 12. -/
theorem test_decode_refuses :
    decode 0x03000080#32 = .error .field ∧ decode 0x02000002#32 = .error .field ∧
    decode 0x04000001#32 = .error .field ∧ decode 0x20010000#32 = .error .field ∧
    decode 0xF0000001#32 = .error .field ∧ decode 0x08000000#32 = .error .opcode ∧
    decode 0x26000000#32 = .error .opcode ∧ decode 0x4E000000#32 = .error .opcode ∧
    decode 0x62000000#32 = .error .opcode ∧ decode 0xFF000000#32 = .error .opcode := by decide

/-- The host's question: the table's bits, and a word of more than 32 bits. -/
theorem test_decodeTableWord :
    decodeTableWord 32 0x0300000C = some (.appendbits 12) ∧ decodeTableWord 32 0x08000000 = none ∧
    decodeTableWord 40 0x0300000C = none := by decide

/-! ## Well-formedness: the one check, on both commands it applies to -/

theorem test_wellFormed_appendbits :
    (Instr.appendbits 127).wellFormed = true ∧ (Instr.appendbits 128).wellFormed = false := by decide

theorem test_wellFormed_readbits :
    (Instr.readbits 127).wellFormed = true ∧ (Instr.readbits 128).wellFormed = false := by decide

/-! ## Single steps (95_test_vectors.md) -/

theorem test_nop : answers (exec .nop (withSrc [3])) (fun t => t = withSrc [3]) = true := by decide +kernel

/-- The bytes are not cleared and nothing is promised of them; an empty stream is left as it is. -/
theorem test_bsreset :
    answers (exec .bsreset (loaded [0xAB] 0 0)) (fun t => t.blen = 0 && t.rpos = 0 && t.buf.known = []) = true ∧
    answers (exec .bsreset (withSrc [3])) (fun t => t = withSrc [3]) = true := by decide +kernel

/-- Section 3 row 6: nine bits alternating from 0; the ninth is a 0 in bit 7 of the next byte. Of a byte the host wrote only
the bits below the new `BLEN` stay specified (R354). -/
theorem test_appendbit :
    answers (exec (.appendbit true) (holding [false])) (fun t => t.blen = 2 && t.buf.bits 0 2 = [false, true]) = true ∧
    answers (exec (.appendbit false) { loaded [0xFF] 0 0 with blen := 0 })
      (fun t => t.blen = 1 && t.buf.known = [(0, 0x80)] && t.buf.bits 0 1 = [false]) = true := by decide +kernel

/-- Section 3 row 10. -/
theorem test_appendbit_overflow :
    answers (exec (.appendbit true) (small 1 (loaded [0xAB] 0 0)))
      (fun t => t.status = 0x00020105 && t.blen = 8) = true := by decide +kernel

/-- Section 3 row 3: only the low 12 bits are taken. -/
theorem test_appendbits :
    answers (exec (.appendbits 12) { holding [] with val := 0xFFFFFABC })
      (fun t => t.blen = 12 && t.buf.byte 0 = 0xAB && t.buf.bits 8 4 = [true, true, false, false]) = true := by
  decide +kernel

/-- Section 3 row 8. -/
theorem test_appendbits_zero :
    answers (exec (.appendbits 0) (holding [])) (fun t => t.status = 0x00030103 && t.blen = 0) = true := by decide +kernel

/-- Section 3 row 1: the bits 1101 become the byte D0. -/
theorem test_finish :
    answers (exec .finish (holding [true, true, false, true])) (fun t => t.blen = 8 && t.buf.byte 0 = 0xD0) = true := by
  decide +kernel

theorem test_rewind : answers (exec .rewind { loaded [0xAB] 0 0 with rpos := 5 }) (fun t => t.rpos = 0) = true := by
  decide +kernel

/-- Program P1 step 10: the fourth bit of BA is 1. -/
theorem test_readbit :
    answers (exec .readbit { loaded [0xBA, 0xBC] 0 0 with rpos := 3 }) (fun t => t.val = 1 && t.rpos = 4) = true := by
  decide +kernel

/-- Section 3 row 12. -/
theorem test_readbit_empty : answers (exec .readbit (holding [])) (fun t => t.status = 0x00060101) = true := by
  decide +kernel

/-- Section 3 row 2: 64 bits across byte boundaries. -/
theorem test_readbits :
    answers (exec (.readbits 64) { loaded [0x80, 0x91, 0xA2, 0xB3, 0xC4, 0xD5, 0xE6, 0xF7, 0x80] 0 0 with rpos := 1 })
      (fun t => t.val = 0x0123456789ABCDEF && t.rpos = 65) = true := by decide +kernel

/-- Section 3 row 9. -/
theorem test_readbits_count : answers (exec (.readbits 127) (holding [])) (fun t => t.status = 0x00070103) = true := by
  decide +kernel

/-- Section 4.1: 300 and -2^63. -/
theorem test_varput :
    answers (exec .varput { holding [] with val := 300 }) (fun t => bodyOf t = [0xD8, 0x04]) = true ∧
    answers (exec .varput { holding [] with val := 0x8000000000000000 })
      (fun t => bodyOf t = [0xFF, 0xFF, 0xFF, 0xFF, 0xFF, 0xFF, 0xFF, 0xFF, 0xFF, 0x01]) = true := by decide +kernel

/-- Section 4.1, last line: `BLEN` = 4. -/
theorem test_varput_unaligned :
    answers (exec .varput (holding [true, true, true, true])) (fun t => t.status = 0x00100503) = true := by decide +kernel

/-- Section 4.2: an over-long form of -1. -/
theorem test_varget :
    answers (exec .varget (loaded [0x81, 0x80, 0x00] 0 0)) (fun t => t.val = ones && t.rpos = 24) = true := by
  decide +kernel

/-- Section 4.2: a tenth byte of 2. -/
theorem test_varget_overflow :
    answers (exec .varget (loaded (List.replicate 9 0xFF ++ [0x02]) 0 0))
      (fun t => t.status = 0x00110602 && t.rpos = 0) = true := by decide +kernel

/-- Section 5, the block with a kept window. -/
theorem test_gorillaC :
    bodyIs .gorillaC [0x10, 0x30, 0x10, 0x1010]
      [0, 0, 0, 0, 0, 0, 0, 0x10, 0, 0x13, 0xFB, 0x60, 0, 0, 0x03, 0, 0, 0, 0x0C, 0, 0, 0x10, 0] = true := by
  decide +kernel

/-- Section 5, and a first value that differs. -/
theorem test_gorillaD :
    decodes .gorillaD [0, 0, 0, 0, 0, 0, 0, 1, 0, 0x0B, 0xFC, 0, 0, 0, 0, 0x30] 1 2 [1, 2] 124 = true ∧
    raises .gorillaD [0, 0, 0, 0, 0, 0, 0, 1, 0, 0x0B, 0xFC, 0, 0, 0, 0, 0x30] 9 2 0x00210502 = true := by decide +kernel

theorem test_gorillazC :
    bodyIs .gorillazC [0x10, 0x30, 0x10, 0x1010]
      [0, 0, 0, 0, 0, 0, 0, 0x10, 0, 0x13, 0xE1, 0x18, 0xF8, 0x31] = true := by decide +kernel

theorem test_gorillazD :
    decodes .gorillazD [0, 0, 0, 0, 0, 0, 0, 1, 0, 0x0B, 0xE3, 0x81, 0x80] 1 2 [1, 2] 97 = true := by decide +kernel

theorem test_gorillaplusC :
    bodyIs .gorillaplusC [0x10, 0x30, 0x10, 0x1010]
      [0, 0, 0, 0, 0, 0, 0, 0x10, 0, 0x13, 0xE8, 0x0D, 0xF3, 0x02] = true := by decide +kernel

theorem test_gorillaplusD :
    decodes .gorillaplusD [0, 0, 0, 0, 0, 0, 0, 1, 0, 0x0B, 0xF8, 0x1E, 0x7F, 0x42, 0xF1, 0x9C, 0x7F, 0x03, 0xF8, 0x69]
      1 2 [] 0 = false ∧
    decodes .gorillaplusD [0, 0, 0, 0, 0, 0, 0, 1, 0, 0x2B, 0xF8, 0x1E, 0x7F, 0x42, 0xF1, 0x9C, 0x7F, 0x03, 0xF8, 0x69]
      1 10 blockS 160 = true := by decide +kernel

/-- Section 6: lead 14 kept, then the two short records. -/
theorem test_chimpC :
    bodyIs .chimpC [0, 1, 3, 2]
      [0, 0, 0, 0, 0, 0, 0, 0, 0, 0x13, 0xE0, 0, 0, 0, 0, 0, 0x0C, 0, 0, 0, 0, 0, 0x01, 0x40, 0, 0, 0, 0, 0, 0x08] = true ∧
    bodyIs .chimpC [0, 0x10000000000, 0x30000000000]
      [0, 0, 0, 0, 0, 0, 0, 0, 0, 0x0D, 0xE4, 0x80, 0x2F, 0x20, 0x02] = true := by decide +kernel

theorem test_chimpD :
    decodes .chimpD [0, 0, 0, 0, 0, 0, 0, 0, 0, 0x0D, 0xE4, 0x80, 0x2F, 0x20, 0x02] 0 3
      [0, 0x10000000000, 0x30000000000] 119 = true ∧
    raises .chimpD [0, 0, 0, 0, 0, 0, 0, 1, 0, 0x0B, 0xE0, 0, 0, 0, 0, 0] 1 2 0x00290101 = true := by decide +kernel

/-- Section 7. -/
theorem test_fpcC :
    bodyIs .fpcC [0x0102030405060708, 0x0102030405060708, 0x0102030405060709]
      [0x00, 0x0C, 0x00, 0x40, 0x80, 0xC1, 0x01, 0x41, 0x81, 0xC2, 0x3C, 0x03, 0xC0, 0x40] = true := by decide +kernel

theorem test_fpcD :
    decodes .fpcD [0x00, 0x09, 0xC1, 0x5C, 0x00] 5 2 [5, 5] 38 = true ∧
    raises .fpcD [0x00, 0x09, 0xC1, 0x5C, 0x00] 5 3 0x00310402 = true := by decide +kernel

/-- Section 8: literal, literal, dictionary residual at index 2. -/
theorem test_pdfcmC :
    bodyIs .pdfcmC [0x1111111111111111, 0x2222222222222222, 0x3333333333333333, 0x11111111111111FF]
      [0x11, 0x11, 0x11, 0x11, 0x11, 0x11, 0x11, 0x11, 0x00, 0x13, 0x91, 0x11, 0x11, 0x11, 0x11, 0x11, 0x11, 0x11, 0x73,
        0x33, 0x33, 0x33, 0x33, 0x33, 0x33, 0x33, 0x3C, 0x87, 0xEE] = true := by decide +kernel

theorem test_pdfcmD :
    decodes .pdfcmD [0, 0, 0, 0, 0, 0, 0, 3, 0, 0x0E, 0x8E, 0x1F, 0x08] 3 3 [3, 9, 3] 101 = true ∧
    raises .pdfcmD [0, 0, 0, 0, 0, 0, 0, 0, 0, 0x0A, 0xC8, 0] 0 2 0x00390102 = true := by decide +kernel

/-- Section 9, the three rows of residuals of each scheme. -/
theorem test_deltaC :
    bodyIs .deltaC [10, 13, 13, 20] [0x06, 0x00, 0x0E] = true ∧ bodyIs .deltaC [100, 90, 85] [0x13, 0x09] = true ∧
    bodyIs .deltaC [0, ones, 0x8000000000000000]
      [0x01, 0xFD, 0xFF, 0xFF, 0xFF, 0xFF, 0xFF, 0xFF, 0xFF, 0xFF, 0x01] = true := by decide +kernel

theorem test_deltaD :
    decodes .deltaD [0x02, 0x02] 1 3 [1, 2, 3] 16 = true ∧ raises .deltaD [0x02, 0x02] 1 2 0x00410302 = true ∧
    raises .deltaD [0x02] 1 3 0x00410301 = true ∧ raises .deltaD [0x02, 0x80] 1 3 0x00410201 = true := by decide +kernel

theorem test_delta2C :
    bodyIs .delta2C [10, 13, 13, 20] [0x06, 0x05, 0x0E] = true ∧
    bodyIs .delta2C [0, ones, 0x8000000000000000]
      [0x01, 0xFB, 0xFF, 0xFF, 0xFF, 0xFF, 0xFF, 0xFF, 0xFF, 0xFF, 0x01] = true := by decide +kernel

/-- Section 9, last row: the wrong decoder completes with these items. -/
theorem test_delta2D :
    decodes .delta2D [2, 2, 2, 2, 2, 2, 2, 2, 0x11] 1 10 [1, 2, 4, 7, 11, 16, 22, 29, 37, 36] 72 = true := by
  decide +kernel

theorem test_xordeltaC :
    bodyIs .xordeltaC [10, 13, 13, 20] [0x06, 0x06, 0x0E] = true ∧
    bodyIs .xordeltaC [100, 90, 85] [0x13, 0x1A] = true := by decide +kernel

theorem test_xordeltaD : decodes .xordeltaD [0x06, 0x06, 0x0E] 10 4 [10, 13, 13, 20] 24 = true := by decide +kernel

theorem test_deltaxorC :
    bodyIs .deltaxorC [10, 13, 13, 20] [0x0E, 0x0D, 0x32] = true ∧
    bodyIs .deltaxorC [100, 90, 85] [0x7C, 0x5D] = true := by decide +kernel

theorem test_deltaxorD : decodes .deltaxorD [0x0E, 0x0D, 0x32] 10 4 [10, 13, 13, 20] 24 = true := by decide +kernel

theorem test_plainC : bodyIs .plainC [100, 90, 85] [0xB4, 0x01, 0xAA, 0x01] = true := by decide +kernel

theorem test_plainD : decodes .plainD [0xB4, 0x01, 0xAA, 0x01] 100 3 [100, 90, 85] 32 = true := by decide +kernel

theorem test_constC :
    bodyIs .constC [42, 42, 42] [] = true ∧
    answers (exec .constC (withSrc [5, 9])) (fun t => t.status = 0x004A0403 && t.blen = 0) = true := by decide +kernel

theorem test_constD :
    decodes .constD [] 42 3 [42, 42, 42] 0 = true ∧ raises .constD [0] 5 2 0x004B0302 = true := by decide +kernel

theorem test_deltaconstC :
    bodyIs .deltaconstC [10, 7, 4, 1] [0x05] = true ∧
    answers (exec .deltaconstC (withSrc [1, 2, 4])) (fun t => t.status = 0x004C0403) = true ∧
    answers (exec .deltaconstC (withSrc [5])) (fun t => t.status = 0x004C0203) = true := by decide +kernel

theorem test_deltaconstD :
    decodes .deltaconstD [0x08] 5 4 [5, 9, 13, 17] 8 = true ∧ raises .deltaconstD [] 5 2 0x004D0301 = true := by
  decide +kernel

theorem test_rleC :
    bodyIs .rleC [3, 3, 3, 4, 4, 3] [0x06, 0x06, 0x06, 0x08, 0x04, 0x06, 0x02] = true ∧
    bodyIs .rleC (List.replicate 95 5 ++ List.replicate 5 6) [0x04, 0x0A, 0xBE, 0x01, 0x0C, 0x0A] = true := by
  decide +kernel

/-- Section 10: an overshooting last run is cut; every error of the table. -/
theorem test_rleD :
    decodes .rleD [0x04, 0x06, 0x06, 0x08, 0x04] 3 4 [3, 3, 3, 4] 40 = true ∧
    raises .rleD [0x04, 0x06, 0x06, 0x08, 0x04] 3 3 0x00510302 = true ∧
    raises .rleD [0x04, 0x06, 0x06, 0x08, 0x04] 3 6 0x00510301 = true ∧
    raises .rleD [0x04, 0x06, 0x06, 0x08] 3 5 0x00510202 = true ∧
    raises .rleD [0x02, 0x06, 0x06, 0x08, 0x04] 3 5 0x00510402 = true ∧
    raises .rleD [0x01] 3 1 0x00510402 = true ∧ raises .rleD [0x02, 0x06, 0x01] 3 1 0x00510702 = true ∧
    raises .rleD [0x04, 0x06, 0x06, 0x08, 0x04] 9 5 0x00510502 = true ∧
    raises .rleD [0x04, 0x06, 0x06, 0x08, 0x84] 3 5 0x00510201 = true := by decide +kernel

theorem test_huffC :
    bodyIs .huffC [0x1234, 0x1235] [0x00, 0x02, 0x00, 0x08, 0x94, 0xE8, 0x00, 0x02, 0x00] = true := by decide +kernel

theorem test_huffD :
    decodes .huffD [0x00, 0x02, 0x00, 0x01, 0x00, 0x00, 0x00] 1 2 [1, 1] 51 = true ∧
    raises .huffD [0x00, 0x02, 0x00, 0x01, 0x00, 0x00, 0x00] 1 3 0x00590402 = true := by decide +kernel

/-- Section 11 row 12. -/
theorem test_stats :
    answers (exec .stats (withSrc [3, 3, 3, 4, 4, 3]))
      (fun t => t.sumbits = 6 && t.nzpairs = 2 && t.repeats = 3 && t.pairs = 5 && !t.statf) = true := by decide +kernel

/-- Section 11: the tag of rows 2, 3, 5, 10 (both readings), 13 and 14. -/
theorem test_classify :
    [[1, 2], [9], List.replicate 11 5, [1, 1, 3], [0, 0xFFFFF, 0, 0x1FFFFF], [0, 0xFFFFF, 0, 0x1FFFFF, 0]].map
      (fun ws => answers (exec .classify (withSrc ws)) (fun t => t.tag = 3)) =
      [false, false, false, true, true, false] ∧
    answers (exec .classify (withSrc [0, 0xFFFFF, 0, 0x1FFFFF, 0])) (fun t => t.tag = 5) = true ∧
    answers (exec .classify { withSrc [1, 1, 3] with cfg := { Config.default with statDenom := .all } })
      (fun t => t.tag = 4) = true ∧
    answers (exec .classify (withSrc (List.replicate 95 5 ++ List.replicate 5 6))) (fun t => t.tag = 2) = true := by
  decide +kernel

theorem test_clrerr :
    answers (exec .clrerr { loaded [0xAB] 7 2 with status := 0x00060101 })
      (fun t => t.status = 0 && t.blen = 8 && t.first = 7) = true := by decide +kernel

theorem test_sreset :
    answers (exec .sreset { loaded [0xAB] 7 2 with status := 0x00060101 })
      (fun t => t.status = 0 && t.blen = 0 && t.first = 0 && t.count = 0 && t.buf.byte 0 = 0xAB) = true := by decide +kernel

/-- Program P6, steps 1, 2 and 5: the record of the first error stands, but for a word that passes the gate. -/
theorem test_gate :
    answers (step (State.reset.withFetchWord 32 0x08000000)) (fun t => t.status = 0x00080104) = true ∧
    answers (step ({ State.reset with status := 0x00080104 }.withFetchWord 32 0x04000001))
      (fun t => t.status = 0x00080104) = true ∧
    answers (step ({ State.reset with status := 0x00040204 }.withFetchWord 32 0xF0000001))
      (fun t => t.status = 0x00F00204) = true := by decide +kernel

/-- Program P3's registers: `BYTELEN` of 9 bytes, then a value above the capacity, ignored. -/
theorem test_byteLen :
    answers (hostAction (.writeReg 6 9) State.reset) (fun t => t.blen = 72 && readRegister 6 t = 9) = true ∧
    answers (hostAction (.writeReg 6 262145) State.reset) (fun t => t.blen = 0) = true := by decide +kernel

/-! ## Witnesses: for each statement with hypotheses, a state and operands that meet them

A statement's clauses are met at the ends of their ranges. -/

/-- A state of 8 bits in a `BUF` of one byte: full. -/
def full : State := small 1 (loaded [0xAB] 0 0)

/-- A faulted state. -/
def faultedState : State := { State.reset with status := 0x00080104 }

/-- A block of `n` unspecified items. -/
def blockOf (n : Nat) : State := { State.reset with slen := BitVec.ofNat 32 n }

theorem blockOf_inv : (blockOf 0).Inv ∧ (blockOf 8192).Inv ∧ (blockOf 16384).Inv := by
  refine ⟨?_, ?_, ?_⟩ <;> constructor <;> decide +kernel

/-- The most items of a Huffman body, and of the other bit-packed ones, in a `BUF` that holds 80 bits for each and 80 more. -/
theorem blockOf_most_inv : (small 655360 (blockOf 65535)).Inv ∧ (blockOf 16383).Inv := by
  refine ⟨?_, ?_⟩ <;> constructor <;> decide +kernel

/-- Bits appended to an empty stream leave a state that meets the invariant. -/
theorem holding_inv (bits : List Bool) (h : bits.length ≤ 2000) : (holding bits).Inv := by
  have h0 := blockOf_inv.1
  have hn : (BitVec.ofNat 32 bits.length).toNat = bits.length := by
    rw [BitVec.toNat_ofNat]; exact Nat.mod_eq_of_lt (by omega)
  have hw : (ByteMemory.setBits ⟨[], [], []⟩ 0 bits).wf 262144 1 := 
    setBits_wf bits h0.buf_wf (by show 0 + bits.length ≤ 8 * 262144; omega)
  exact
    { cfg := h0.cfg, rpos_le := Nat.zero_le _, blen_le := by show (BitVec.ofNat 32 bits.length).toNat ≤ 2097152; omega
      slen_le := h0.slen_le, dlen_le := h0.dlen_le, tag_le := h0.tag_le, err_le := h0.err_le, status_zero := fun _ => rfl
      status_reserved := h0.status_reserved, pairs_eq := h0.pairs_eq, buf_wf := hw, src_wf := h0.src_wf
      dst_wf := h0.dst_wf }

/-- `FIRST` and `COUNT` are in no clause of the invariant. -/
theorem with_args_inv {s : State} (h : s.Inv) (first : Word) (count : Len) :
    ({ s with first := first, count := count } : State).Inv := ⟨h.1, h.2, h.3, h.4, h.5, h.6, h.7, h.8, h.9, h.10, h.11, h.12, h.13⟩

theorem full_inv : full.Inv := by constructor <;> decide +kernel

theorem faultedState_inv : faultedState.Inv := by constructor <;> decide +kernel

theorem withSrc_inv : (withSrc [5]).Inv ∧ (withSrc [5, 6]).Inv ∧ (withSrc [5, 5]).Inv ∧ (withSrc [1, 2, 4]).Inv := by
  refine ⟨?_, ?_, ?_, ?_⟩ <;> constructor <;> decide +kernel

theorem witness_DecodeEncode : (Instr.readbits 127).wellFormed = true ∧ (Instr.appendbits 0).wellFormed = true := by decide

theorem witness_CommandWriteOrder :
    (faultedState.err ≠ 0 ∧ opcField 0xEF000000#32 ≠ 0xF0 ∧ opcField 0xEF000000#32 ≠ 0xF1) ∧
    (State.reset.err = 0 ∧ opcField 0xF2000000#32 ∉ definedOpcodes) ∧
    (opcField 0xF0000001#32 = 0xF0 ∧ opcField 0xF0000001#32 ∈ definedOpcodes ∧
      0xF0000001#32 &&& mustBeZero (opcField 0xF0000001#32) ≠ 0) ∧
    (opcField 0x0300007F#32 ∈ definedOpcodes ∧ 0x0300007F#32 &&& mustBeZero (opcField 0x0300007F#32) = 0) ∧
    0x03000080#32 &&& mustBeZero (opcField 0x03000080#32) ≠ 0 := by decide

theorem witness_FaultedDiscards :
    (faultedState.err ≠ 0 ∧ opcField ((0x05000000 : Word).setWidth 32) ≠ 0xF0 ∧
      opcField ((0x05000000 : Word).setWidth 32) ≠ 0xF1) ∧
    ∃ t, (∀ v, HostEvent.writeReg 2 7 ≠ .writeReg 0 v) ∧ HostEvent.writeReg 2 7 ≠ .readReg 1 ∧
      HostEvent.writeReg 2 7 ≠ .hwReset ∧ hostAction (.writeReg 2 7) State.reset = .next t :=
  ⟨by decide, _, fun v => by simp, by simp, by simp, rfl⟩

theorem witness_StepRunsCommand :
    decode 0xF1000000#32 = .ok .sreset ∧ opcField 0xF1000000#32 = 0xF1 ∧ faultedState.err ≠ 0 ∧
      decode 0x02000001#32 = .ok (.appendbit true) ∧ State.reset.err = 0 ∧
      ∃ s : State, ∃ v : Word, s.inputs = [.writeReg 0 v] ∧ v.setWidth 32 = 0x02000001#32 :=
  ⟨by decide, by decide, by decide, by decide, by decide, { State.reset with inputs := [.writeReg 0 0xFF02000001] },
    0xFF02000001, rfl, by decide⟩

theorem witness_ClrerrUnfaults :
    (opcField 0xF0000001#32 = 0xF0 ∧ (0xF0000001#32).extractLsb' 0 24 ≠ 0) ∧
    (opcField 0xF1800000#32 = 0xF1 ∧ (0xF1800000#32).extractLsb' 0 24 ≠ 0) := by decide

theorem witness_ErrorsOnlyByTable : full.Inv ∧ ∃ t, exec (.appendbit true) full = .next t ∧ t.status ≠ full.status :=
  ⟨full_inv, _, rfl, by decide +kernel⟩

theorem witness_ResetValues : decode 0x20000000#32 = .ok .gorillaC := by decide

theorem witness_StepKeepsInv :
    (full.withFetchWord 32 0x02000001).Inv ∧ ∃ t, step (full.withFetchWord 32 0x02000001) = .next t ∧ t.err = 5 :=
  ⟨by constructor <;> decide +kernel, _, rfl, by decide +kernel⟩

theorem witness_RegistersKept :
    ∃ t, exec .finish full = .next t ∧ Instr.finish ≠ .sreset ∧ Instr.finish ≠ .readbit ∧
      (∀ n, Instr.finish ≠ .readbits n) ∧ Instr.finish ≠ .varget ∧ Instr.finish ∉ compressCommands ∧
      Instr.finish ∉ decompressCommands ∧ Instr.finish ≠ .classify ∧ Instr.finish ≠ .stats :=
  ⟨_, rfl, by decide, by decide, fun n => by simp, by decide, by decide, by decide, by decide, by decide⟩

theorem witness_MemoriesKept :
    (full.Inv ∧ ∃ t, exec (.readbits 9) full = .next t ∧ Instr.readbits 9 ∉ compressCommands ∧ 7 < full.blen.toNat) ∧
    (({ full with dlen := 1 } : State).Inv ∧ 0 < ({ full with dlen := 1 } : State).dlen.toNat) :=
  ⟨⟨full_inv, _, rfl, by decide, by decide +kernel⟩, by constructor <;> decide +kernel, by decide⟩

theorem witness_StreamControl :
    State.reset.err = 0 ∧ State.reset.blen = 0 ∧ State.reset.rpos = 0 ∧ (holding [true]).blen ≠ 0 := by decide +kernel

theorem witness_AppendBit :
    (small 1 (holding (List.replicate 7 true))).cfg.wf ∧
      (small 1 (holding (List.replicate 7 true))).blen.toNat + 1 ≤
        (small 1 (holding (List.replicate 7 true))).bufBits := by decide +kernel

theorem witness_AppendBits :
    State.reset.cfg.wf ∧ 1 ≤ 64 ∧ 64 ≤ 64 ∧ (small 8 (holding [])).blen.toNat + 64 ≤ (small 8 (holding [])).bufBits ∧
      (small 1 (holding (List.replicate 7 true))).blen.toNat + 1 ≤
        (small 1 (holding (List.replicate 7 true))).bufBits := by decide +kernel

/-- One bit, seven bits, and a byte boundary. -/
theorem witness_FinishPads :
    (holding [true]).Inv ∧ (holding [true]).blen.toNat % 8 ≠ 0 ∧ (holding (List.replicate 7 true)).Inv ∧
      (holding (List.replicate 7 true)).blen.toNat % 8 ≠ 0 ∧ full.Inv ∧ full.blen.toNat % 8 = 0 :=
  ⟨holding_inv _ (by decide), by decide +kernel, holding_inv _ (by decide), by decide +kernel, full_inv, by decide +kernel⟩

theorem witness_ReadBits :
    (holding [true]).rpos.toNat + 1 ≤ (holding [true]).blen.toNat ∧
      (holding (List.replicate 64 true)).rpos.toNat + 64 ≤ (holding (List.replicate 64 true)).blen.toNat := by
  decide +kernel

/-- A full `BUF`; the counts 0 and 65; an empty stream; off a byte boundary. `VARGET`: off a boundary; nothing left, and nine
continuation bytes; a tenth byte of 2. -/
theorem witness_PrimitiveErrors :
    ((full.bufBits < full.blen.toNat + 1) ∧ (0 < 1 ∧ 64 < 65) ∧ (State.reset.blen.toNat < State.reset.rpos.toNat + 1) ∧
      (holding [true]).blen.toNat % 8 ≠ 0 ∧
      (full.blen.toNat % 8 = 0 ∧ full.bufBits < full.blen.toNat + 8 * (varintBytes full.val).length)) ∧
    ({ full with rpos := 1 } : State).rpos.toNat % 8 ≠ 0 ∧
    (State.reset.blen.toNat - State.reset.rpos.toNat) / 8 = 0 ∧
    ((loaded (List.replicate 9 0x80) 0 0).blen.toNat / 8 = 9 ∧
      (List.range 9).all (fun j => 128 ≤ ((loaded (List.replicate 9 0x80) 0 0).buf.byte j).toNat) = true) ∧
    ((loaded (List.replicate 9 0x80 ++ [0x02]) 0 0).blen.toNat / 8 = 10 ∧
      (List.range 9).all (fun j => 128 ≤ ((loaded (List.replicate 9 0x80 ++ [0x02]) 0 0).buf.byte j).toNat) = true ∧
      1 < ((loaded (List.replicate 9 0x80 ++ [0x02]) 0 0).buf.byte 9).toNat) := by decide +kernel

theorem witness_PutGetRoundTrip :
    ∃ s : State, ∃ gs : List (Word × Nat), s.Inv ∧ s.blen = 0 ∧ (∀ g ∈ gs, 1 ≤ g.2 ∧ g.2 ≤ 64) ∧
      (gs.map Prod.snd).sum = s.bufBits ∧ gs.length = 2 :=
  ⟨small 9 (holding []), [(5, 8), (7, 64)], by constructor <;> decide +kernel, rfl, by decide, rfl, rfl⟩

theorem witness_BigEndianGroups :
    (small 8 (holding [])).cfg.wf ∧ (small 8 (holding [])).blen.toNat % 8 = 0 ∧
      (small 8 (holding [])).blen.toNat + 8 * 8 ≤ (small 8 (holding [])).bufBits := by decide +kernel

theorem witness_VarPut :
    (small 1 (holding [])).cfg.wf ∧ (small 1 (holding [])).blen.toNat % 8 = 0 ∧
      (small 1 (holding [])).blen.toNat + 8 * (varintBytes (small 1 (holding [])).val).length ≤
        (small 1 (holding [])).bufBits := by decide +kernel

/-- The two ends: one byte, and ten bytes of which the tenth is 1. -/
theorem witness_VarGetForms :
    ∀ bs ∈ [[(0x7F : Byte)], List.replicate 9 0x80 ++ [0x01]],
      (loaded bs 0 0).rpos.toNat % 8 = 0 ∧ 1 ≤ bs.length ∧ bs.length ≤ 10 ∧
      (loaded bs 0 0).rpos.toNat + 8 * bs.length ≤ (loaded bs 0 0).blen.toNat ∧
      (List.range bs.length).all (fun j => (loaded bs 0 0).buf.byte j = bs.getD j 0 ∧
        (128 ≤ (bs.getD j 0).toNat ↔ j + 1 < bs.length)) = true ∧ (bs.getD 9 0).toNat ≤ 1 := by decide +kernel

theorem witness_HostMemory :
    262143 < State.reset.cfg.bufCap ∧ 65535 < State.reset.cfg.vcap ∧ 0 < full.cfg.bufCap ∧
      State.reset.cfg.bufCap ≤ 262144 ∧ State.reset.cfg.vcap ≤ 65536 := by decide

theorem witness_HostRegisters :
    0x01 ∉ [0x00, 0x02, 0x03, 0x04, 0x06, 0x08, 0x09] ∧ 0x05 ∉ [0x00, 0x02, 0x03, 0x04, 0x06, 0x08, 0x09] ∧
      0x0A ∉ [0x00, 0x02, 0x03, 0x04, 0x06, 0x08, 0x09] ∧ 0x10 ∉ [0x00, 0x02, 0x03, 0x04, 0x06, 0x08, 0x09] := by decide

theorem witness_StatsResults : (blockOf 0).Inv ∧ (withSrc [5, 6]).Inv := ⟨blockOf_inv.1, withSrc_inv.2.1⟩

theorem witness_NzNeverNearestDelta2 : (withSrc [1, 2, 4]).Inv ∧ (withSrc [1, 2, 4]).cfg.statDenom = .nz :=
  ⟨withSrc_inv.2.2.2, rfl⟩

theorem witness_SelectorGuarantees :
    ((withSrc [5]).Inv ∧ 1 ≤ (withSrc [5]).slen.toNat ∧
      answers (exec .classify (withSrc [5])) (fun t => t.tag = 0) = true) ∧
    ((withSrc [5, 6]).Inv ∧ 10 ≤ (withSrc [5, 6]).cfg.bufCap ∧
      answers (exec .classify (withSrc [5, 6])) (fun t => t.tag = 1) = true) :=
  ⟨⟨withSrc_inv.1, by decide +kernel⟩, withSrc_inv.2.1, by decide +kernel⟩

/-- Two different states with the same block. -/
theorem witness_SelectorPure :
    withSrc [5, 6] ≠ { withSrc [5, 6] with val := 1 } ∧ (withSrc [5, 6]).slen = ({ withSrc [5, 6] with val := 1 } : State).slen ∧
      (∀ i, i < (withSrc [5, 6]).slen.toNat → (withSrc [5, 6]).srcAt i = ({ withSrc [5, 6] with val := 1 } : State).srcAt i) ∧
      (withSrc [5, 6]).cfg.statDenom = ({ withSrc [5, 6] with val := 1 } : State).cfg.statDenom :=
  ⟨by decide +kernel, rfl, fun _ _ => rfl, rfl⟩

/-! ### The codec pairs: exactness, a body cut short, a body too long -/

/-- The hypotheses of `RoundTrips`, met on one block, and of `RefusesExtra` on the same block. -/
def ExactHyps (minN maxN : State → Nat) (body : State → List Word → Except Cause (List Bool)) : Prop :=
  ∃ s u x bits, s.Inv ∧ minN s ≤ s.slen.toNat ∧ s.slen.toNat ≤ maxN s ∧ body s s.srcItems = .ok bits ∧
    bits.length ≤ s.bufBits ∧
    (u.Inv ∧ u.cfg.fpcLog2 = s.cfg.fpcLog2 ∧ HoldsBody u bits (s.srcAt 0) s.slen.toNat ∧
      u.dlen.toNat + s.slen.toNat ≤ u.cfg.vcap) ∧
    (x.Inv ∧ x.cfg.fpcLog2 = s.cfg.fpcLog2 ∧ HoldsExtra x bits (s.srcAt 0) s.slen.toNat ∧
      x.dlen.toNat + s.slen.toNat ≤ x.cfg.vcap)

/-- The hypotheses of `RefusesCut`, met on one block. -/
def CutHyps (minN maxN : State → Nat) (body : State → List Word → Except Cause (List Bool)) : Prop :=
  ∃ s u bits, s.Inv ∧ u.Inv ∧ u.cfg.fpcLog2 = s.cfg.fpcLog2 ∧ minN s ≤ s.slen.toNat ∧ s.slen.toNat ≤ maxN s ∧
    body s s.srcItems = .ok bits ∧ bits ≠ [] ∧ bits.length ≤ s.bufBits ∧ HoldsCut u bits (s.srcAt 0) s.slen.toNat ∧
    u.dlen.toNat + s.slen.toNat ≤ u.cfg.vcap

/-- The state that holds `bits`, then `FIRST` and `COUNT`. -/
def bodyState (bits : List Bool) (first : Word) (count : Nat) : State :=
  { holding bits with first := first, count := BitVec.ofNat 32 count }

theorem bodyState_bits (bits tail : List Bool) (first : Word) (count : Nat) :
    (bodyState (bits ++ tail) first count).buf.bits 0 bits.length = bits := by
  show (ByteMemory.setBits ⟨[], [], []⟩ 0 (bits ++ tail)).bits 0 bits.length = bits
  have h := bits_setBits ⟨[], [], []⟩ 0 (bits ++ tail)
  rw [List.length_append, bits_append] at h
  exact (List.append_inj h (by simp)).1

theorem bodyState_blen (bits : List Bool) (first : Word) (count : Nat) (h : bits.length ≤ 2000) :
    (bodyState bits first count).blen.toNat = bits.length := by
  show (BitVec.ofNat 32 bits.length).toNat = bits.length
  rw [BitVec.toNat_ofNat]; exact Nat.mod_eq_of_lt (by omega)

theorem bodyState_inv (bits : List Bool) (first : Word) (count : Nat) (h : bits.length ≤ 2000) :
    (bodyState bits first count).Inv := with_args_inv (holding_inv bits h) _ _

theorem exactHyps {minN maxN : State → Nat} {body : State → List Word → Except Cause (List Bool)} (s : State)
    (bits : List Bool) (hs : s.Inv) (h1 : minN s ≤ s.slen.toNat) (h2 : s.slen.toNat ≤ maxN s)
    (hb : body s s.srcItems = .ok bits) (hl : bits.length ≤ 1000) (hc : s.cfg = Config.default) :
    ExactHyps minN maxN body := by
  have hp : (padding bits.length).length < 8 := by rw [padding_length]; omega
  have hv : s.slen.toNat ≤ 65536 := by have := hs.slen_le; rw [hc] at this; exact this
  have hcount : (BitVec.ofNat 32 s.slen.toNat).toNat = s.slen.toNat := by simp
  have e1 := bodyState_blen (bits ++ padding bits.length) (s.srcAt 0) s.slen.toNat (by rw [List.length_append]; omega)
  have e2 := bodyState_blen (bits ++ (padding bits.length ++ List.replicate 8 false)) (s.srcAt 0) s.slen.toNat
    (by simp only [List.length_append, List.length_replicate]; omega)
  refine ⟨s, bodyState (bits ++ padding bits.length) (s.srcAt 0) s.slen.toNat,
    bodyState (bits ++ (padding bits.length ++ List.replicate 8 false)) (s.srcAt 0) s.slen.toNat, bits, hs, h1, h2, hb,
    ?_, ⟨bodyState_inv _ _ _ (by rw [List.length_append]; omega), by rw [hc]; rfl, ⟨?_, bodyState_bits _ _ _ _, rfl, hcount⟩, ?_⟩,
    bodyState_inv _ _ _ (by simp only [List.length_append, List.length_replicate]; omega), by rw [hc]; rfl,
    ⟨?_, bodyState_bits _ _ _ _, rfl, hcount⟩, ?_⟩
  · rw [State.bufBits, hc]; show bits.length ≤ 8 * 262144; omega
  · rw [e1, List.length_append]
  · show 0 + s.slen.toNat ≤ 65536; omega
  · rw [e2]; simp only [List.length_append, List.length_replicate]; omega
  · show 0 + s.slen.toNat ≤ 65536; omega

theorem cutHyps {minN maxN : State → Nat} {body : State → List Word → Except Cause (List Bool)} (s : State)
    (bits : List Bool) (hs : s.Inv) (h1 : minN s ≤ s.slen.toNat) (h2 : s.slen.toNat ≤ maxN s)
    (hb : body s s.srcItems = .ok bits) (hl : bits.length ≤ 1000) (hne : bits ≠ []) (hc : s.cfg = Config.default) :
    CutHyps minN maxN body := by
  have hp : (padding bits.length).length < 8 := by rw [padding_length]; omega
  have hm := add_padding_mod bits.length
  have hpos : 0 < bits.length := List.length_pos_iff.2 hne
  have hv : s.slen.toNat ≤ 65536 := by have := hs.slen_le; rw [hc] at this; exact this
  have hcount : (BitVec.ofNat 32 s.slen.toNat).toNat = s.slen.toNat := by simp
  have hlen : (bits.take (bits.length + (padding bits.length).length - 8)).length
      = bits.length + (padding bits.length).length - 8 := by rw [List.length_take]; omega
  have e1 := bodyState_blen (bits.take (bits.length + (padding bits.length).length - 8)) (s.srcAt 0) s.slen.toNat
    (by rw [hlen]; omega)
  have e2 := bodyState_bits (bits.take (bits.length + (padding bits.length).length - 8)) [] (s.srcAt 0) s.slen.toNat
  rw [List.append_nil] at e2
  refine ⟨s, bodyState (bits.take (bits.length + (padding bits.length).length - 8)) (s.srcAt 0) s.slen.toNat, bits, hs,
    bodyState_inv _ _ _ (by rw [hlen]; omega), by rw [hc]; rfl, h1, h2, hb, hne, ?_, ⟨?_, ?_, rfl, hcount⟩, ?_⟩
  · rw [State.bufBits, hc]; show bits.length ≤ 8 * 262144; omega
  · rw [e1, hlen]; omega
  · rw [e1, e2, hlen]
  · show 0 + s.slen.toNat ≤ 65536; omega

/-- One item: the least block. -/
theorem witness_exact_bits :
    ExactHyps (fun _ => 1) (fun _ => 16383) (fun _ vs => gorillaBody .g vs) ∧
    ExactHyps (fun _ => 1) (fun _ => 16383) (fun _ vs => gorillaBody .z vs) ∧
    ExactHyps (fun _ => 1) (fun _ => 16383) (fun _ vs => gorillaBody .p vs) ∧
    ExactHyps (fun _ => 1) (fun _ => 16383) (fun _ vs => chimpBody vs) ∧
    ExactHyps (fun _ => 1) (fun _ => 16383) (fun s vs => fpcBody s.cfg.fpcLog2 vs) ∧
    ExactHyps (fun _ => 1) (fun _ => 16383) (fun s vs => pdfcmBody s.cfg.fpcLog2 vs) ∧
    ExactHyps (fun _ => 1) (fun _ => 65535) (fun _ vs => huffBody vs) := by
  refine ⟨?_, ?_, ?_, ?_, ?_, ?_, ?_⟩ <;>
    exact exactHyps (withSrc [5]) _ withSrc_inv.1 (by decide +kernel) (by decide +kernel) rfl (by decide +kernel) rfl

theorem witness_exact_bytes :
    ExactHyps (fun _ => 1) (fun s => s.cfg.vcap) (fun _ vs => residBody .delta vs) ∧
    ExactHyps (fun _ => 1) (fun s => s.cfg.vcap) (fun _ vs => residBody .delta2 vs) ∧
    ExactHyps (fun _ => 1) (fun s => s.cfg.vcap) (fun _ vs => residBody .xorDelta vs) ∧
    ExactHyps (fun _ => 1) (fun s => s.cfg.vcap) (fun _ vs => residBody .deltaXor vs) ∧
    ExactHyps (fun _ => 1) (fun s => s.cfg.vcap) (fun _ vs => residBody .plain vs) ∧
    ExactHyps (fun _ => 1) (fun s => s.cfg.vcap) (fun _ vs => rleBody vs) := by
  refine ⟨?_, ?_, ?_, ?_, ?_, ?_⟩ <;>
    exact exactHyps (withSrc [5, 6]) _ withSrc_inv.2.1 (by decide +kernel) (by decide +kernel) rfl (by decide +kernel) rfl

theorem witness_exact_const :
    ExactHyps (fun _ => 1) (fun s => s.cfg.vcap) (fun _ vs => constBody vs) ∧
    ExactHyps (fun _ => 2) (fun s => s.cfg.vcap) (fun _ vs => deltaconstBody vs) :=
  ⟨exactHyps (withSrc [5, 5]) [] withSrc_inv.2.2.1 (by decide +kernel) (by decide +kernel) (by decide +kernel) (by decide) rfl,
    exactHyps (withSrc [5, 6]) (varintBits 1) withSrc_inv.2.1 (by decide +kernel) (by decide +kernel) (by decide +kernel)
      (by decide +kernel) rfl⟩

theorem witness_cut_bits :
    CutHyps (fun _ => 1) (fun _ => 16383) (fun _ vs => gorillaBody .g vs) ∧
    CutHyps (fun _ => 1) (fun _ => 16383) (fun _ vs => gorillaBody .z vs) ∧
    CutHyps (fun _ => 1) (fun _ => 16383) (fun _ vs => gorillaBody .p vs) ∧
    CutHyps (fun _ => 1) (fun _ => 16383) (fun _ vs => chimpBody vs) ∧
    CutHyps (fun _ => 1) (fun _ => 16383) (fun s vs => fpcBody s.cfg.fpcLog2 vs) ∧
    CutHyps (fun _ => 1) (fun _ => 16383) (fun s vs => pdfcmBody s.cfg.fpcLog2 vs) ∧
    CutHyps (fun _ => 1) (fun _ => 65535) (fun _ vs => huffBody vs) := by
  refine ⟨?_, ?_, ?_, ?_, ?_, ?_, ?_⟩ <;>
    exact cutHyps (withSrc [5]) _ withSrc_inv.1 (by decide +kernel) (by decide +kernel) rfl (by decide +kernel)
      (by decide +kernel) rfl

theorem witness_cut_bytes :
    CutHyps (fun _ => 1) (fun s => s.cfg.vcap) (fun _ vs => residBody .delta vs) ∧
    CutHyps (fun _ => 1) (fun s => s.cfg.vcap) (fun _ vs => residBody .delta2 vs) ∧
    CutHyps (fun _ => 1) (fun s => s.cfg.vcap) (fun _ vs => residBody .xorDelta vs) ∧
    CutHyps (fun _ => 1) (fun s => s.cfg.vcap) (fun _ vs => residBody .deltaXor vs) ∧
    CutHyps (fun _ => 1) (fun s => s.cfg.vcap) (fun _ vs => residBody .plain vs) ∧
    CutHyps (fun _ => 2) (fun s => s.cfg.vcap) (fun _ vs => deltaconstBody vs) ∧
    CutHyps (fun _ => 1) (fun s => s.cfg.vcap) (fun _ vs => rleBody vs) := by
  refine ⟨?_, ?_, ?_, ?_, ?_, ?_, ?_⟩ <;>
    exact cutHyps (withSrc [5, 6]) _ withSrc_inv.2.1 (by decide +kernel) (by decide +kernel) rfl (by decide +kernel)
      (by decide +kernel) rfl

/-! ### The other codec statements -/

/-- No items, one, the most a count header holds, and one more. -/
theorem witness_CompressAnswers :
    Instr.gorillaC ∈ compressCommands ∧ (blockOf 16384).Inv ∧ (blockOf 0).slen.toNat < minItems .gorillaC ∧
    (maxItems .gorillaC (blockOf 16384).cfg.vcap < (blockOf 16384).slen.toNat) ∧
    (minItems .gorillaC ≤ (blockOf 1).slen.toNat ∧ (blockOf 16383).slen.toNat ≤ maxItems .gorillaC (blockOf 16383).cfg.vcap) ∧
    (minItems .deltaconstC = 2 ∧ maxItems .huffC 65536 = 65535 ∧ maxItems .deltaC 65536 = 65536) :=
  ⟨by decide, blockOf_inv.2.2, by decide +kernel⟩

/-- One item in a `BUF` of twenty bytes; 16383 and 65535 items. -/
theorem witness_BodyHeaders :
    ((small 20 (withSrc [5])).slen.toNat = 1 ∧ 80 * (withSrc [5]).slen.toNat + 80 ≤ (small 20 (withSrc [5])).bufBits) ∧
    ((blockOf 16383).Inv ∧ (blockOf 16383).slen.toNat = 16383 ∧
      80 * (blockOf 16383).slen.toNat + 80 ≤ (blockOf 16383).bufBits) ∧
    ((small 655360 (blockOf 65535)).Inv ∧ (blockOf 65535).slen.toNat = 65535 ∧
      80 * (blockOf 65535).slen.toNat + 80 ≤ (small 655360 (blockOf 65535)).bufBits) :=
  ⟨by decide +kernel, ⟨blockOf_most_inv.2, by decide +kernel⟩, blockOf_most_inv.1, by decide +kernel⟩

/-- The hypotheses of a statement about a body by formula, met on the blocks of one and of two items. -/
def RecordHyps (bits : State → List Bool) : Prop :=
  ∀ s ∈ [withSrc [5], withSrc [5, 6]], s.Inv ∧ 1 ≤ s.slen.toNat ∧ s.slen.toNat ≤ 16383 ∧ (bits s).length ≤ s.bufBits

theorem recordHyps {bits : State → List Bool} (h1 : (bits (withSrc [5])).length ≤ 1000)
    (h2 : (bits (withSrc [5, 6])).length ≤ 1000) : RecordHyps bits := by
  intro s hs
  simp only [List.mem_cons, List.not_mem_nil, or_false] at hs
  have hb : ∀ ws, (withSrc ws).bufBits = 2097152 := fun _ => rfl
  rcases hs with rfl | rfl
  · exact ⟨withSrc_inv.1, by decide +kernel, by decide +kernel, by rw [hb]; omega⟩
  · exact ⟨withSrc_inv.2.1, by decide +kernel, by decide +kernel, by rw [hb]; omega⟩

/-- All three layouts; and for `Contain` a window that holds the XOR, one it fills, and one it does not fit. -/
theorem witness_GorillaRecords :
    (∀ fmt ∈ [formatG, formatZ, formatP], RecordHyps fun s =>
      framingBits (s.srcAt 0) s.slen.toNat ++ (List.range (s.slen.toNat - 1)).flatMap (fmt.record s.srcAt)) ∧
    ∃ st : GorillaState, (3 : Word) ≠ 0 ∧ st.w ≠ 0 ∧ st.pl + st.w = 64 ∧ st.contains (clz 3) (ctz 3) = true ∧
      st.contains (clz 1) (ctz ones) = true ∧ st.contains (clz ones) (ctz ones) = false := by
  refine ⟨?_, ⟨0, 31, 33⟩, by decide +kernel⟩
  intro fmt hf
  simp only [List.mem_cons, List.not_mem_nil, or_false] at hf
  rcases hf with rfl | rfl | rfl <;> exact recordHyps (by decide +kernel) (by decide +kernel)

theorem witness_ChimpRecords : RecordHyps fun s =>
    framingBits (s.srcAt 0) s.slen.toNat ++ (List.range (s.slen.toNat - 1)).flatMap (chimpRecord s.srcAt) :=
  recordHyps (by decide +kernel) (by decide +kernel)

theorem witness_FpcRecords : RecordHyps fun s =>
    numBits s.slen.toNat 14 ++ (List.range s.slen.toNat).flatMap (fpcItem (2 ^ s.cfg.fpcLog2) s.srcAt) :=
  recordHyps (by decide +kernel) (by decide +kernel)

theorem witness_PdfcmRecords :
    (RecordHyps fun s => framingBits (s.srcAt 0) s.slen.toNat ++
      (List.range (s.slen.toNat - 1)).flatMap (pdfcmRecord (2 ^ s.cfg.fpcLog2) s.srcAt)) ∧
    (PdfcmState.init 10 5).window.length = 8 :=
  ⟨recordHyps (by decide +kernel) (by decide +kernel), by decide +kernel⟩

/-- One run, in a `BUF` of exactly its three bytes, and in one of two. -/
theorem witness_RleRuns :
    (small 3 (withSrc [5])).Inv ∧ 1 ≤ (small 3 (withSrc [5])).slen.toNat ∧
      (rleBits [(5, 1)]).length = (small 3 (withSrc [5])).bufBits ∧
      (small 2 (withSrc [5])).Inv ∧ (small 2 (withSrc [5])).bufBits < (rleBits [(5, 1)]).length :=
  ⟨by constructor <;> decide +kernel, by decide +kernel, by decide +kernel, by constructor <;> decide +kernel, by decide +kernel⟩

theorem witness_ConstCompress :
    (withSrc [5, 5]).Inv ∧ (withSrc [5, 6]).Inv ∧ (withSrc [1, 2, 4]).Inv ∧
    ((∀ i, i < (withSrc [5, 5]).slen.toNat → (withSrc [5, 5]).srcAt i = (withSrc [5, 5]).srcAt 0) ∧
      ¬ (∀ i, i < (withSrc [5, 6]).slen.toNat → (withSrc [5, 6]).srcAt i = (withSrc [5, 6]).srcAt 0)) ∧
    (2 ≤ (withSrc [5, 6]).slen.toNat ∧ (∀ i, i + 1 < (withSrc [5, 6]).slen.toNat →
        (withSrc [5, 6]).srcAt (i + 1) - (withSrc [5, 6]).srcAt i = (withSrc [5, 6]).srcAt 1 - (withSrc [5, 6]).srcAt 0) ∧
      8 * (varintBytes ((withSrc [5, 6]).srcAt 1 - (withSrc [5, 6]).srcAt 0)).length ≤ (withSrc [5, 6]).bufBits) ∧
    ((small 1 (withSrc [0, 64])).bufBits < 8 * (varintBytes ((withSrc [0, 64]).srcAt 1 - (withSrc [0, 64]).srcAt 0)).length) ∧
    ¬ (∀ i, i + 1 < (withSrc [1, 2, 4]).slen.toNat → (withSrc [1, 2, 4]).srcAt (i + 1) - (withSrc [1, 2, 4]).srcAt i =
      (withSrc [1, 2, 4]).srcAt 1 - (withSrc [1, 2, 4]).srcAt 0) := by
  refine ⟨withSrc_inv.2.2.1, withSrc_inv.2.1, withSrc_inv.2.2.2, ⟨?_, ?_⟩, ⟨by decide +kernel, ?_, by decide +kernel⟩,
    by decide +kernel, ?_⟩
  · show ∀ i, i < 2 → _; decide +kernel
  · exact fun h => absurd (h 1 (by decide +kernel)) (by decide +kernel)
  · intro i hi
    have h2 : (withSrc [5, 6]).slen.toNat = 2 := by decide +kernel
    have h0 : i = 0 := by omega
    subst h0; rfl
  · exact fun h => absurd (h 1 (by decide +kernel)) (by decide +kernel)

theorem witness_ResidualStreams : (withSrc [5, 6]).Inv ∧ 1 ≤ (withSrc [5, 6]).slen.toNat ∧
    (varintBits 1).length ≤ (small 1 (withSrc [5, 6])).bufBits := ⟨withSrc_inv.2.1, by decide +kernel⟩

theorem witness_DefaultsNeverOverflow :
    Instr.huffC ∈ compressCommands ∧ Instr.huffC ≠ .constC ∧ Instr.huffC ≠ .deltaconstC ∧ (blockOf 8192).Inv ∧
      (blockOf 8192).cfg.bufCap = 262144 ∧ 1 ≤ (blockOf 1).slen.toNat ∧ (blockOf 8192).slen.toNat ≤ 8192 :=
  ⟨by decide, by decide, by decide, blockOf_inv.2.1, rfl, by decide +kernel⟩

/-- An empty stream with this `COUNT` and this `DLEN`. -/
def counted (count dlen : Nat) : State :=
  { State.reset with count := BitVec.ofNat 32 count, dlen := BitVec.ofNat 32 dlen }

/-- Off a byte boundary; no count; one word too many; one word that just fits. -/
theorem witness_DecompressAnswers :
    Instr.deltaD ∈ decompressCommands ∧ (holding [true]).Inv ∧ (holding [true]).blen.toNat % 8 ≠ 0 ∧
    (State.reset.blen.toNat % 8 = 0 ∧ State.reset.count = 0) ∧
    ((counted 1 65536).Inv ∧ (counted 1 65536).blen.toNat % 8 = 0 ∧ (counted 1 65536).count ≠ 0 ∧
      (counted 1 65536).cfg.vcap < (counted 1 65536).dlen.toNat + (counted 1 65536).count.toNat) ∧
    ((counted 1 65535).Inv ∧ ReadyToDecode (counted 1 65535)) := by
  refine ⟨by decide, holding_inv _ (by decide), by decide +kernel, by decide, ⟨?_, by decide⟩, ?_, ?_⟩
  · constructor <;> decide
  · constructor <;> decide
  · unfold ReadyToDecode; decide

/-- A state with this stream, padded, that a decompress command may begin on. -/
def ready (bits : List Bool) (first : Word) (count : Nat) : State := bodyState (bits ++ padding bits.length) first count

theorem ready_holds (bits : List Bool) (first : Word) (count : Nat) (hl : bits.length ≤ 1000) (h1 : 1 ≤ count)
    (h2 : count ≤ 16383) : (ready bits first count).Inv ∧ ReadyToDecode (ready bits first count) ∧
      (ready bits first count).count.toNat = count ∧ (ready bits first count).holdsAt 0 bits := by
  have hp : (padding bits.length).length < 8 := by rw [padding_length]; omega
  have hb := bodyState_blen (bits ++ padding bits.length) first count (by rw [List.length_append]; omega)
  have hc : (BitVec.ofNat 32 count).toNat = count := by
    rw [BitVec.toNat_ofNat]; exact Nat.mod_eq_of_lt (by omega)
  refine ⟨bodyState_inv _ _ _ (by rw [List.length_append]; omega), ⟨?_, ?_, ?_⟩, hc, ?_, bodyState_bits _ _ _ _⟩
  · show (bodyState _ _ _).blen.toNat % 8 = 0
    rw [hb, List.length_append]; exact add_padding_mod _
  · show BitVec.ofNat 32 count ≠ 0
    intro h; rw [h] at hc; simp at hc; omega
  · show 0 + (BitVec.ofNat 32 count).toNat ≤ 65536
    omega
  · show 0 + bits.length ≤ (bodyState _ _ _).blen.toNat
    rw [hb, List.length_append]; omega

/-- No whole header, a count that differs, a first value that differs: in the framing; in FPC's count, residual bytes and
first item; in Huffman's first item. -/
theorem witness_HeaderChecks :
    ((counted 1 0).Inv ∧ ReadyToDecode (counted 1 0) ∧ (counted 1 0).blen.toNat < 14) ∧
    (∃ u, u = loaded (List.replicate 9 0) 1 1 ∧ ReadyToDecode u ∧ u.blen.toNat = 72 ∧ bitsToNat (u.buf.bits 0 14) ≠ u.count.toNat) ∧
    (∃ u, u = loaded [0, 0, 0, 0, 0, 0, 0, 0, 0, 8] 1 1 ∧ ReadyToDecode u ∧ 78 ≤ u.blen.toNat ∧ bitsToNat (u.buf.bits 64 14) ≠ u.count.toNat) ∧
    (∃ u, u = loaded [0, 0, 0, 0, 0, 0, 0, 0, 0, 4] 1 1 ∧ ReadyToDecode u ∧ 78 ≤ u.blen.toNat ∧ bitsToNat (u.buf.bits 64 14) = u.count.toNat ∧
        bitsToNat (u.buf.bits 0 64) ≠ u.first.toNat) ∧
    (∃ u, u = loaded [0, 5, 0xC0] 1 1 ∧ ReadyToDecode u ∧ bitsToNat (u.buf.bits 0 14) = u.count.toNat ∧
      bitsToNat (u.buf.bits 15 3) = 7 ∧ u.blen.toNat < 18 + 8) ∧
    (∃ u, u = loaded [0, 5, 0xC0, 0] 1 1 ∧ ReadyToDecode u ∧ bitsToNat (u.buf.bits 0 14) = u.count.toNat ∧
      bitsToNat (u.buf.bits 15 3) = 7 ∧ 18 + 8 ≤ u.blen.toNat ∧ bitsToNat (u.buf.bits 18 8) ≠ u.first.toNat) ∧
    ∃ u : State, u.Inv ∧ ReadyToDecode u ∧ bitsToNat (u.buf.bits 0 16) = u.count.toNat ∧ u.holdsAt 16 (patternCodes 0) ∧
      0 ≠ u.first := by
  refine ⟨⟨?_, ?_, by decide⟩, ?_, ?_, ?_, ?_, ?_, ready (numBits 1 16 ++ patternCodes 0) 1 1, ?_⟩
  · constructor <;> decide
  · unfold ReadyToDecode; decide
  · refine ⟨_, rfl, ?_⟩; unfold ReadyToDecode; decide +kernel
  · refine ⟨_, rfl, ?_⟩; unfold ReadyToDecode; decide +kernel
  · refine ⟨_, rfl, ?_⟩; unfold ReadyToDecode; decide +kernel
  · refine ⟨_, rfl, ?_⟩; unfold ReadyToDecode; decide +kernel
  · refine ⟨_, rfl, ?_⟩; unfold ReadyToDecode; decide +kernel
  · have h := ready_holds (numBits 1 16 ++ patternCodes 0) 1 1 (by decide +kernel) (by omega) (by omega)
    refine ⟨h.1, h.2.1, ?_, ?_, by decide⟩
    · decide +kernel
    · unfold State.holdsAt; decide +kernel

/-- The hypotheses of `WindowErrors` before its clauses, met by a stream that begins with these bits. -/
def WindowHyps (v : Nat → Word) (m count : Nat) (bits : List Bool) : Prop :=
  ∃ u : State, u.Inv ∧ ReadyToDecode u ∧ u.first = v 0 ∧ m + 1 < u.count.toNat ∧ u.count.toNat ≤ 16383 ∧
    u.count.toNat = count ∧ u.holdsAt 0 bits

theorem windowHyps (v : Nat → Word) {m count : Nat} {bits : List Bool} (hm : m + 1 < count) (hc : count ≤ 16383)
    (hl : bits.length ≤ 1000) : WindowHyps v m count bits := by
  have h := ready_holds bits (v 0) count hl (by omega) hc
  exact ⟨ready bits (v 0) count, h.1, h.2.1, rfl, by rw [h.2.2.1]; exact hm, by rw [h.2.2.1]; exact hc, h.2.2.1, h.2.2.2⟩

/-- The block of zeros: no record sends a window. Each clause after no record and after one, at the least window and the
least skip that do not fit, and at the most items a header counts. -/
theorem witness_WindowErrors :
    let v : Nat → Word := fun _ => 0
    let sent := fun (record : Nat → List Bool) (m count : Nat) =>
      framingBits (v 0) count ++ (List.range m).flatMap record
    (∀ row ∈ [(formatG, 1, 64), (formatZ, 1, 57), (formatP, 1, 64)], ∀ m ∈ [0, 1],
      (row.1.window v m).2 = 0 ∧ WindowHyps v m 3 (sent (row.1.record v) m 3 ++ [true, false]) ∧
      row.2.1 < 2 ^ row.1.lw ∧ row.1.lead row.2.1 + row.2.2 = 65 ∧
      WindowHyps v m 16383
        (sent (row.1.record v) m 16383 ++ ([true, true] ++ numBits row.2.1 row.1.lw ++ numBits (row.2.2 - 1) 6))) ∧
    (∀ m ∈ [0, 1], chimpKept v m = none ∧ WindowHyps v m 3 (sent (chimpRecord v) m 3 ++ [true, false]) ∧
      WindowHyps v m 3 (sent (chimpRecord v) m 3 ++ ([false, true] ++ numBits 1 3 ++ numBits (63 - 1) 6))) ∧
    ∀ m ∈ [0, 1],
      WindowHyps v m 3 (sent (pdfcmRecord 1024 v) m 3 ++ ([true, false, true] ++ numBits 7 3 ++ numBits 1 3)) ∧
      WindowHyps v m 3
        (sent (pdfcmRecord 1024 v) m 3 ++ ([true, true, false] ++ numBits 7 3 ++ numBits 1 3 ++ numBits 7 3)) := by
  simp only [List.mem_cons, List.not_mem_nil, or_false]
  refine ⟨?_, ?_, ?_⟩
  · rintro row (rfl | rfl | rfl) m (rfl | rfl) <;>
      exact ⟨by decide +kernel, windowHyps _ (by omega) (by omega) (by decide +kernel), by decide, by decide,
        windowHyps _ (by omega) (by omega) (by decide +kernel)⟩
  · rintro m (rfl | rfl) <;>
      exact ⟨by decide +kernel, windowHyps _ (by omega) (by omega) (by decide +kernel),
        windowHyps _ (by omega) (by omega) (by decide +kernel)⟩
  · rintro m (rfl | rfl) <;>
      exact ⟨windowHyps _ (by omega) (by omega) (by decide +kernel), windowHyps _ (by omega) (by omega) (by decide +kernel)⟩

/-- A body the stream is exactly, with its `FIRST` and `COUNT`. -/
theorem exactly (bits : List Bool) (first : Word) (count : Nat) (hl : bits.length ≤ 1000) (h8 : bits.length % 8 = 0)
    (h1 : 1 ≤ count) (h2 : count ≤ 16383) : ∃ u : State, u.Inv ∧ ReadyToDecode u ∧ u.first = first ∧
      u.count.toNat = count ∧ HoldsExactly u bits := by
  have h := ready_holds bits first count hl h1 h2
  have hp : padding bits.length = [] := by unfold padding; rw [h8]; rfl
  refine ⟨ready bits first count, h.1, h.2.1, rfl, h.2.2.1, ?_, h.2.2.2.2⟩
  have := bodyState_blen (bits ++ padding bits.length) first count (by rw [hp]; simp; omega)
  rw [hp, List.append_nil] at this
  unfold ready
  rw [hp, List.append_nil]
  exact this

/-- The body has each shape the clauses name; the runs 50 cut at 3, and 3 with `COUNT` 3, 4 and one pair too many; a run of
0 and one of 2^63; another first value; no runs. -/
theorem witness_RleDecode :
    ((counted 1 0).Inv ∧ ReadyToDecode (counted 1 0) ∧ (counted 1 0).blen = 0) ∧
    (∀ row ∈ [(varintBits 1 ++ pairBits [] ++ varintBits 5, 3), (varintBits 1 ++ pairBits [(5, 3)] ++ varintBits 5, 3),
        (varintBits 2 ++ pairBits [(5, 3)], 3), (varintBits 0 ++ pairBits [(5, 3)], 3), (rleBits [(5, 50)], 3),
        (rleBits [(5, 3)], 3), (rleBits [(5, 3)], 4), (rleBits [(5, 3), (6, 1)], 3), (rleBits [(5, 0)], 3),
        (rleBits [(5, 2), (6, 2 ^ 63)], 3), (rleBits [(6, 3)], 3), (rleBits [], 1)],
      ∃ u : State, u.Inv ∧ ReadyToDecode u ∧ u.first = 5 ∧ u.count.toNat = row.2 ∧ HoldsExactly u row.1) ∧
    ((2 : Word).toInt ≠ (([(5, 3)] : List (Word × Nat)).length : Int) ∧ TakesRuns 5 3 [(5, 50)] ∧ TakesRuns 5 3 [(5, 3)] ∧
      TakesRuns 5 4 [(5, 3)] ∧ TakesRuns 5 3 [(5, 2)] ∧ TakesRuns 5 3 [] ∧
      runTotal [((5 : Word), 3)] = 3 ∧ 2 ^ 63 < 2 ^ 64) := by
  refine ⟨⟨?_, ?_, rfl⟩, ?_, by decide, ?_, ?_, ?_, ?_, ?_, by decide, by decide⟩
  · constructor <;> decide
  · unfold ReadyToDecode; decide
  · simp only [List.mem_cons, List.not_mem_nil, or_false]
    rintro row (rfl | rfl | rfl | rfl | rfl | rfl | rfl | rfl | rfl | rfl | rfl | rfl) <;>
      exact exactly _ _ _ (by decide +kernel) (by decide +kernel) (by decide) (by decide)
  all_goals
    refine ⟨by decide, ?_, by decide⟩
    intro r hr
    first
      | (cases hr; rfl)
      | cases hr

theorem witness_ProgressionDecode :
    ((counted 3 0).Inv ∧ ReadyToDecode (counted 3 0) ∧ (counted 3 0).blen = 0) ∧
    (∃ u, u = bodyState (varintBits 4) 5 4 ∧ u.Inv ∧ ReadyToDecode u ∧ u.blen.toNat = (varintBits 4).length ∧
        u.buf.bits 0 (varintBits 4).length = varintBits 4) := by
  refine ⟨⟨?_, ?_, rfl⟩, _, rfl, bodyState_inv _ _ _ (by decide +kernel), ?_, by decide +kernel, ?_⟩
  · constructor <;> decide
  · unfold ReadyToDecode; decide
  · unfold ReadyToDecode; decide +kernel
  · have := bodyState_bits (varintBits 4) [] 5 4
    rwa [List.append_nil] at this

theorem witness_HuffmanCode : 5 ≤ [true, false, false, true, false].length ∧ 2 ≤ 15 ∧ 15 < 16 := by decide

end Sys2Proof.Tests
end

section
/-! SUPPORT. The commands by their shape: every compress command is one `compress`, every decompress command one
`decompress`, and what each answers and leaves. -/

namespace Sys2Proof.Machine

/-! ## The codec commands as instances of `compress` and `decompress` -/

/-- The encoder a compress command runs on its block, with FPC_LOG2 = `log2`. -/
def compressBody (log2 : Nat) : Instr → List Word → Except Cause (List Bool)
  | .gorillaC => gorillaBody .g
  | .gorillazC => gorillaBody .z
  | .gorillaplusC => gorillaBody .p
  | .chimpC => chimpBody
  | .fpcC => fpcBody log2
  | .pdfcmC => pdfcmBody log2
  | .huffC => huffBody
  | .deltaC => residBody .delta
  | .delta2C => residBody .delta2
  | .xordeltaC => residBody .xorDelta
  | .deltaxorC => residBody .deltaXor
  | .plainC => residBody .plain
  | .constC => constBody
  | .deltaconstC => deltaconstBody
  | .rleC => rleBody
  | _ => fun _ => .ok []

/-- The reader a decompress command runs after DecompressBegin. -/
def decompressBody : Instr → State → Except Cause (List Word × Nat)
  | .gorillaD => gorillaRead .g
  | .gorillazD => gorillaRead .z
  | .gorillaplusD => gorillaRead .p
  | .chimpD => chimpRead
  | .fpcD => fpcRead
  | .pdfcmD => pdfcmRead
  | .huffD => huffRead
  | .deltaD => residRead .delta
  | .delta2D => residRead .delta2
  | .xordeltaD => residRead .xorDelta
  | .deltaxorD => residRead .deltaXor
  | .plainD => residRead .plain
  | .constD => constRead
  | .deltaconstD => deltaconstRead
  | .rleD => rleRead
  | _ => fun _ => .ok ([], 0)

theorem mem_compressCommands {i : Instr} :
    i ∈ compressCommands ↔ i = .gorillaC ∨ i = .gorillazC ∨ i = .gorillaplusC ∨ i = .chimpC ∨ i = .fpcC ∨ i = .pdfcmC ∨
      i = .huffC ∨ i = .deltaC ∨ i = .delta2C ∨ i = .xordeltaC ∨ i = .deltaxorC ∨ i = .plainC ∨ i = .deltaconstC ∨
      i = .rleC ∨ i = .constC := by
  simp [compressCommands, countedEncoders, streamEncoders]

theorem mem_decompressCommands {i : Instr} :
    i ∈ decompressCommands ↔ i = .gorillaD ∨ i = .gorillazD ∨ i = .gorillaplusD ∨ i = .chimpD ∨ i = .fpcD ∨
      i = .pdfcmD ∨ i = .huffD ∨ i = .deltaD ∨ i = .delta2D ∨ i = .xordeltaD ∨ i = .deltaxorD ∨ i = .plainD ∨
      i = .deltaconstD ∨ i = .rleD ∨ i = .constD := by
  simp [decompressCommands, bitDecoders, byteDecoders]

/-- Every compress command is `compress` with its bounds and its encoder (R13 to R15). -/
theorem exec_compressCommand {i : Instr} (hi : i ∈ compressCommands) (s : State) :
    exec i s = .next (compress i.opc (minItems i) (maxItems i s.cfg.vcap) (compressBody s.cfg.fpcLog2 i) s) := by
  rcases mem_compressCommands.1 hi with
    rfl | rfl | rfl | rfl | rfl | rfl | rfl | rfl | rfl | rfl | rfl | rfl | rfl | rfl | rfl <;> rfl

/-- Every decompress command is `decompress` with its reader (R16 to R18). -/
theorem exec_decompressCommand {i : Instr} (hi : i ∈ decompressCommands) (s : State) :
    exec i s = .next (decompress i.opc (decompressBody i) s) := by
  rcases mem_decompressCommands.1 hi with
    rfl | rfl | rfl | rfl | rfl | rfl | rfl | rfl | rfl | rfl | rfl | rfl | rfl | rfl | rfl <;> rfl

/-! ## What a compress command answers -/

/-- A raise inside a compress command leaves what R306 says. -/
theorem compressFailed_raise (s : State) (c : Cause) (opc : BitVec 8) :
    CompressFailed s (raise .compress c opc s) c opc := ⟨rfl, rfl⟩

section
variable {opc : BitVec 8} {minN maxN : Nat} {body : List Word → Except Cause (List Bool)} {s : State}

theorem compress_tooFew (h : s.slen.toNat < minN) : CompressFailed s (compress opc minN maxN body s) .tooFew opc := by
  rw [compress_error (if_pos h)]
  exact compressFailed_raise s _ opc

theorem compress_tooMany (h1 : minN ≤ s.slen.toNat) (h2 : maxN < s.slen.toNat) :
    CompressFailed s (compress opc minN maxN body s) .tooMany opc := by
  have hrun : compressRun minN maxN body s = .error .tooMany := by
    rw [compressRun, if_neg (Nat.not_lt.2 h1), if_pos h2]
  rw [compress_error hrun]
  exact compressFailed_raise s _ opc

/-- A block of admissible length whose body raises. -/
theorem compress_bodyError (h1 : minN ≤ s.slen.toNat) (h2 : s.slen.toNat ≤ maxN) {c : Cause}
    (hb : body s.srcItems = .error c) : CompressFailed s (compress opc minN maxN body s) c opc := by
  have hrun : compressRun minN maxN body s = .error c := by
    rw [compressRun, if_neg (Nat.not_lt.2 h1), if_neg (Nat.not_lt.2 h2), hb, error_bind]
  rw [compress_error hrun]
  exact compressFailed_raise s _ opc

/-- A block of admissible length whose body does not fit `BUF`. -/
theorem compress_overflow (h1 : minN ≤ s.slen.toNat) (h2 : s.slen.toNat ≤ maxN) {bits : List Bool}
    (hb : body s.srcItems = .ok bits) (hf : s.bufBits < bits.length) :
    CompressFailed s (compress opc minN maxN body s) .overflowBuf opc := by
  have hput : putBits bits (emptyStream s) = .error .overflowBuf := putBits_eq_error.2 ⟨by simpa using hf, rfl⟩
  have hrun : compressRun minN maxN body s = .error .overflowBuf := by
    rw [compressRun, if_neg (Nat.not_lt.2 h1), if_neg (Nat.not_lt.2 h2), hb, ok_bind, hput, error_bind]
  rw [compress_error hrun]
  exact compressFailed_raise s _ opc

/-- No compress command writes `DST`, whether it completes or raises (R17, R306). -/
theorem compress_dst : (compress opc minN maxN body s).dst = s.dst := by
  unfold compress
  cases hrun : compressRun minN maxN body s with
  | error c => simp
  | ok t =>
    obtain ⟨-, -, bits, -, -, p, hp, rfl⟩ := compressRun_eq_ok.1 hrun
    obtain ⟨-, rfl⟩ := putBits_eq_ok.1 hp
    rfl

end

theorem constBody_error {vs : List Word} {c : Cause} (h : constBody vs = .error c) : c = .notConst := by
  cases vs with
  | nil => cases h
  | cons v vs =>
    simp only [constBody] at h
    split at h <;> cases h
    rfl

theorem deltaconstBody_error {vs : List Word} {c : Cause} (h : deltaconstBody vs = .error c) : c = .notConst := by
  unfold deltaconstBody at h
  split at h
  · cases h
  · split at h <;> cases h
    rfl

/-- An encoder raises for one reason only: the block is not constant (R236, R238). -/
theorem compressBody_error {log2 : Nat} {i : Instr} {vs : List Word} {c : Cause}
    (h : compressBody log2 i vs = .error c) : c = .notConst := by
  cases i with
  | constC => exact constBody_error h
  | deltaconstC => exact deltaconstBody_error h
  | gorillaC | gorillazC | gorillaplusC | chimpC | pdfcmC | deltaC | delta2C | xordeltaC | deltaxorC | plainC | rleC =>
    cases vs <;> cases h
  | _ => cases h

/-! ## What a decompress command answers -/

/-- A raise inside a decompress command leaves what R307 says. -/
theorem decompressFailed_raise (s : State) (c : Cause) (opc : BitVec 8) :
    DecompressFailed s (raise .decompress c opc s) c opc := by
  refine ⟨rfl, fun i hi => ?_, rfl⟩
  simp [State.dstAt, hi]

section
variable {opc : BitVec 8} {body : State → Except Cause (List Word × Nat)} {s : State} {c : Cause}

theorem decompress_checkError (h : decompressCheck s = .error c) :
    DecompressFailed s (decompress opc body s) c opc := by
  rw [decompress_error (c := c) (by rw [h, error_bind])]
  exact decompressFailed_raise s c opc

theorem decompress_bodyError (hr : ReadyToDecode s) (hb : body s = .error c) :
    DecompressFailed s (decompress opc body s) c opc := by
  rw [decompress_error (c := c) (by rw [decompressCheck_eq_ok.2 hr, ok_bind, hb])]
  exact decompressFailed_raise s c opc

end

theorem decompressCheck_unaligned {s : State} (h : s.blen.toNat % 8 ≠ 0) : decompressCheck s = .error .unaligned :=
  if_pos h

theorem decompressCheck_tooFew {s : State} (h8 : s.blen.toNat % 8 = 0) (h : s.count = 0) :
    decompressCheck s = .error .tooFew := by
  rw [decompressCheck, if_neg (not_not.2 h8), if_pos h]

theorem decompressCheck_overflow {s : State} (h8 : s.blen.toNat % 8 = 0) (h0 : s.count ≠ 0)
    (h : s.cfg.vcap < s.dlen.toNat + s.count.toNat) : decompressCheck s = .error .overflowDst := by
  rw [decompressCheck, if_neg (not_not.2 h8), if_neg h0, if_pos h]

/-! ## Which meaningful bits and words a command keeps -/

/-- From `s` to `t` no stream bit below `s`'s `BLEN` and no word of `DST` below its `DLEN` has changed. -/
def KeepsMeaningful (s t : State) : Prop :=
  (∀ k, k < s.blen.toNat → t.buf.bit k = s.buf.bit k) ∧ ∀ j, j < s.dlen.toNat → t.dstAt j = s.dstAt j

/-- A state that differs in other fields than the two memories. -/
theorem keepsMeaningful_of_eq {s t : State} (hb : t.buf = s.buf) (hd : t.dst = s.dst) : KeepsMeaningful s t :=
  ⟨fun _ _ => by rw [hb], fun _ _ => by rw [State.dstAt, State.dstAt, hd]⟩

theorem forgetTail_keeps (s : State) : KeepsMeaningful s (forgetTail s) :=
  ⟨fun k hk => by simp [hk], fun _ _ => rfl⟩

theorem Appended.keeps {s t : State} {bs : List Bool} (h : Appended s t bs) : KeepsMeaningful s t := by
  obtain ⟨-, -, hbelow, -, hrest⟩ := h
  refine ⟨hbelow, fun j _ => ?_⟩
  rw [hrest]; rfl

theorem appendBits_keeps {s t : State} {bs : List Bool} (hs : s.Inv) (h : appendBits bs s = .ok t) :
    KeepsMeaningful s t := by
  obtain ⟨hfit, rfl⟩ := appendBits_eq_ok.1 h
  have hcap : s.bufBits < 2 ^ 32 := hs.cfg.2.1
  exact (forgetTail_appended (by omega)).keeps

/-- `Flush` of a primitive command appends the padding (R124, R129). -/
theorem forgetTail_flush_keeps {s : State} (hs : s.Inv) : KeepsMeaningful s (forgetTail (flush s)) := by
  have hcap : s.bufBits < 2 ^ 32 := hs.cfg.2.1
  have hpad : s.blen.toNat + (padding s.blen.toNat).length ≤ s.bufBits := pad_le hs.blen_le
  exact (forgetTail_appended (bs := padding s.blen.toNat) (by omega)).keeps

/-- A primitive command keeps what its effect keeps: a raise keeps it all (R305). -/
theorem primitive_keeps {opc : BitVec 8} {effect : State → Except Cause State} {s : State}
    (h : ∀ t, effect s = .ok t → KeepsMeaningful s t) : KeepsMeaningful s (primitive opc effect s) := by
  cases he : effect s with
  | ok t => rw [primitive_ok he]; exact h t he
  | error c => rw [primitive_error he]; exact forgetTail_keeps s

/-- `Emit` writes `DST` from `DLEN` on and nothing of `BUF` (R17, R75). -/
theorem emitAll_keeps (items : List Word) (pos : Nat) (s : State) : KeepsMeaningful s (emitAll items pos s) := by
  refine ⟨fun _ _ => rfl, fun j hj => ?_⟩
  simp only [emitAll, State.dstAt]
  rw [read_forget, if_pos (by omega), read_writeAll, dif_neg (by omega)]

theorem decompress_keeps (opc : BitVec 8) (body : State → Except Cause (List Word × Nat)) (s : State) :
    KeepsMeaningful s (decompress opc body s) := by
  unfold decompress
  split
  · exact emitAll_keeps _ _ s
  · exact ⟨fun _ _ => by simp, (decompressFailed_raise s _ opc).2.1⟩

/-- Of the commands that are no compress command, only `BSRESET` may change a meaningful bit or word. -/
theorem exec_keepsMeaningful {i : Instr} {s t : State} (hs : s.Inv) (h : exec i s = .next t)
    (hc : i ∉ compressCommands) (hb : i ≠ .bsreset) : KeepsMeaningful s t := by
  by_cases hd : i ∈ decompressCommands
  · rw [exec_decompressCommand hd] at h
    cases h
    exact decompress_keeps _ _ s
  cases i with
  | nop | rewind | stats | classify | clrerr | sreset => cases h; exact keepsMeaningful_of_eq rfl rfl
  | bsreset => exact absurd rfl hb
  | appendbit b =>
    cases h
    exact primitive_keeps fun t ht => appendBits_keeps hs ht
  | appendbits n =>
    cases h
    refine primitive_keeps fun t ht => ?_
    obtain ⟨-, -, ht⟩ := bind_eq_ok.1 ht
    exact appendBits_keeps hs ht
  | finish =>
    cases h
    split
    · exact keepsMeaningful_of_eq rfl rfl
    · exact forgetTail_flush_keeps hs
  | readbit =>
    cases h
    refine primitive_keeps fun t ht => ?_
    obtain ⟨r, -, ht⟩ := bind_eq_ok.1 ht
    cases ht
    exact keepsMeaningful_of_eq rfl rfl
  | readbits n =>
    cases h
    refine primitive_keeps fun t ht => ?_
    obtain ⟨-, -, ht⟩ := bind_eq_ok.1 ht
    obtain ⟨r, -, ht⟩ := bind_eq_ok.1 ht
    cases ht
    exact keepsMeaningful_of_eq rfl rfl
  | varput =>
    cases h
    refine primitive_keeps fun t ht => ?_
    split at ht
    · cases ht
    · exact appendBits_keeps hs ht
  | varget =>
    cases h
    refine primitive_keeps fun t ht => ?_
    split at ht
    · cases ht
    · obtain ⟨r, -, ht⟩ := bind_eq_ok.1 ht
      cases ht
      exact keepsMeaningful_of_eq rfl rfl
  | _ => simp [mem_compressCommands, mem_decompressCommands] at hc hd

/-- Settles O14: compress commands and `BSRESET` write no word of `DST`, every other command keeps the meaningful part
of both memories. -/
theorem memoriesKept : Obligations.MemoriesKept := by
  intro i s t hs h
  refine ⟨fun hc hb => (exec_keepsMeaningful hs h hc hb).1, fun j hj => ?_⟩
  by_cases hc : i ∈ compressCommands
  · rw [exec_compressCommand hc] at h
    cases h
    rw [State.dstAt, compress_dst]; rfl
  by_cases hb : i = .bsreset
  · subst hb
    cases h
    split <;> rfl
  · exact (exec_keepsMeaningful hs h hc hb).2 j hj

/-- Settles O42: the two length checks come first, and past them the encoder's answer decides. -/
theorem compressAnswers : Obligations.CompressAnswers := by
  intro i s hi hs
  refine ⟨_, exec_compressCommand hi s, compress_tooFew, compress_tooMany, fun h1 h2 => ?_⟩
  cases hb : compressBody s.cfg.fpcLog2 i s.srcItems with
  | error c =>
    obtain rfl := compressBody_error hb
    exact .inr (.inl (compress_bodyError h1 h2 hb))
  | ok bits =>
    by_cases hf : bits.length ≤ s.bufBits
    · exact .inl ⟨bits, compress_ok hs h1 h2 hb hf⟩
    · exact .inr (.inr (compress_overflow h1 h2 hb (Nat.lt_of_not_le hf)))

end Sys2Proof.Machine
end

section
/-! SUPPORT. What every reader of a decompress command answers on any bits whatever (R350): `COUNT` items, and a cursor
within the stream. -/

namespace Sys2Proof.Machine

/-! ## The cursor of one item stays within the stream -/

theorem getBit_cursor {s : State} {pos : Nat} {r : Bool × Nat} (h : getBit s pos = .ok r) : r.2 ≤ s.blen.toNat := by
  obtain ⟨h1, rfl⟩ := getBit_eq_ok.1 h
  exact h1

theorem getBits_cursor {s : State} {pos n : Nat} {r : Word × Nat} (h : getBits s pos n = .ok r) :
    r.2 ≤ s.blen.toNat := by
  obtain ⟨h1, rfl⟩ := getBits_eq_ok.1 h
  exact h1

theorem readFramedHeader_cursor {s : State} {r : Word × Nat} (h : readFramedHeader s = .ok r) :
    r.2 ≤ s.blen.toNat := by
  obtain ⟨f, -, h⟩ := bind_eq_ok.1 h
  obtain ⟨n, hn, h⟩ := bind_eq_ok.1 h
  split at h
  · cases h
  · split at h <;> cases h
    exact (getBits_cursor hn :)

theorem gorillaGetItem_cursor {s : State} {lay : Layout} {st : GorillaState} {pos : Nat} {r : Word × GorillaState × Nat}
    (h : gorillaGetItem s lay st pos = .ok r) : r.2.2 ≤ s.blen.toNat := by
  obtain ⟨c, hc, h⟩ := bind_eq_ok.1 h
  split at h
  · obtain ⟨win, -, h⟩ := bind_eq_ok.1 h
    simp only at h
    split at h
    · cases h
    · obtain ⟨b, hb, h⟩ := bind_eq_ok.1 h
      cases h
      exact (getBits_cursor hb :)
  · cases h
    exact getBit_cursor hc

theorem chimpGetXor_cursor {s : State} {c : Nat} {pL : Option Nat} {pos : Nat} {r : Word × Option Nat × Nat}
    (h : chimpGetXor s c pL pos = .ok r) : r.2.2 ≤ s.blen.toNat := by
  unfold chimpGetXor at h
  split at h
  · obtain ⟨f, -, h⟩ := bind_eq_ok.1 h
    obtain ⟨k, -, h⟩ := bind_eq_ok.1 h
    simp only at h
    split at h
    · cases h
    · obtain ⟨b, hb, h⟩ := bind_eq_ok.1 h
      cases h
      exact (getBits_cursor hb :)
  · split at h
    · split at h
      · cases h
      · obtain ⟨b, hb, h⟩ := bind_eq_ok.1 h
        cases h
        exact (getBits_cursor hb :)
    · obtain ⟨f, -, h⟩ := bind_eq_ok.1 h
      obtain ⟨b, hb, h⟩ := bind_eq_ok.1 h
      cases h
      exact (getBits_cursor hb :)

theorem chimpGetItem_cursor {s : State} {st : ChimpState} {pos : Nat} {r : Word × ChimpState × Nat}
    (h : chimpGetItem s st pos = .ok r) : r.2.2 ≤ s.blen.toNat := by
  obtain ⟨c, hc, h⟩ := bind_eq_ok.1 h
  split at h
  · cases h
    exact getBits_cursor hc
  · obtain ⟨x, hx, h⟩ := bind_eq_ok.1 h
    cases h
    exact chimpGetXor_cursor hx

theorem fpcGetItem_cursor {s : State} {st : FpcState} {pos : Nat} {r : Word × FpcState × Nat}
    (h : fpcGetItem s st pos = .ok r) : r.2.2 ≤ s.blen.toNat := by
  obtain ⟨sel, -, h⟩ := bind_eq_ok.1 h
  obtain ⟨cnt, -, h⟩ := bind_eq_ok.1 h
  obtain ⟨x, hx, h⟩ := bind_eq_ok.1 h
  cases h
  exact getBits_cursor hx

theorem getResidual_cursor {s : State} {pos : Nat} {r : Word × Nat} (h : getResidual s pos = .ok r) :
    r.2 ≤ s.blen.toNat := by
  obtain ⟨t, -, h⟩ := bind_eq_ok.1 h
  obtain ⟨l, -, h⟩ := bind_eq_ok.1 h
  split at h
  · cases h
  · obtain ⟨b, hb, h⟩ := bind_eq_ok.1 h
    cases h
    exact (getBits_cursor hb :)

theorem pdfcmGetShape_cursor {s : State} {st : PdfcmState} {pos : Nat} {r : Word × Nat}
    (h : pdfcmGetShape s st pos = .ok r) : r.2 ≤ s.blen.toNat := by
  obtain ⟨shape, -, h⟩ := bind_eq_ok.1 h
  split at h
  · obtain ⟨j, hj, h⟩ := bind_eq_ok.1 h
    cases h
    exact (getBits_cursor hj :)
  · split at h
    · exact getBits_cursor h
    · split at h
      · obtain ⟨j, -, h⟩ := bind_eq_ok.1 h
        obtain ⟨x, hx, h⟩ := bind_eq_ok.1 h
        cases h
        exact (getResidual_cursor hx :)
      · obtain ⟨x, hx, h⟩ := bind_eq_ok.1 h
        cases h
        exact (getResidual_cursor hx :)

theorem pdfcmGetItem_cursor {s : State} {st : PdfcmState} {pos : Nat} {r : Word × PdfcmState × Nat}
    (h : pdfcmGetItem s st pos = .ok r) : r.2.2 ≤ s.blen.toNat := by
  obtain ⟨c, hc, h⟩ := bind_eq_ok.1 h
  split at h
  · obtain ⟨x, hx, h⟩ := bind_eq_ok.1 h
    cases h
    exact pdfcmGetShape_cursor hx
  · cases h
    exact getBit_cursor hc

theorem getNibble_cursor {s : State} {pos : Nat} {r : Nat × Nat} (h : getNibble s pos = .ok r) :
    r.2 ≤ s.blen.toNat := by
  obtain ⟨b, hb, h⟩ := bind_eq_ok.1 h
  split at h
  · obtain ⟨t, ht, h⟩ := bind_eq_ok.1 h
    split at h
    · cases h
      exact getBits_cursor ht
    · obtain ⟨c, hc, h⟩ := bind_eq_ok.1 h
      cases h
      exact getBit_cursor hc
  · cases h
    exact getBit_cursor hb

theorem getNibbles_cursor {s : State} {n : Nat} {x : Word} {pos : Nat} {r : Word × Nat} (hp : pos ≤ s.blen.toNat)
    (h : getNibbles s n x pos = .ok r) : r.2 ≤ s.blen.toNat := by
  induction n generalizing x pos with
  | zero => cases h; exact hp
  | succ n ih =>
    obtain ⟨q, hq, h⟩ := bind_eq_ok.1 h
    exact ih (getNibble_cursor hq) h

theorem huffGetItem_cursor {s : State} {prev : Word} {pos : Nat} {r : Word × Word × Nat} (hp : pos ≤ s.blen.toNat)
    (h : huffGetItem s prev pos = .ok r) : r.2.2 ≤ s.blen.toNat := by
  obtain ⟨x, hx, h⟩ := bind_eq_ok.1 h
  cases h
  exact (getNibbles_cursor hp hx :)

theorem residGetItem_cursor {s : State} {k : Scheme} {st : ResidState} {pos : Nat} {r : Word × ResidState × Nat}
    (h : residGetItem s k st pos = .ok r) : r.2.2 ≤ s.blen.toNat := by
  unfold residGetItem at h
  split at h
  · cases h
  · obtain ⟨x, hx, h⟩ := bind_eq_ok.1 h
    cases h
    exact (varGet_cursor hx).1

/-! ## What a whole reader answers -/

/-- A reader's answer is `COUNT` items and a cursor within the stream. -/
def WithinStream (s : State) (r : List Word × Nat) : Prop := r.1.length = s.count.toNat ∧ r.2 ≤ s.blen.toNat

theorem endOfBits_eq_ok {s : State} {r r' : List Word × Nat} (h : endOfBits s r = .ok r') : r = r' := by
  unfold endOfBits at h
  split at h <;> cases h
  rfl

theorem endOfBytes_eq_ok {s : State} {r r' : List Word × Nat} (h : endOfBytes s r = .ok r') : r = r' := by
  unfold endOfBytes at h
  split at h <;> cases h
  rfl

section
variable {σ : Type} {s : State} {dec : σ → Nat → Except Cause (Word × σ × Nat)}

/-- A first value and then `COUNT - 1` items of the loop. -/
theorem withinStream_cons (hc : s.count ≠ 0)
    (hstep : ∀ st pos r, pos ≤ s.blen.toNat → dec st pos = .ok r → r.2.2 ≤ s.blen.toNat) {st : σ} {pos : Nat}
    (hp : pos ≤ s.blen.toNat) (v : Word) {r : List Word × Nat}
    (h : decodeItems dec (s.count.toNat - 1) st pos = .ok r) : WithinStream s (v :: r.1, r.2) := by
  have hpos : s.count.toNat ≠ 0 := fun h0 => hc (BitVec.eq_of_toNat_eq h0)
  refine ⟨?_, (decodeItems_cursor (Q := (· ≤ s.blen.toNat)) hstep hp h :)⟩
  simp only [List.length_cons, decodeItems_length h]
  omega

/-- The readers of the Gorilla framing. -/
theorem framed_within (hc : s.count ≠ 0)
    (hstep : ∀ st pos r, pos ≤ s.blen.toNat → dec st pos = .ok r → r.2.2 ≤ s.blen.toNat) (start : Word → σ)
    {r : List Word × Nat}
    (h : (readFramedHeader s >>= fun h => decodeItems dec (s.count.toNat - 1) (start h.1) h.2 >>= fun r =>
      endOfBits s (h.1 :: r.1, r.2)) = .ok r) : WithinStream s r := by
  obtain ⟨f, hf, h⟩ := bind_eq_ok.1 h
  obtain ⟨items, hitems, h⟩ := bind_eq_ok.1 h
  rw [← endOfBits_eq_ok h]
  exact withinStream_cons hc hstep (readFramedHeader_cursor hf) f.1 hitems

/-- The readers whose header is the item count in `width` bits. -/
theorem counted_within (hc : s.count ≠ 0)
    (hstep : ∀ st pos r, pos ≤ s.blen.toNat → dec st pos = .ok r → r.2.2 ≤ s.blen.toNat) (start : σ) (width : Nat)
    {r : List Word × Nat}
    (h : (getBits s 0 width >>= fun n => if n.1.toNat ≠ s.count.toNat then .error .countMismatch
      else decodeCheckedItems dec s start n.2 >>= endOfBits s) = .ok r) : WithinStream s r := by
  obtain ⟨n, hn, h⟩ := bind_eq_ok.1 h
  split at h
  · cases h
  · obtain ⟨items, hitems, h⟩ := bind_eq_ok.1 h
    rw [← endOfBits_eq_ok h]
    obtain ⟨r0, hr0, hitems⟩ := bind_eq_ok.1 hitems
    split at hitems
    · cases hitems
    · obtain ⟨rest, hrest, hitems⟩ := bind_eq_ok.1 hitems
      cases hitems
      exact withinStream_cons hc hstep (hstep _ _ _ (getBits_cursor hn) hr0) _ hrest

theorem residRead_within (hc : s.count ≠ 0) {k : Scheme} {r : List Word × Nat} (h : residRead k s = .ok r) :
    WithinStream s r := by
  obtain ⟨items, hitems, h⟩ := bind_eq_ok.1 h
  rw [← endOfBytes_eq_ok h]
  exact withinStream_cons hc (fun _ _ _ _ => residGetItem_cursor) (Nat.zero_le _) _ hitems

end

theorem constRead_within {s : State} {r : List Word × Nat} (h : constRead s = .ok r) : WithinStream s r := by
  unfold constRead at h
  split at h <;> cases h
  exact ⟨List.length_replicate, Nat.zero_le _⟩

theorem deltaconstRead_within {s : State} {r : List Word × Nat} (h : deltaconstRead s = .ok r) : WithinStream s r := by
  unfold deltaconstRead at h
  split at h
  · cases h
  · obtain ⟨dd, hdd, h⟩ := bind_eq_ok.1 h
    rw [← endOfBytes_eq_ok h]
    exact ⟨progression_length _ _ _, (varGet_cursor hdd).1⟩

/-- The pair loop makes what is missing of `COUNT`, or raises (R252). -/
theorem expandPairs_length {s : State} (a : List Word) (head : Bool) (made : Nat) (hm : made ≤ s.count.toNat) :
    ∀ vs, expandPairs s a head made = .ok vs → made + vs.length = s.count.toNat := by
  fun_induction expandPairs s a head made with
  | case1 | case2 | case3 | case5 => intro vs h; cases h
  | case4 val run rest head made _ _ _ take ih =>
    intro vs h
    obtain ⟨ws, hws, h⟩ := bind_eq_ok.1 h
    cases h
    have := ih (by omega) ws hws
    simp only [List.length_append, List.length_replicate]
    omega
  | case6 => intro vs h; cases h; simp only [List.length_nil]; omega

theorem rleRead_within {s : State} {r : List Word × Nat} (h : rleRead s = .ok r) : WithinStream s r := by
  unfold rleRead at h
  split at h
  · cases h
  · obtain ⟨p, -, h⟩ := bind_eq_ok.1 h
    obtain ⟨a, -, h⟩ := bind_eq_ok.1 h
    split at h
    · cases h
    · split at h
      · cases h
      · obtain ⟨vs, hvs, h⟩ := bind_eq_ok.1 h
        cases h
        have := expandPairs_length a true 0 (Nat.zero_le _) vs hvs
        exact ⟨by simpa using this, le_refl _⟩

/-- Every reader that answers gives `COUNT` items from within the stream, whatever the bits are (R350). -/
theorem decompressBody_within {i : Instr} {s : State} {r : List Word × Nat} (hi : i ∈ decompressCommands)
    (hc : s.count ≠ 0) (h : decompressBody i s = .ok r) : WithinStream s r := by
  cases i with
  | gorillaD | gorillazD | gorillaplusD => exact framed_within hc (fun _ _ _ _ => gorillaGetItem_cursor) _ h
  | chimpD => exact framed_within hc (fun _ _ _ _ => chimpGetItem_cursor) (fun v => { prev := v, pL := none }) h
  | pdfcmD => exact framed_within hc (fun _ _ _ _ => pdfcmGetItem_cursor) _ h
  | fpcD => exact counted_within hc (fun _ _ _ _ => fpcGetItem_cursor) _ _ h
  | huffD => exact counted_within hc (fun _ _ _ => huffGetItem_cursor) _ _ h
  | deltaD | delta2D | xordeltaD | deltaxorD | plainD => exact residRead_within hc h
  | constD => exact constRead_within h
  | deltaconstD => exact deltaconstRead_within h
  | rleD => exact rleRead_within h
  | _ => simp [mem_decompressCommands] at hi

/-- Settles O52: the checks of DecompressBegin in their order, then what the command's reader answers. -/
theorem decompressAnswers : Obligations.DecompressAnswers := by
  intro i s hi hs
  refine ⟨_, exec_decompressCommand hi s, fun h => decompress_checkError (decompressCheck_unaligned h),
    fun h8 h0 => decompress_checkError (decompressCheck_tooFew h8 h0),
    fun h8 h0 hv => decompress_checkError (decompressCheck_overflow h8 h0 hv), fun hr => ?_⟩
  cases hb : decompressBody i s with
  | error c => exact .inr ⟨c, decompress_bodyError hr hb⟩
  | ok r =>
    obtain ⟨hlen, hpos⟩ := decompressBody_within hi hr.2.1 hb
    have hroom : s.dlen.toNat + r.1.length ≤ s.cfg.vcap := by rw [hlen]; exact hr.2.2
    exact .inl ⟨r.1, r.2, hlen, hpos,
      decompress_ok hs (decompressCheck_eq_ok.2 hr) hb hroom (lt_of_le_of_lt hpos s.blen.isLt)⟩

end Sys2Proof.Machine
end

section
/-! SUPPORT. How long a body can be (R69), and that the default capacity of `BUF` holds every body of 8192 items. -/

namespace Sys2Proof.Machine

theorem srcItems_length (s : State) : s.srcItems.length = s.slen.toNat := by simp [State.srcItems]

/-- Where every record has at most `c` bits, the loop appends at most `c` bits for each item. `P` is what the codec's
state keeps. -/
theorem encodeItems_length_le {σ : Type} {item : σ → Word → List Bool × σ} {P : σ → Prop} {c : Nat}
    (hlen : ∀ st v, P st → (item st v).1.length ≤ c) (hkeep : ∀ st v, P st → P (item st v).2) {st : σ} (hst : P st)
    (vs : List Word) : (encodeItems item st vs).length ≤ c * vs.length := by
  induction vs generalizing st with
  | nil => exact Nat.zero_le _
  | cons v vs ih =>
    have h1 := hlen st v hst
    have h2 := ih (hkeep st v hst)
    simp only [encodeItems, List.length_append, List.length_cons, Nat.mul_succ]
    omega

/-! ## The longest record of each codec -/

theorem gorillaPutItem_length_le (lay : Layout) (st : GorillaState) (v : Word) (h : st.pl + st.w ≤ 64) :
    (gorillaPutItem lay st v).1.length ≤ 80 := by
  have hlw : lay.lw ≤ 6 := by cases lay <;> decide
  unfold gorillaPutItem
  simp only
  split
  · simp
  · split
    · simp only [List.length_append, List.length_cons, List.length_nil, group_length]; omega
    · simp only [List.length_append, List.length_cons, List.length_nil, group_length, groupNat_length]; omega

theorem chimpPutItem_length_le (st : ChimpState) (v : Word) : (chimpPutItem st v).1.length ≤ 80 := by
  unfold chimpPutItem
  simp only
  split
  · simp
  · split
    · simp only [List.length_append, List.length_cons, List.length_nil, group_length, groupNat_length]; omega
    · split <;>
        simp only [List.length_append, List.length_cons, List.length_nil, group_length, groupNat_length] <;> omega

theorem fpcPutItem_length_le (log2 : Nat) (st : FpcState) (v : Word) : (fpcPutItem log2 st v).1.length ≤ 80 := by
  simp only [fpcPutItem, List.length_append, List.length_cons, List.length_nil, group_length, groupNat_length]
  omega

theorem residualBits_length_le (x : Word) : (residualBits x).length ≤ 70 := by
  simp only [residualBits, List.length_append, group_length, groupNat_length]
  omega

theorem pdfcmPutItem_length_le (log2 : Nat) (st : PdfcmState) (v : Word) : (pdfcmPutItem log2 st v).1.length ≤ 80 := by
  have hp := residualBits_length_le (v ^^^ st.dfcm.predict)
  have hd := residualBits_length_le (v ^^^ st.entry (st.best v))
  unfold pdfcmPutItem
  simp only
  split_ifs <;>
    simp only [List.length_append, List.length_cons, List.length_nil, group_length, groupNat_length] <;> omega

theorem nibbleCodes_length_le (x : Word) (n : Nat) : (nibbleCodes x n).length ≤ 5 * n := by
  induction n with
  | zero => exact Nat.zero_le _
  | succ n ih =>
    have hcode : (huffBits (nibble x n)).length ≤ 5 := by
      unfold huffBits huffCode
      split_ifs <;> simp
    simp only [nibbleCodes, List.length_append]
    omega

theorem pairsBits_length_le (runs : List (Word × Nat)) :
    (runs.flatMap fun r => varintBits r.1 ++ varintBits (BitVec.ofNat 64 r.2)).length ≤ 160 * runs.length := by
  induction runs with
  | nil => exact Nat.zero_le _
  | cons r runs ih =>
    have h1 := varintBits_length_bounds r.1
    have h2 := varintBits_length_bounds (BitVec.ofNat 64 r.2)
    simp only [List.flatMap_cons, List.length_append, List.length_cons]
    omega

/-! ## The longest body of each codec -/

/-- The body is answered, with at most 160 bits for each item and 80 more. -/
def Fits (answer : Except Cause (List Bool)) (n : Nat) : Prop :=
  ∃ bits, answer = .ok bits ∧ bits.length ≤ 160 * n + 80

theorem framedHeader_length (v0 : Word) (n : Nat) : (framedHeader v0 n).length = 78 := by simp [framedHeader]

theorem gorillaBody_fits (lay : Layout) (vs : List Word) : Fits (gorillaBody lay vs) vs.length := by
  cases vs with
  | nil => exact ⟨[], rfl, Nat.zero_le _⟩
  | cons v0 vs =>
    have h := encodeItems_length_le (gorillaPutItem_length_le lay) (gorillaPutItem_keeps lay) (st := .init v0)
      (Nat.zero_le _) vs
    refine ⟨_, rfl, ?_⟩
    simp only [List.length_append, framedHeader_length, List.length_cons]
    omega

theorem chimpBody_fits (vs : List Word) : Fits (chimpBody vs) vs.length := by
  cases vs with
  | nil => exact ⟨[], rfl, Nat.zero_le _⟩
  | cons v0 vs =>
    have h := encodeItems_length_le (P := fun _ => True) (fun st v _ => chimpPutItem_length_le st v)
      (fun _ _ _ => trivial) (st := { prev := v0, pL := none }) trivial vs
    refine ⟨_, rfl, ?_⟩
    simp only [List.length_append, framedHeader_length, List.length_cons]
    omega

theorem pdfcmBody_fits (log2 : Nat) (vs : List Word) : Fits (pdfcmBody log2 vs) vs.length := by
  cases vs with
  | nil => exact ⟨[], rfl, Nat.zero_le _⟩
  | cons v0 vs =>
    have h := encodeItems_length_le (P := fun _ => True) (fun st v _ => pdfcmPutItem_length_le log2 st v)
      (fun _ _ _ => trivial) (st := .init log2 v0) trivial vs
    refine ⟨_, rfl, ?_⟩
    simp only [List.length_append, framedHeader_length, List.length_cons]
    omega

theorem fpcBody_fits (log2 : Nat) (vs : List Word) : Fits (fpcBody log2 vs) vs.length := by
  have h := encodeItems_length_le (P := fun _ => True) (fun st v _ => fpcPutItem_length_le log2 st v)
    (fun _ _ _ => trivial) (st := FpcState.init) trivial vs
  refine ⟨_, rfl, ?_⟩
  simp only [List.length_append, groupNat_length]
  omega

theorem huffBody_fits (vs : List Word) : Fits (huffBody vs) vs.length := by
  have h := encodeItems_length_le (item := huffPutItem) (P := fun _ => True)
    (fun prev v _ => nibbleCodes_length_le (v ^^^ prev) 16) (fun _ _ _ => trivial) (st := 0) trivial vs
  refine ⟨_, rfl, ?_⟩
  simp only [List.length_append, groupNat_length]
  omega

theorem residBody_fits (k : Scheme) (vs : List Word) : Fits (residBody k vs) vs.length := by
  cases vs with
  | nil => exact ⟨[], rfl, Nat.zero_le _⟩
  | cons v0 vs =>
    have h := encodeItems_length_le (item := residPutItem k) (P := fun _ => True)
      (fun st v _ => (varintBits_length_bounds (k.resid st v)).2) (fun _ _ _ => trivial) (st := .init v0) trivial vs
    refine ⟨_, rfl, ?_⟩
    simp only [List.length_cons]
    omega

theorem rleBody_fits (vs : List Word) : Fits (rleBody vs) vs.length := by
  cases vs with
  | nil => exact ⟨[], rfl, Nat.zero_le _⟩
  | cons v0 vs =>
    have hn := runsFrom_length v0 1 vs
    have hp := pairsBits_length_le (runsFrom v0 1 vs)
    have hc := varintBits_length_bounds (BitVec.ofNat 64 (runsFrom v0 1 vs).length)
    refine ⟨_, rfl, ?_⟩
    simp only [List.length_append, List.length_cons]
    omega

/-- Every encoder but those of `CONST.C` and `DELTACONST.C` takes every block. -/
theorem compressBody_fits (log2 : Nat) {i : Instr} (hi : i ∈ compressCommands) (h1 : i ≠ .constC)
    (h2 : i ≠ .deltaconstC) (vs : List Word) : Fits (compressBody log2 i vs) vs.length := by
  cases i with
  | gorillaC | gorillazC | gorillaplusC => exact gorillaBody_fits _ vs
  | chimpC => exact chimpBody_fits vs
  | fpcC => exact fpcBody_fits log2 vs
  | pdfcmC => exact pdfcmBody_fits log2 vs
  | huffC => exact huffBody_fits vs
  | deltaC | delta2C | xordeltaC | deltaxorC | plainC => exact residBody_fits _ vs
  | rleC => exact rleBody_fits vs
  | constC => exact absurd rfl h1
  | deltaconstC => exact absurd rfl h2
  | _ => simp [mem_compressCommands] at hi

/-- A block of at most 8192 items that `SRC` holds is not too long for any compress command. -/
theorem le_maxItems (i : Instr) {n vcap : Nat} (h : n ≤ 8192) (hv : n ≤ vcap) : n ≤ maxItems i vcap := by
  unfold maxItems
  split_ifs <;> omega

/-- Settles O51: 8192 items take at most 160 * 8192 + 80 bits, and the default `BUF` has 2097152. -/
theorem defaultsNeverOverflow : Obligations.DefaultsNeverOverflow := by
  intro i s hi h1 h2 hs hcap hmin hmax
  obtain ⟨bits, hb, hlen⟩ := compressBody_fits s.cfg.fpcLog2 hi h1 h2 s.srcItems
  rw [srcItems_length] at hlen
  have hfit : bits.length ≤ s.bufBits := by
    rw [State.bufBits, hcap]; omega
  have hone : minItems i ≤ s.slen.toNat := by rwa [minItems, if_neg h2]
  exact ⟨_, bits, exec_compressCommand hi s, compress_ok hs hone (le_maxItems i hmax hs.slen_le) hb hfit⟩

end Sys2Proof.Machine
end

section
/-! SUPPORT. Each reader over a body its encoder wrote, wherever that body ends in the stream: the block and the cursor
after the body, up to the reader's own tail check. And then the tail check on a body with one whole byte more (R18). -/

namespace Sys2Proof.Machine

/-! ## Readers over a body -/

/-- The block as its first item and the rest by index. -/
theorem srcItems_eq_range {s : State} (h : 1 ≤ s.slen.toNat) :
    s.srcItems = s.srcAt 0 :: (List.range (s.slen.toNat - 1)).map fun k => s.srcAt (k + 1) := by
  obtain ⟨n, hn⟩ : ∃ n, s.slen.toNat = n + 1 := ⟨s.slen.toNat - 1, by omega⟩
  rw [State.srcItems, hn, List.range_succ_eq_map, List.map_cons, List.map_map]
  rfl

section
variable {σ : Type} {enc : σ → Word → List Bool × σ} {dec : σ → Nat → Except Cause (Word × σ × Nat)} {P : σ → Prop}
  {u : State} {v0 : Word} {vs : List Word}

/-- A reader of the Gorilla framing whose step undoes the encoder's, up to its tail check. -/
theorem framed_readsBack
    (hstep : ∀ st v pos, P st → u.holdsAt pos (enc st v).1 →
      dec st pos = .ok (v, (enc st v).2, pos + (enc st v).1.length))
    (hkeep : ∀ st v, P st → P (enc st v).2) (start : Word → σ) (hP : P (start v0)) (hf : u.first = v0)
    (hc : u.count.toNat = vs.length + 1) (hn : vs.length + 1 ≤ 16383)
    (h : u.holdsAt 0 (framedHeader v0 (vs.length + 1) ++ encodeItems enc (start v0) vs)) :
    (readFramedHeader u >>= fun h => decodeItems dec (u.count.toNat - 1) (start h.1) h.2 >>= fun r =>
      endOfBits u (h.1 :: r.1, r.2)) =
        endOfBits u (v0 :: vs, (framedHeader v0 (vs.length + 1) ++ encodeItems enc (start v0) vs).length) := by
  obtain ⟨hhead, hitems⟩ := holdsAt_append.1 h
  rw [framedHeader_length] at hitems
  have hloop := decodeItems_encodeItems hstep hkeep vs (start v0) _ hP hitems
  rw [readFramedHeader_ok hhead hf hc (by omega), ok_bind]
  simp only [hc, Nat.add_sub_cancel]
  rw [show (78 : Nat) = 0 + 78 from rfl, hloop, ok_bind, List.length_append, framedHeader_length, Nat.zero_add]

/-- A reader of a count in `width` bits whose step undoes the encoder's, up to its tail check. -/
theorem counted_readsBack
    (hstep : ∀ st v pos, P st → u.holdsAt pos (enc st v).1 →
      dec st pos = .ok (v, (enc st v).2, pos + (enc st v).1.length))
    (hkeep : ∀ st v, P st → P (enc st v).2) (start : σ) (hP : P start) (hf : u.first = v0)
    (hc : u.count.toNat = vs.length + 1) {width : Nat} (hw : width ≤ 64) (hn : vs.length + 1 < 2 ^ width)
    (h : u.holdsAt 0 (groupNat (vs.length + 1) width ++ encodeItems enc start (v0 :: vs))) :
    (getBits u 0 width >>= fun n => if n.1.toNat ≠ u.count.toNat then .error .countMismatch
      else decodeCheckedItems dec u start n.2 >>= endOfBits u) =
        endOfBits u (v0 :: vs, (groupNat (vs.length + 1) width ++ encodeItems enc start (v0 :: vs)).length) := by
  obtain ⟨hhead, hall⟩ := holdsAt_append.1 h
  obtain ⟨hitem, hitems⟩ := holdsAt_append.1 hall
  rw [groupNat_length] at hitem hitems
  have hloop := decodeItems_encodeItems hstep hkeep vs _ _ (hkeep start v0 hP) hitems
  rw [getBits_groupNat hhead, ok_bind, ofGroup_groupNat_toNat hw hn, if_neg (by simp [hc])]
  rw [decodeCheckedItems, hstep start v0 _ hP hitem, ok_bind, if_neg (by simp [hf]), hc, Nat.add_sub_cancel, hloop]
  simp only [ok_bind, encodeItems, List.length_append, groupNat_length, Nat.zero_add, Nat.add_assoc]

end

section
variable {u : State} {v0 : Word} {vs : List Word} (hf : u.first = v0) (hc : u.count.toNat = vs.length + 1)
include hf hc

theorem gorillaRead_readsBack (lay : Layout) {bits : List Bool} (hn : vs.length + 1 ≤ 16383)
    (hb : gorillaBody lay (v0 :: vs) = .ok bits) (h : u.holdsAt 0 bits) :
    gorillaRead lay u = endOfBits u (v0 :: vs, bits.length) := by
  cases hb
  exact framed_readsBack (P := fun st => st.pl + st.w ≤ 64) (fun st v pos => gorillaGetItem_putItem lay st v pos)
    (gorillaPutItem_keeps lay) _ (Nat.zero_le _) hf hc hn h

theorem chimpRead_readsBack {bits : List Bool} (hn : vs.length + 1 ≤ 16383)
    (hb : chimpBody (v0 :: vs) = .ok bits) (h : u.holdsAt 0 bits) :
    chimpRead u = endOfBits u (v0 :: vs, bits.length) := by
  cases hb
  exact framed_readsBack (P := fun _ => True) (fun st v pos _ => chimpGetItem_putItem st v pos)
    (fun _ _ _ => trivial) (fun v => { prev := v, pL := none }) trivial hf hc hn h

theorem pdfcmRead_readsBack {bits : List Bool} (hn : vs.length + 1 ≤ 16383)
    (hb : pdfcmBody u.cfg.fpcLog2 (v0 :: vs) = .ok bits) (h : u.holdsAt 0 bits) :
    pdfcmRead u = endOfBits u (v0 :: vs, bits.length) := by
  cases hb
  exact framed_readsBack (P := fun st => st.window.length = 8) (fun st v pos => pdfcmGetItem_putItem st v pos)
    (fun _ v hw => push_window hw _ v) _ (init_window _ v0) hf hc hn h

theorem fpcRead_readsBack {bits : List Bool} (hn : vs.length + 1 ≤ 16383)
    (hb : fpcBody u.cfg.fpcLog2 (v0 :: vs) = .ok bits) (h : u.holdsAt 0 bits) :
    fpcRead u = endOfBits u (v0 :: vs, bits.length) := by
  cases hb
  exact counted_readsBack (P := fun _ => True) (fun st v pos _ => fpcGetItem_putItem st v pos)
    (fun _ _ _ => trivial) _ trivial hf hc (by omega) (by omega) h

theorem huffRead_readsBack {bits : List Bool} (hn : vs.length + 1 ≤ 65535)
    (hb : huffBody (v0 :: vs) = .ok bits) (h : u.holdsAt 0 bits) :
    huffRead u = endOfBits u (v0 :: vs, bits.length) := by
  cases hb
  exact counted_readsBack (P := fun _ => True) (fun prev v pos _ => huffGetItem_putItem prev v pos)
    (fun _ _ _ => trivial) _ trivial hf hc (by omega) (by omega) h

theorem residRead_readsBack (k : Scheme) {bits : List Bool}
    (hb : residBody k (v0 :: vs) = .ok bits) (h : u.holdsAt 0 bits) :
    residRead k u = endOfBytes u (v0 :: vs, bits.length) := by
  cases hb
  have hloop := decodeItems_encodeItems (P := fun _ => True) (fun st v pos _ => residGetItem_putItem k st v pos)
    (fun _ _ _ => trivial) vs (ResidState.init v0) 0 trivial h
  rw [residRead, hc, Nat.add_sub_cancel, hf, hloop, ok_bind, Nat.zero_add]

end

/-! ## One whole byte more -/

section
variable {u : State} {bits : List Bool} {first : Word} {n : Nat} (h : HoldsExtra u bits first n)
include h

theorem HoldsExtra.holdsAt : u.holdsAt 0 bits := ⟨by have := h.1; omega, h.2.1⟩

theorem HoldsExtra.blen_mod : u.blen.toNat % 8 = 0 := by
  have := add_padding_mod bits.length
  have := h.1
  omega

theorem HoldsExtra.ready (hn : 1 ≤ n) (hroom : u.dlen.toNat + n ≤ u.cfg.vcap) : ReadyToDecode u := by
  have hcount : u.count.toNat = n := h.2.2.2
  refine ⟨h.blen_mod, fun h0 => ?_, by rwa [hcount]⟩
  rw [h0] at hcount
  exact absurd hcount (by simp; omega)

/-- The whole byte more is at least eight unread bits. -/
theorem endOfBits_extra (items : List Word) : endOfBits u (items, bits.length) = .error .tail :=
  if_pos (by have := h.1; simp only; omega)

/-- The whole byte more is unread. -/
theorem endOfBytes_extra (items : List Word) : endOfBytes u (items, bits.length) = .error .tail :=
  if_pos (by have := h.1; simp only; omega)

end

/-- What is left to show of a command that refuses an extra byte: its reader raises the cause. The block is given as a
list whose first item is `FIRST`. -/
theorem refusesExtra_of_reader {d : Instr} (hd : d ∈ decompressCommands) {minN maxN : State → Nat}
    {body : State → List Word → Except Cause (List Bool)} {cause : Byte → Cause} (hmin : ∀ s, 1 ≤ minN s)
    (hread : ∀ (s u : State) (v0 : Word) (vs : List Word) (bits : List Bool), u.cfg.fpcLog2 = s.cfg.fpcLog2 →
      minN s ≤ vs.length + 1 → vs.length + 1 ≤ maxN s → body s (v0 :: vs) = .ok bits →
      HoldsExtra u bits v0 (vs.length + 1) →
        decompressBody d u = .error (cause (u.buf.byte (u.blen.toNat / 8 - 1)))) :
    RefusesExtra d minN maxN body cause := by
  intro s u bits _ _ hlog hlo hhi hb hex hroom
  have hone : 1 ≤ s.slen.toNat := le_trans (hmin s) hlo
  obtain ⟨vs, hvs⟩ : ∃ vs, s.srcItems = s.srcAt 0 :: vs := ⟨_, srcItems_eq_range hone⟩
  have hlen : vs.length + 1 = s.slen.toNat := by rw [← srcItems_length, hvs, List.length_cons]
  rw [hvs] at hb
  have hready := hex.ready hone hroom
  rw [← hlen] at hlo hhi hex
  exact ⟨_, exec_decompressCommand hd u, decompress_bodyError hready (hread s u _ vs bits hlog hlo hhi hb hex)⟩

/-- A bit-packed reader that takes the body back refuses the byte in its tail check (R18). -/
theorem refusesExtra_of_bitReader {d : Instr} (hd : d ∈ decompressCommands) {maxN : State → Nat}
    {body : State → List Word → Except Cause (List Bool)}
    (hread : ∀ (s u : State) (v0 : Word) (vs : List Word) (bits : List Bool), u.cfg.fpcLog2 = s.cfg.fpcLog2 →
      vs.length + 1 ≤ maxN s → body s (v0 :: vs) = .ok bits → u.first = v0 → u.count.toNat = vs.length + 1 →
      u.holdsAt 0 bits → decompressBody d u = endOfBits u (v0 :: vs, bits.length)) :
    RefusesExtra d (fun _ => 1) maxN body (fun _ => .tail) :=
  refusesExtra_of_reader hd (fun _ => le_refl 1) fun s u v0 vs bits hlog _ hn hb hex => by
    have ⟨_, _, hf, hc⟩ := hex
    rw [hread s u v0 vs bits hlog hn hb hf hc hex.holdsAt, endOfBits_extra hex]

theorem gorilla_refusesExtra {d : Instr} (lay : Layout) (hd : d ∈ decompressCommands)
    (hbody : decompressBody d = gorillaRead lay) :
    RefusesExtra d (fun _ => 1) (fun _ => 16383) (fun _ vs => gorillaBody lay vs) (fun _ => .tail) :=
  refusesExtra_of_bitReader hd fun _ _ _ _ _ _ hn hb hf hc h => by
    rw [hbody, gorillaRead_readsBack hf hc lay hn hb h]

theorem chimp_refusesExtra :
    RefusesExtra .chimpD (fun _ => 1) (fun _ => 16383) (fun _ vs => chimpBody vs) (fun _ => .tail) :=
  refusesExtra_of_bitReader (by decide) fun _ _ _ _ _ _ hn hb hf hc h => chimpRead_readsBack hf hc hn hb h

theorem fpc_refusesExtra :
    RefusesExtra .fpcD (fun _ => 1) (fun _ => 16383) (fun s vs => fpcBody s.cfg.fpcLog2 vs) (fun _ => .tail) :=
  refusesExtra_of_bitReader (by decide) fun _ _ _ _ _ hlog hn hb hf hc h =>
    fpcRead_readsBack hf hc hn (hlog ▸ hb) h

theorem pdfcm_refusesExtra :
    RefusesExtra .pdfcmD (fun _ => 1) (fun _ => 16383) (fun s vs => pdfcmBody s.cfg.fpcLog2 vs) (fun _ => .tail) :=
  refusesExtra_of_bitReader (by decide) fun _ _ _ _ _ hlog hn hb hf hc h =>
    pdfcmRead_readsBack hf hc hn (hlog ▸ hb) h

theorem huff_refusesExtra :
    RefusesExtra .huffD (fun _ => 1) (fun _ => 65535) (fun _ vs => huffBody vs) (fun _ => .tail) :=
  refusesExtra_of_bitReader (by decide) fun _ _ _ _ _ _ hn hb hf hc h => huffRead_readsBack hf hc hn hb h

theorem resid_refusesExtra {d : Instr} (k : Scheme) (hd : d ∈ decompressCommands)
    (hbody : decompressBody d = residRead k) :
    RefusesExtra d (fun _ => 1) (fun s => s.cfg.vcap) (fun _ vs => residBody k vs) (fun _ => .tail) :=
  refusesExtra_of_reader hd (fun _ => le_refl 1) fun _ _ _ _ _ _ _ _ hb hex => by
    have ⟨_, _, hf, hc⟩ := hex
    rw [hbody, residRead_readsBack hf hc k hb hex.holdsAt, endOfBytes_extra hex]

/-- The body of a constant block is empty. -/
theorem constBody_eq_ok {vs : List Word} {bits : List Bool} (h : constBody vs = .ok bits) : bits = [] := by
  cases vs with
  | nil => cases h; rfl
  | cons v vs =>
    simp only [constBody] at h
    split at h <;> cases h
    rfl

theorem const_refusesExtra :
    RefusesExtra .constD (fun _ => 1) (fun s => s.cfg.vcap) (fun _ vs => constBody vs) (fun _ => .tail) :=
  refusesExtra_of_reader (by decide) (fun _ => le_refl 1) fun _ u _ _ _ _ _ _ hb hex => by
    have hlen := hex.1
    refine if_pos fun h0 => ?_
    rw [h0] at hlen
    exact absurd hlen (by simp)

/-- The body of a block of two items or more of constant difference is that difference (R238). -/
theorem deltaconstBody_eq_ok {vs : List Word} {bits : List Bool} (hn : 2 ≤ vs.length)
    (h : deltaconstBody vs = .ok bits) : ∃ dd, bits = varintBits dd := by
  match vs, hn with
  | v0 :: v1 :: vs, _ =>
    simp only [deltaconstBody, differences] at h
    split at h <;> cases h
    exact ⟨_, rfl⟩

theorem deltaconst_refusesExtra :
    RefusesExtra .deltaconstD (fun _ => 2) (fun s => s.cfg.vcap) (fun _ vs => deltaconstBody vs) (fun _ => .tail) :=
  refusesExtra_of_reader (by decide) (fun _ => by omega) fun _ u v0 vs _ _ hlo _ hb hex => by
    have hbody : decompressBody .deltaconstD u = deltaconstRead u := rfl
    obtain ⟨dd, rfl⟩ := deltaconstBody_eq_ok (by simpa using hlo) hb
    have hlen := hex.1
    have hne : ¬ u.blen = 0 := fun h0 => by
      rw [h0] at hlen
      exact absurd hlen (by simp)
    rw [hbody, deltaconstRead, if_neg hne, varGet_varintBits hex.holdsAt, ok_bind, Nat.zero_add, endOfBytes_extra hex]

/-! ## One whole byte more after the runs -/

/-- The eight bits from a byte boundary on are the byte there (R21, R123). -/
theorem getBits_byte {u : State} {i : Nat} (h : 8 * i + 8 ≤ u.blen.toNat) :
    getBits u (8 * i) 8 = .ok ((u.buf.byte i).setWidth 64, 8 * i + 8) := by
  refine getBits_eq_ok.2 ⟨h, ?_⟩
  have hlt : (ofGroup (u.buf.bits (8 * i) 8)).toNat < 2 ^ 8 := by
    simpa using ofGroup_toNat_lt (u.buf.bits (8 * i) 8)
  have hw : (u.buf.byte i).setWidth 64 = ofGroup (u.buf.bits (8 * i) 8) := by
    apply BitVec.eq_of_toNat_eq
    simp only [ByteMemory.byte, BitVec.toNat_setWidth]
    omega
  rw [hw]

/-- `VarGet` at the last byte of the stream: below 128 it is a varint, else one cut short (R291). -/
theorem varGet_lastByte {u : State} {i : Nat} (h : 8 * i + 8 = u.blen.toNat) :
    ((u.buf.byte i).toNat < 128 → ∃ v, varGet u (8 * i) = .ok (v, u.blen.toNat)) ∧
      (¬ (u.buf.byte i).toNat < 128 → varGet u (8 * i) = .error .eosVarint) := by
  have hb : ((u.buf.byte i).setWidth 64 : Word).toNat = (u.buf.byte i).toNat := by
    have := (u.buf.byte i).isLt
    rw [BitVec.toNat_setWidth]; omega
  unfold varGet varGetFrom
  rw [if_neg (by omega), getBits_byte (by omega), ok_bind]
  simp only [hb]
  rw [if_neg (by omega)]
  refine ⟨fun hlt => ⟨_, by rw [if_pos hlt, h]⟩, fun hge => ?_⟩
  rw [if_neg hge, varGetFrom, if_pos (by omega)]

/-- The array of varints begins with those that are held, and goes on behind them (R252). -/
theorem restVarints_append {u : State} (ws : List Word) (fuel : Nat) {pos : Nat}
    (h : u.holdsAt pos (ws.flatMap varintBits)) :
    restVarints u (ws.length + fuel) pos =
      restVarints u fuel (pos + (ws.flatMap varintBits).length) >>= fun vs => .ok (ws ++ vs) := by
  induction ws generalizing pos with
  | nil =>
    simp only [List.length_nil, Nat.zero_add, List.flatMap_nil, Nat.add_zero, List.nil_append]
    cases restVarints u fuel pos <;> rfl
  | cons w ws ih =>
    obtain ⟨hw, hws⟩ := holdsAt_append.1 h
    have hfit := hw.1
    have hlen := varintBits_length_bounds w
    rw [List.length_cons, show ws.length + 1 + fuel = (ws.length + fuel) + 1 by omega, restVarints, if_neg (by omega),
      varGet_varintBits hw, ok_bind, ih hws, List.flatMap_cons, List.length_append, ← Nat.add_assoc]
    cases restVarints u fuel (pos + (varintBits w).length + (ws.flatMap varintBits).length) <;> rfl

/-- The array of varints from the last byte of the stream on. -/
theorem restVarints_lastByte {u : State} {i : Nat} (h : 8 * i + 8 = u.blen.toNat) (fuel : Nat) :
    ((u.buf.byte i).toNat < 128 → ∃ v, restVarints u (fuel + 2) (8 * i) = .ok [v]) ∧
      (¬ (u.buf.byte i).toNat < 128 → restVarints u (fuel + 2) (8 * i) = .error .eosVarint) := by
  obtain ⟨hlast, hcut⟩ := varGet_lastByte h
  rw [restVarints, if_neg (by omega)]
  refine ⟨fun hlt => ?_, fun hge => by rw [hcut hge, error_bind]⟩
  obtain ⟨v, hv⟩ := hlast hlt
  exact ⟨v, by rw [hv, ok_bind, restVarints, if_pos rfl, ok_bind]⟩

theorem flatMap_varintBits_length (ws : List Word) :
    (ws.flatMap varintBits).length % 8 = 0 ∧ 8 * ws.length ≤ (ws.flatMap varintBits).length := by
  induction ws with
  | nil => simp
  | cons w ws ih =>
    have h1 := varintBits_length w
    have h2 := varintBits_length_bounds w
    simp only [List.flatMap_cons, List.length_append, List.length_cons]
    omega

/-- The body of a run-length block as varints: the number of pairs, then the array of R252. -/
theorem rleBody_cons (v0 : Word) (vs : List Word) :
    rleBody (v0 :: vs) = .ok ((BitVec.ofNat 64 (runsFrom v0 1 vs).length :: runArray (runsFrom v0 1 vs)).flatMap
      varintBits) := by
  simp only [rleBody, List.flatMap_cons, runArray_bits]

/-- A byte after the pairs is one varint too many, or one cut short; the pairs are not looked at (R252). -/
theorem rle_refusesExtra :
    RefusesExtra .rleD (fun _ => 1) (fun s => s.cfg.vcap) (fun _ vs => rleBody vs)
      (fun b => if b.toNat < 128 then .oddPairs else .eosVarint) :=
  refusesExtra_of_reader (by decide) (fun _ => le_refl 1) fun _ u v0 vs bits _ _ _ hb hex => by
    have hbody : decompressBody .rleD u = rleRead u := rfl
    rw [rleBody_cons] at hb
    cases hb
    have hall := hex.holdsAt
    have hblen := hex.1
    set runs := runsFrom v0 1 vs
    set p : Word := BitVec.ofNat 64 runs.length
    obtain ⟨hmod, hfuel⟩ := flatMap_varintBits_length (p :: runArray runs)
    rw [padding_length, hmod] at hblen
    simp only [List.flatMap_cons, holdsAt_append, List.length_append, List.length_cons] at hall hblen hfuel hmod
    have hp := varintBits_length_bounds p
    obtain ⟨i, hi⟩ : ∃ i, 8 * i + 8 = u.blen.toNat := ⟨u.blen.toNat / 8 - 1, by omega⟩
    obtain ⟨fuel, hfu⟩ : ∃ fuel, u.blen.toNat + 1 = (runArray runs).length + (fuel + 2) :=
      ⟨u.blen.toNat - 1 - (runArray runs).length, by omega⟩
    have hend : 0 + (varintBits p).length + ((runArray runs).flatMap varintBits).length = 8 * i := by omega
    obtain ⟨hlast, hcut⟩ := restVarints_lastByte hi fuel
    have hne : ¬ u.blen = 0 := fun h0 => by
      rw [h0] at hi
      simp at hi
    rw [hbody, rleRead, if_neg hne, varGet_varintBits hall.1, ok_bind, hfu,
      restVarints_append _ _ hall.2, hend, show u.blen.toNat / 8 - 1 = i by omega]
    by_cases hlt : (u.buf.byte i).toNat < 128
    · obtain ⟨v, hv⟩ := hlast hlt
      have hodd : (runArray runs ++ [v]).length % 2 = 1 := by
        rw [List.length_append, runArray_length, List.length_singleton]; omega
      rw [hv, ok_bind, ok_bind, if_pos hodd, if_pos hlt]
    · rw [hcut hlt, error_bind, error_bind, if_neg hlt]

/-- Settles O57: each reader takes the body back and stops before the byte, which its tail check, or the array of R252,
finds. -/
theorem extraByteIsTail : Obligations.ExtraByteIsTail :=
  ⟨gorilla_refusesExtra .g (by decide) rfl, gorilla_refusesExtra .z (by decide) rfl,
    gorilla_refusesExtra .p (by decide) rfl, chimp_refusesExtra, fpc_refusesExtra, pdfcm_refusesExtra,
    huff_refusesExtra, resid_refusesExtra .delta (by decide) rfl, resid_refusesExtra .delta2 (by decide) rfl,
    resid_refusesExtra .xorDelta (by decide) rfl, resid_refusesExtra .deltaXor (by decide) rfl,
    resid_refusesExtra .plain (by decide) rfl, const_refusesExtra, deltaconst_refusesExtra, rle_refusesExtra⟩

end Sys2Proof.Machine
end

section
/-! SUPPORT. The body formats by formula: bit groups as `numBits`, the item loop as a list of records, and the records
of the Gorilla family (R141 to R145). -/

namespace Sys2Proof.Machine

/-! ## Groups by formula -/

/-- A group is the low bits of its number (R62). -/
theorem group_eq_numBits (v : Word) (n : Nat) : group v n = numBits v.toNat n := by
  refine List.ext_getElem (by simp [numBits]) fun j h1 _ => ?_
  rw [group_getElem]
  simp [numBits, BitVec.getLsbD]

theorem groupNat_eq_numBits (k : Nat) {n : Nat} (h : n ≤ 64) : groupNat k n = numBits k n := by
  rw [groupNat, group_eq_numBits, BitVec.toNat_ofNat]
  refine List.map_congr_left fun j hj => ?_
  have hlt : n - 1 - j < 64 := by
    have := List.mem_range.1 hj
    omega
  rw [Nat.testBit_mod_two_pow, decide_eq_true hlt, Bool.true_and]

/-- The bits of a window, as a division of the number (R142, R201). -/
theorem group_ushiftRight (x : Word) (t n : Nat) : group (x >>> t) n = numBits (x.toNat / 2 ^ t) n := by
  rw [group_eq_numBits, BitVec.toNat_ushiftRight, Nat.shiftRight_eq_div_pow]

theorem framedHeader_eq_framingBits (v0 : Word) (n : Nat) : framedHeader v0 n = framingBits v0 n := by
  rw [framedHeader, framingBits, group_eq_numBits, groupNat_eq_numBits n (by omega)]

/-! ## The item loop by formula -/

/-- An encoder whose state before item `k + 1` of a block is `st k`, and which codes that item as record `k`, appends
the records in order. -/
theorem encodeItems_eq_flatMap {σ : Type} {item : σ → Word → List Bool × σ} {v : Nat → Word} {st : Nat → σ}
    {record : Nat → List Bool} (h : ∀ k, item (st k) (v (k + 1)) = (record k, st (k + 1))) (n k : Nat) :
    encodeItems item (st k) ((List.range n).map fun i => v (k + i + 1)) =
      (List.range n).flatMap fun i => record (k + i) := by
  induction n generalizing k with
  | zero => rfl
  | succ n ih =>
    have ih := ih (k + 1)
    simp only [show ∀ i, k + 1 + i = k + (i + 1) by omega] at ih
    rw [List.range_succ_eq_map, List.map_cons, List.flatMap_cons, List.map_map, List.flatMap_map, encodeItems]
    simp only [Nat.add_zero, h k]
    exact congrArg (record k ++ ·) ih

/-- A body in the Gorilla framing, by formula: the framing, then the records of the items after the first. -/
theorem framedBody_eq {σ : Type} {item : σ → Word → List Bool × σ} {s : State} {st : Nat → σ}
    {record : Nat → List Bool} (hs : 1 ≤ s.slen.toNat)
    (h : ∀ k, item (st k) (s.srcAt (k + 1)) = (record k, st (k + 1))) :
    framedHeader (s.srcAt 0) (((List.range (s.slen.toNat - 1)).map fun k => s.srcAt (k + 1)).length + 1) ++
        encodeItems item (st 0) ((List.range (s.slen.toNat - 1)).map fun k => s.srcAt (k + 1)) =
      framingBits (s.srcAt 0) s.slen.toNat ++ (List.range (s.slen.toNat - 1)).flatMap record := by
  have hloop := encodeItems_eq_flatMap h (s.slen.toNat - 1) 0
  simp only [Nat.zero_add] at hloop
  rw [hloop, List.length_map, List.length_range, Nat.sub_add_cancel hs, framedHeader_eq_framingBits]

/-! ## Gorilla -/

/-- The row of R141 and R144 that a layout is. -/
def Layout.format : Layout → GorillaFormat
  | .g => formatG
  | .z => formatZ
  | .p => formatP

theorem Layout.format_lw (lay : Layout) : lay.format.lw = lay.lw := by cases lay <;> rfl

theorem Layout.format_field (lay : Layout) : lay.format.field = lay.field := by cases lay <;> rfl

theorem Layout.format_lead (lay : Layout) : lay.format.lead = lay.lead := by cases lay <;> rfl

/-- The 1 bits of `x` reach from bit `ctz x` to bit `63 - clz x`, both of them 1. -/
theorem ones_within_iff {x : Word} (hx : x ≠ 0) {lo hi : Nat} :
    (∀ i, x.getLsbD i = true → lo ≤ i ∧ i < hi) ↔ lo ≤ ctz x ∧ 63 - clz x < hi := by
  have hsum := clz_add_ctz hx
  constructor
  · intro h
    exact ⟨(h _ (getLsbD_at_ctz x (by omega))).1, (h _ (getLsbD_at_clz x (by omega))).2⟩
  · rintro ⟨hlo, hhi⟩ i hi1
    have h1 : ctz x ≤ i := by
      by_contra hlt
      rw [getLsbD_of_ctz x (Nat.lt_of_not_le hlt)] at hi1
      cases hi1
    have h2 : i < 64 - clz x := by
      by_contra hge
      rw [getLsbD_of_clz x (Nat.le_of_not_lt hge)] at hi1
      cases hi1
    omega

/-- `Contain` compares the leading and trailing zeros of `x` with those of the window, which is to say that every 1 bit
lies inside the window (R145). -/
theorem contains_iff {st : GorillaState} {x : Word} (hx : x ≠ 0) (hw : st.w ≠ 0) (h64 : st.pl + st.w ≤ 64) :
    st.contains (clz x) (ctz x) = true ↔ ∀ i, x.getLsbD i = true → st.pt ≤ i ∧ i < st.pt + st.w := by
  have hclz := clz_lt hx
  rw [ones_within_iff hx, GorillaState.contains, decide_eq_true_iff]
  unfold GorillaState.pt
  omega

/-- The reuse decision of the encoder is that of the format (R145). -/
theorem reuse_iff_reuses {lay : Layout} {st : GorillaState} {x : Word} (hx : x ≠ 0) (h64 : st.pl + st.w ≤ 64) :
    st.reuse lay (clz x) (ctz x) = true ↔ lay.format.reuses (st.pl, st.w) x := by
  have hcontains : st.contains (clz x) (ctz x) = true ↔ st.w ≠ 0 ∧ ∀ i, i < 64 → x.getLsbD i = true →
      64 - st.pl - st.w ≤ i ∧ i < 64 - st.pl := by
    by_cases hw : st.w = 0
    · simp [GorillaState.contains, hw]
    · rw [contains_iff hx hw h64, show st.pt + st.w = 64 - st.pl by unfold GorillaState.pt; omega]
      exact ⟨fun h => ⟨hw, fun i _ => h i⟩, fun h i hi => h.2 i (BitVec.lt_of_getLsbD hi) hi⟩
  cases lay with
  | g | z => simp [GorillaState.reuse, hcontains, GorillaFormat.reuses, Layout.format, formatG, formatZ]
  | p =>
    rw [GorillaState.reuse, Bool.and_eq_true, hcontains, decide_eq_true_iff]
    simp [GorillaFormat.reuses, Layout.format, formatP, GorillaState.pt, and_assoc]

/-- The window of a format lies within the pattern (R143). -/
theorem window_le (lay : Layout) (v : Nat → Word) (k : Nat) :
    (lay.format.window v k).1 + (lay.format.window v k).2 ≤ 64 := by
  induction k with
  | zero => exact Nat.zero_le _
  | succ k ih =>
    rw [GorillaFormat.window]
    split
    · exact ih
    · have hlead := lay.lead_le (clz (v k ^^^ v (k + 1)))
      have hclz := clz_le (v k ^^^ v (k + 1))
      simp only [GorillaFormat.newWindow, lay.format_lead, lay.format_field]
      omega

/-- The encoder's state before item `k + 1`, by the format. -/
def gorillaStateAt (lay : Layout) (v : Nat → Word) (k : Nat) : GorillaState :=
  { prev := v k, pl := (lay.format.window v k).1, w := (lay.format.window v k).2 }

theorem gorillaStateAt_succ_of_same {lay : Layout} {v : Nat → Word} {k : Nat}
    (h : lay.format.window v (k + 1) = lay.format.window v k) :
    gorillaStateAt lay v (k + 1) = { gorillaStateAt lay v k with prev := v (k + 1) } := by
  simp only [gorillaStateAt, h]

/-- The encoder's item is the format's record, and its next state has the format's next window (R142, R143). -/
theorem gorillaPutItem_eq_record (lay : Layout) (v : Nat → Word) (k : Nat) :
    gorillaPutItem lay (gorillaStateAt lay v k) (v (k + 1)) =
      (lay.format.record v k, gorillaStateAt lay v (k + 1)) := by
  have hprev : (gorillaStateAt lay v k).prev = v k := rfl
  have hlw : lay.lw ≤ 64 := by cases lay <;> decide
  unfold gorillaPutItem GorillaFormat.record
  simp only [hprev]
  by_cases hx : v k ^^^ v (k + 1) = 0
  · have hwin : lay.format.window v (k + 1) = lay.format.window v k := by
      rw [GorillaFormat.window, if_pos (.inl hx)]
    rw [if_pos hx, if_pos hx, gorillaStateAt_succ_of_same hwin]
  have hreuse := reuse_iff_reuses (lay := lay) (st := gorillaStateAt lay v k) hx (window_le lay v k)
  rw [if_neg hx, if_neg hx]
  by_cases hr : lay.format.reuses (lay.format.window v k) (v k ^^^ v (k + 1))
  · have hwin : lay.format.window v (k + 1) = lay.format.window v k := by
      rw [GorillaFormat.window, if_pos (.inr hr)]
    rw [if_pos hr, if_pos (hreuse.2 hr), gorillaStateAt_succ_of_same hwin, group_ushiftRight]
    rfl
  · have hwin : lay.format.window v (k + 1) = lay.format.newWindow (v k ^^^ v (k + 1)) := by
      rw [GorillaFormat.window, if_neg (not_or.2 ⟨hx, hr⟩)]
    rw [if_neg hr, if_neg fun h => hr (hreuse.1 h), group_ushiftRight, groupNat_eq_numBits _ hlw,
      groupNat_eq_numBits _ (by omega)]
    simp only [gorillaStateAt, hwin, GorillaFormat.newWindow, lay.format_lw, lay.format_field, lay.format_lead]

/-- The body of a layout by its format (R141 to R145). -/
theorem gorillaBody_eq (lay : Layout) {s : State} (hs : 1 ≤ s.slen.toNat) :
    gorillaBody lay s.srcItems = .ok (framingBits (s.srcAt 0) s.slen.toNat ++
      (List.range (s.slen.toNat - 1)).flatMap (lay.format.record s.srcAt)) := by
  rw [srcItems_eq_range hs]
  exact congrArg Except.ok (framedBody_eq (st := gorillaStateAt lay s.srcAt) hs (gorillaPutItem_eq_record lay s.srcAt))

/-- A compress command of the Gorilla framing whose body is given completes with it. -/
theorem framed_compresses {i : Instr} {s : State} {bits : List Bool} (hi : i ∈ compressCommands)
    (hmin : minItems i = 1) (hmax : maxItems i s.cfg.vcap = 16383) (hs : s.Inv) (h1 : 1 ≤ s.slen.toNat)
    (h2 : s.slen.toNat ≤ 16383) (hb : compressBody s.cfg.fpcLog2 i s.srcItems = .ok bits)
    (hfit : bits.length ≤ s.bufBits) : ∃ t, exec i s = .next t ∧ Compressed s t bits :=
  ⟨_, exec_compressCommand hi s, compress_ok hs (hmin ▸ h1) (hmax ▸ h2) hb hfit⟩

/-- Settles O44: the encoder's window is the format's after every record, so the records are the format's. -/
theorem gorillaRecords : Obligations.GorillaRecords := by
  refine ⟨fun s hs h1 h2 row hrow => ?_, fun st x hx hw h64 => contains_iff hx hw h64⟩
  simp only [List.mem_cons, List.not_mem_nil, or_false] at hrow
  intro bits hfit
  rcases hrow with rfl | rfl | rfl
  · exact framed_compresses (by decide) rfl rfl hs h1 h2 (gorillaBody_eq .g h1) hfit
  · exact framed_compresses (by decide) rfl rfl hs h1 h2 (gorillaBody_eq .z h1) hfit
  · exact framed_compresses (by decide) rfl rfl hs h1 h2 (gorillaBody_eq .p h1) hfit

end Sys2Proof.Machine
end

section
/-! SUPPORT. The PDFCM body by formula (R187, R201 to R204): the window, the predictor and the entry chosen. -/

namespace Sys2Proof.Machine

/-! ## The lowest entry of the largest score -/

/-- Among the scores 0 to `n - 1`, score `j` is the largest, and the first of the largest. -/
def LowestBest (score : Nat → Nat) (n j : Nat) : Prop :=
  j < n ∧ ∀ i, i < n → score i ≤ score j ∧ (i < j → score i < score j)

/-- What a scan of the scores below `k` has found: their largest, and its lowest index; (0, 0) while all are 0. -/
structure ScanFound (score : Nat → Nat) (k : Nat) (best : Nat × Nat) : Prop where
  le : ∀ i, i < k → score i ≤ best.2
  lt : ∀ i, i < best.1 → score i < best.2
  found : best = (0, 0) ∨ best.1 < k ∧ score best.1 = best.2

/-- The encoder's scan goes on with what it has found (R204). -/
theorem bestEntry_found {v : Word} {score : Nat → Nat} (ws : List Word) {k : Nat} {best : Nat × Nat}
    (hscore : ∀ i (h : i < ws.length), zb (v ^^^ ws[i]) = score (k + i)) (hb : ScanFound score k best) :
    ScanFound score (k + ws.length) (bestEntry v ws k best) := by
  induction ws generalizing k best with
  | nil => exact hb
  | cons w ws ih =>
    have hw : zb (v ^^^ w) = score k := hscore 0 (Nat.succ_pos _)
    have hrest : ∀ i (h : i < ws.length), zb (v ^^^ ws[i]) = score (k + 1 + i) := fun i h => by
      rw [show k + 1 + i = k + (i + 1) by omega]
      exact hscore (i + 1) (Nat.succ_lt_succ h)
    rw [bestEntry, List.length_cons, show k + (ws.length + 1) = k + 1 + ws.length by omega]
    refine ih hrest ?_
    obtain ⟨hle, hlt, hfound⟩ := hb
    split
    · next hgt =>
      rw [hw] at hgt ⊢
      have hbelow : ∀ i, i < k → score i < score k := fun i hi => lt_of_le_of_lt (hle i hi) hgt
      refine ⟨fun i hi => ?_, hbelow, .inr ⟨Nat.lt_succ_self k, rfl⟩⟩
      rcases Nat.lt_succ_iff_lt_or_eq.1 hi with hi | rfl
      · exact (hbelow i hi).le
      · exact le_refl _
    · next hgt =>
      rw [hw] at hgt
      refine ⟨fun i hi => ?_, hlt, hfound.imp_right fun h => ⟨Nat.lt_succ_of_lt h.1, h.2⟩⟩
      rcases Nat.lt_succ_iff_lt_or_eq.1 hi with hi | rfl
      · exact hle i hi
      · exact Nat.le_of_not_lt hgt

theorem ScanFound.lowestBest {score : Nat → Nat} {n : Nat} {best : Nat × Nat} (h : ScanFound score n best)
    (hn : 0 < n) : LowestBest score n best.1 := by
  obtain ⟨hle, hlt, rfl | ⟨hk, hscore⟩⟩ := h
  · exact ⟨hn, fun i hi => ⟨le_trans (hle i hi) (Nat.zero_le _), fun h => absurd h (Nat.not_lt_zero i)⟩⟩
  · rw [LowestBest, hscore]
    exact ⟨hk, fun i hi => ⟨hle i hi, hlt i⟩⟩

theorem entry_eq_getElem {st : PdfcmState} {k : Nat} (h : k < st.window.length) : st.entry k = st.window[k] := by
  simp [PdfcmState.entry, h]

/-- The encoder chooses the lowest entry with the most zero bytes in its XOR with the value (R204). -/
theorem best_lowestBest {st : PdfcmState} (hw : st.window.length = 8) (v : Word) :
    LowestBest (fun k => zb (v ^^^ st.entry k)) 8 (st.best v) := by
  have hstart : ScanFound (fun k => zb (v ^^^ st.entry k)) 0 (0, 0) :=
    ⟨fun i hi => absurd hi (Nat.not_lt_zero i), fun i hi => absurd hi (Nat.not_lt_zero i), .inl rfl⟩
  have hscan := bestEntry_found (v := v) st.window (fun i h => by rw [Nat.zero_add, entry_eq_getElem h]) hstart
  rw [Nat.zero_add, hw] at hscan
  exact hscan.lowestBest (by omega)

/-- The entry of the format is the lowest of the best (R204). -/
theorem chosenEntry_eq {v : Nat → Word} {k j : Nat}
    (h : LowestBest (fun i => zb (v k ^^^ windowEntry v k i)) 8 j) : chosenEntry v k = j := by
  obtain ⟨hj, hbest⟩ := h
  have hfind : ((List.range 8).find? fun j =>
      (List.range 8).all fun i => zb (v k ^^^ windowEntry v k i) ≤ zb (v k ^^^ windowEntry v k j)) = some j := by
    rw [List.find?_range_eq_some]
    refine ⟨?_, List.mem_range.2 hj, fun i hi => ?_⟩
    · simpa using fun i hi => (hbest i hi).1
    · have hlt := (hbest i (lt_trans hi hj)).2 hi
      simpa using ⟨j, hj, hlt⟩
  rw [chosenEntry, hfind, Option.getD_some]

/-! ## The DFCM predictor by formula (R187) -/

/-- The predictor is the one of the format before item `k`. -/
structure Dfcm.Follows (p : Dfcm) (size : Nat) (v : Nat → Word) (k : Nat) : Prop where
  last : p.last = itemBefore v k
  index : p.dh = (dfcmBefore size v k).2
  table : ∀ a, tableGet p.table a = (dfcmBefore size v k).1 a

theorem Dfcm.init_follows (size : Nat) (v : Nat → Word) : Dfcm.init.Follows size v 0 := ⟨rfl, rfl, fun _ => rfl⟩

theorem tableGet_wordSet (t : List (Nat × Word)) (i : Nat) (d : Word) (a : Nat) :
    tableGet (wordSet t i d) a = if a = i then d else tableGet t a := by
  unfold tableGet
  rw [wordGet_wordSet]
  split <;> rfl

theorem Dfcm.Follows.update {p : Dfcm} {log2 : Nat} {v : Nat → Word} {k : Nat} (h : p.Follows (2 ^ log2) v k) :
    (p.update log2 (v k)).Follows (2 ^ log2) v (k + 1) := by
  obtain ⟨hlast, hindex, htable⟩ := h
  refine ⟨by simp [Dfcm.update, itemBefore], ?_, fun a => ?_⟩
  · simp only [Dfcm.update, dfcmBefore, Nat.and_two_pow_sub_one_eq_mod, Nat.shiftLeft_eq, BitVec.toNat_ushiftRight,
      Nat.shiftRight_eq_div_pow, hlast, hindex]
  · simp only [Dfcm.update, dfcmBefore, tableGet_wordSet, hlast, hindex, htable]

theorem Dfcm.Follows.predict {p : Dfcm} {size : Nat} {v : Nat → Word} {k : Nat} (h : p.Follows size v k) :
    p.predict = dfcmSays size v k := by
  rw [Dfcm.predict, h.table, h.index, h.last, dfcmSays]

/-! ## The state by formula -/

/-- The encoder's state before item `k`: all zero, then every item pushed (R202, R203). -/
def pdfcmBefore (log2 : Nat) (v : Nat → Word) : Nat → PdfcmState
  | 0 => { prev := 0, window := List.replicate 8 0, dfcm := Dfcm.init }
  | k + 1 => (pdfcmBefore log2 v k).push log2 (v k)

theorem pdfcmBefore_window_length (log2 : Nat) (v : Nat → Word) (k : Nat) :
    (pdfcmBefore log2 v k).window.length = 8 := by
  induction k with
  | zero => rfl
  | succ k ih => exact push_window ih log2 (v k)

/-- `Push` puts the value in front and moves the entries one place back (R202). -/
theorem push_entry {st : PdfcmState} (log2 : Nat) (v : Word) {j : Nat} (hj : j < 8) :
    (st.push log2 v).entry j = if j = 0 then v else st.entry (j - 1) := by
  cases j with
  | zero => rfl
  | succ j =>
    have h7 : j < 7 := by omega
    simp [PdfcmState.entry, PdfcmState.push, h7]

/-- Window entry `j` is the item `j + 1` places back (R202). -/
theorem pdfcmBefore_entry (log2 : Nat) (v : Nat → Word) (k : Nat) {j : Nat} (hj : j < 8) :
    (pdfcmBefore log2 v k).entry j = windowEntry v k j := by
  induction k generalizing j with
  | zero => interval_cases j <;> rfl
  | succ k ih =>
    rw [pdfcmBefore, push_entry log2 _ hj]
    cases j with
    | zero => rfl
    | succ j =>
      rw [if_neg (Nat.succ_ne_zero j), Nat.add_sub_cancel, ih (by omega), windowEntry, windowEntry]
      simp only [Nat.add_lt_add_iff_right, Nat.add_sub_cancel, Nat.sub_sub, Nat.add_comm 1 j]

theorem pdfcmBefore_dfcm (log2 : Nat) (v : Nat → Word) (k : Nat) :
    (pdfcmBefore log2 v k).dfcm.Follows (2 ^ log2) v k := by
  induction k with
  | zero => exact Dfcm.init_follows _ v
  | succ k ih => exact ih.update

/-- The entry chosen for item `k` is the format's (R204). -/
theorem pdfcmBefore_best (log2 : Nat) (v : Nat → Word) (k : Nat) :
    (pdfcmBefore log2 v k).best (v k) = chosenEntry v k := by
  have hbest := best_lowestBest (pdfcmBefore_window_length log2 v k) (v k)
  obtain ⟨hlt, hall⟩ := hbest
  simp only [pdfcmBefore_entry log2 v k hlt] at hall
  refine (chosenEntry_eq ⟨hlt, fun i hi => ?_⟩).symm
  have := hall i hi
  rwa [pdfcmBefore_entry log2 v k hi] at this

theorem chosenEntry_lt (v : Nat → Word) (k : Nat) : chosenEntry v k < 8 := by
  rw [← pdfcmBefore_best 0 v k]
  exact (best_lowestBest (pdfcmBefore_window_length 0 v k) (v k)).1

/-! ## The records (R201) -/

theorem residualBits_eq_trimmedBits (x : Word) : residualBits x = trimmedBits x := by
  have hl : (trim x).1 = if x = 0 then 7 else lzb x := by unfold trim; split <;> rfl
  have ht : (trim x).2 = if x = 0 then 0 else tzb x := by unfold trim; split <;> rfl
  unfold residualBits trimmedBits
  simp only [hl, ht, group_ushiftRight, groupNat_eq_numBits _ (show 3 ≤ 64 by omega)]

/-- The encoder's item is the format's record (R201, R204). -/
theorem pdfcmPutItem_eq_record (log2 : Nat) (v : Nat → Word) (k : Nat) :
    pdfcmPutItem log2 (pdfcmBefore log2 v (k + 1)) (v (k + 1)) =
      (pdfcmRecord (2 ^ log2) v k, pdfcmBefore log2 v (k + 2)) := by
  have hprev : (pdfcmBefore log2 v (k + 1)).prev = v k := rfl
  unfold pdfcmPutItem pdfcmRecord
  simp only [pdfcmBefore_best, pdfcmBefore_entry log2 v (k + 1) (chosenEntry_lt v (k + 1)),
    (pdfcmBefore_dfcm log2 v (k + 1)).predict, hprev, residualBits_eq_trimmedBits, group_eq_numBits,
    groupNat_eq_numBits _ (show 3 ≤ 64 by omega), Nat.max_eq_zero_iff, ge_iff_le]
  rfl

/-- The body of PDFCM by formula (R201 to R204). -/
theorem pdfcmBody_eq (log2 : Nat) {s : State} (hs : 1 ≤ s.slen.toNat) :
    pdfcmBody log2 s.srcItems = .ok (framingBits (s.srcAt 0) s.slen.toNat ++
      (List.range (s.slen.toNat - 1)).flatMap (pdfcmRecord (2 ^ log2) s.srcAt)) := by
  rw [srcItems_eq_range hs]
  exact congrArg Except.ok (framedBody_eq (st := fun k => pdfcmBefore log2 s.srcAt (k + 1)) hs
    (pdfcmPutItem_eq_record log2 s.srcAt))

/-- Settles O47: the encoder's window, predictor and choice are the format's before every item. -/
theorem pdfcmRecords : Obligations.PdfcmRecords :=
  ⟨fun _ hs h1 h2 hfit => framed_compresses (i := .pdfcmC) (by decide) rfl rfl hs h1 h2 (pdfcmBody_eq _ h1) hfit,
    fun _ v hw => best_lowestBest hw v⟩

end Sys2Proof.Machine
end

section
/-! SUPPORT. What a command can do, said once, and the two statements that follow by going through it: the invariant of R37
and the registers a command keeps. -/

namespace Sys2Proof.Machine

/-! ## What a command can do -/

/-- The commands that append to the stream (R127, R128, R288). -/
def Appends (i : Instr) : Prop := (∃ b, i = .appendbit b) ∨ (∃ n, i = .appendbits n) ∨ i = .varput

/-- The commands that read the stream into `VAL` (R131, R132, R289). -/
def ReadsIntoVal (i : Instr) : Prop := i = .readbit ∨ (∃ n, i = .readbits n) ∨ i = .varget

/-- `Leads s i t`: command `i` can take state `s` to `t`, with what its checks have made sure of. -/
inductive Leads (s : State) : Instr → State → Prop
  | nop : Leads s .nop s
  | bsresetEmpty : s.blen = 0 → Leads s .bsreset { s with rpos := 0 }
  | bsreset : s.blen ≠ 0 → Leads s .bsreset (emptyStream s)
  | append {i : Instr} {bs : List Bool} {t : State} : Appends i → appendBits bs s = .ok t → Leads s i t
  | finishAligned : s.blen.toNat % 8 = 0 → Leads s .finish s
  | finish : s.blen.toNat % 8 ≠ 0 → Leads s .finish (forgetTail (flush s))
  | rewind : Leads s .rewind { s with rpos := 0 }
  | read {i : Instr} {r : Word × Nat} : ReadsIntoVal i → r.2 ≤ s.blen.toNat → Leads s i (readInto r s)
  | raisePrimitive {i : Instr} (c : Cause) : Appends i ∨ ReadsIntoVal i → Leads s i (raise .primitive c i.opc s)
  | compress {i : Instr} {bits : List Bool} {p : State} : i ∈ compressCommands →
      putBits bits (emptyStream s) = .ok p → Leads s i (compressEnd p)
  | raiseCompress {i : Instr} (c : Cause) : i ∈ compressCommands → Leads s i (raise .compress c i.opc s)
  | decompress {i : Instr} {r : List Word × Nat} : i ∈ decompressCommands → ReadyToDecode s → WithinStream s r →
      Leads s i (emitAll r.1 r.2 s)
  | raiseDecompress {i : Instr} (c : Cause) : i ∈ decompressCommands → Leads s i (raise .decompress c i.opc s)
  | stats : Leads s .stats (statsPass s)
  | classify : Leads s .classify { statsPass s with tag := (select (statsPass s)).code }
  | clrerr : Leads s .clrerr (clearError s)
  | sreset : Leads s .sreset (resetRegisters s)

/-- A compress command completes with CompressEnd over the puts of its body, or it raises (R13 to R15, R306). -/
theorem compress_leads {i : Instr} (hi : i ∈ compressCommands) (minN maxN : Nat)
    (body : List Word → Except Cause (List Bool)) (s : State) : Leads s i (compress i.opc minN maxN body s) := by
  cases hrun : compressRun minN maxN body s with
  | error c => rw [compress_error hrun]; exact .raiseCompress c hi
  | ok t =>
    obtain ⟨-, -, bits, -, -, p, hp, rfl⟩ := compressRun_eq_ok.1 hrun
    have heq : compress i.opc minN maxN body s = compressEnd p := by unfold compress; rw [hrun]
    rw [heq]
    exact .compress hi hp

/-- A decompress command completes with the items its reader gives, or it raises (R16 to R18, R307). -/
theorem decompress_leads {i : Instr} (hi : i ∈ decompressCommands) (s : State) :
    Leads s i (decompress i.opc (decompressBody i) s) := by
  unfold decompress
  split
  · next r hr =>
    obtain ⟨⟨⟩, hcheck, hbody⟩ := bind_eq_ok.1 hr
    have hready : ReadyToDecode s := decompressCheck_eq_ok.1 hcheck
    exact .decompress hi hready (decompressBody_within hi hready.2.1 hbody)
  · exact .raiseDecompress _ hi

/-- An append completes, or raises before it writes a bit (R305). -/
theorem primitive_leads_of_append {i : Instr} {effect : State → Except Cause State} {s : State} (hi : Appends i)
    (h : ∀ t, effect s = .ok t → ∃ bs, appendBits bs s = .ok t) : Leads s i (primitive i.opc effect s) := by
  cases he : effect s with
  | error c => rw [primitive_error he]; exact .raisePrimitive c (.inl hi)
  | ok t =>
    obtain ⟨bs, hbs⟩ := h t he
    rw [primitive_ok he]
    exact .append hi hbs

/-- A read completes with a cursor within the stream, or raises (R305). -/
theorem primitive_leads_of_read {i : Instr} {effect : State → Except Cause State} {s : State} (hi : ReadsIntoVal i)
    (h : ∀ t, effect s = .ok t → ∃ r, r.2 ≤ s.blen.toNat ∧ t = readInto r s) : Leads s i (primitive i.opc effect s) := by
  cases he : effect s with
  | error c => rw [primitive_error he]; exact .raisePrimitive c (.inr hi)
  | ok t =>
    obtain ⟨r, hr, rfl⟩ := h t he
    rw [primitive_ok he]
    exact .read hi hr

/-- Every command does one of the things `Leads` lists. -/
theorem exec_leads {i : Instr} {s t : State} (h : exec i s = .next t) : Leads s i t := by
  by_cases hc : i ∈ compressCommands
  · rw [exec_compressCommand hc] at h
    cases h
    exact compress_leads hc _ _ _ s
  by_cases hd : i ∈ decompressCommands
  · rw [exec_decompressCommand hd] at h
    cases h
    exact decompress_leads hd s
  cases i with
  | nop => cases h; exact .nop
  | bsreset =>
    cases h
    split
    · next h0 => exact .bsresetEmpty h0
    · next h0 => exact .bsreset h0
  | rewind => cases h; exact .rewind
  | finish =>
    cases h
    split
    · next h8 => exact .finishAligned h8
    · next h8 => exact .finish h8
  | appendbit b =>
    cases h
    exact primitive_leads_of_append (.inl ⟨b, rfl⟩) fun t ht => ⟨_, ht⟩
  | appendbits n =>
    cases h
    refine primitive_leads_of_append (.inr (.inl ⟨n, rfl⟩)) fun t ht => ?_
    obtain ⟨-, -, ht⟩ := bind_eq_ok.1 ht
    exact ⟨_, ht⟩
  | varput =>
    cases h
    refine primitive_leads_of_append (.inr (.inr rfl)) fun t ht => ?_
    split at ht
    · cases ht
    · exact ⟨_, ht⟩
  | readbit =>
    cases h
    refine primitive_leads_of_read (.inl rfl) fun t ht => ?_
    obtain ⟨r, hr, ht⟩ := bind_eq_ok.1 ht
    exact ⟨_, getBit_cursor hr, (Except.ok.inj ht).symm⟩
  | readbits n =>
    cases h
    refine primitive_leads_of_read (.inr (.inl ⟨n, rfl⟩)) fun t ht => ?_
    obtain ⟨-, -, ht⟩ := bind_eq_ok.1 ht
    obtain ⟨r, hr, ht⟩ := bind_eq_ok.1 ht
    exact ⟨_, getBits_cursor hr, (Except.ok.inj ht).symm⟩
  | varget =>
    cases h
    refine primitive_leads_of_read (.inr (.inr rfl)) fun t ht => ?_
    split at ht
    · cases ht
    · obtain ⟨r, hr, ht⟩ := bind_eq_ok.1 ht
      exact ⟨_, (varGet_cursor hr).1, (Except.ok.inj ht).symm⟩
  | stats => cases h; exact .stats
  | classify => cases h; exact .classify
  | clrerr => cases h; exact .clrerr
  | sreset => cases h; exact .sreset
  | _ => simp [mem_compressCommands, mem_decompressCommands] at hc hd

/-! ## The updates keep the invariant -/

section
variable {s : State}

/-- An update of the stream: the cursors in order and within `BUF`, which stays canonical. -/
theorem State.Inv.withStream (h : s.Inv) {buf : ByteMemory} {blen rpos : Len} {fresh : Nat}
    (hr : rpos.toNat ≤ blen.toNat) (hb : blen.toNat ≤ s.bufBits) (hbuf : buf.wf s.cfg.bufCap fresh)
    (hf : s.fresh ≤ fresh) : ({ s with buf := buf, blen := blen, rpos := rpos, fresh := fresh } : State).Inv :=
  { h with
    rpos_le := hr
    blen_le := hb
    buf_wf := hbuf
    src_wf := WordMemory.wf_mono h.src_wf hf
    dst_wf := WordMemory.wf_mono h.dst_wf hf }

/-- An update of `DST`: `DLEN` within it, and it stays canonical. -/
theorem State.Inv.withDst (h : s.Inv) {dst : WordMemory} {dlen : Len} {fresh : Nat} (hd : dlen.toNat ≤ s.cfg.vcap)
    (hdst : dst.wf s.cfg.vcap fresh) (hf : s.fresh ≤ fresh) :
    ({ s with dst := dst, dlen := dlen, fresh := fresh } : State).Inv :=
  { h with
    dlen_le := hd
    buf_wf := ByteMemory.wf_mono h.buf_wf hf
    src_wf := WordMemory.wf_mono h.src_wf hf
    dst_wf := hdst }

/-- `FIRST`, `COUNT` and `VAL` are in no clause of the invariant. -/
theorem State.Inv.withArguments (h : s.Inv) (first val : Word) (count : Len) :
    ({ s with first := first, count := count, val := val } : State).Inv := { h with }

theorem State.Inv.withRpos (h : s.Inv) {rpos : Len} (hr : rpos.toNat ≤ s.blen.toNat) :
    ({ s with rpos := rpos } : State).Inv := { h with rpos_le := hr }

/-- Recording an error (R304) meets what R32 and R37 say of `STATUS`. -/
theorem State.Inv.withError (h : s.Inv) (c : Cause) (opc : BitVec 8) :
    ({ s with status := statusWord c opc } : State).Inv :=
  { h with
    err_le := by
      show ((statusWord c opc).extractLsb' 0 4).toNat ≤ 5
      rw [statusWord_err]
      cases c <;> decide
    status_zero := fun h0 => by
      have h0 : (statusWord c opc).extractLsb' 0 4 = 0 := h0
      rw [statusWord_err] at h0
      cases c <;> exact absurd h0 (by decide)
    status_reserved := statusWord_reserved c opc }

theorem clearError_inv (h : s.Inv) : (clearError s).Inv :=
  { h with err_le := Nat.zero_le _, status_zero := fun _ => rfl, status_reserved := BitVec.zero_and }

theorem forgetTail_inv (h : s.Inv) : (forgetTail s).Inv :=
  h.withStream h.rpos_le h.blen_le (forget_wf h.buf_wf h.blen_le) (Nat.le_succ _)

theorem emptyStream_inv (h : s.Inv) : (emptyStream s).Inv :=
  h.withStream (le_refl _) (Nat.zero_le _) (forget_wf h.buf_wf (Nat.zero_le _)) (Nat.le_succ _)

theorem rollback_inv (h : s.Inv) (kind : CommandKind) : (rollback kind s).Inv := by
  cases kind with
  | primitive => exact forgetTail_inv h
  | compress => exact emptyStream_inv h
  | decompress =>
    exact (h.withRpos (rpos := 0) (Nat.zero_le _)).withDst h.dlen_le (WordMemory.forget_wf h.dst_wf _) (Nat.le_succ _)
  | illegal => exact h

theorem raise_inv (h : s.Inv) (kind : CommandKind) (c : Cause) (opc : BitVec 8) : (raise kind c opc s).Inv :=
  (rollback_inv h kind).withError c opc

/-- Bits that fit, appended and counted in. -/
theorem State.Inv.withBits (h : s.Inv) {bs : List Bool} (hfit : s.blen.toNat + bs.length ≤ s.bufBits) :
    ({ s with buf := s.buf.setBits s.blen.toNat bs, blen := BitVec.ofNat 32 (s.blen.toNat + bs.length) } : State).Inv := by
  have hcap : s.bufBits < 2 ^ 32 := h.cfg.2.1
  have hlen := ofNat_toNat_len (n := s.blen.toNat + bs.length) (by omega)
  have hr := h.rpos_le
  exact h.withStream (by omega) (by omega) (setBits_wf bs h.buf_wf hfit) (le_refl _)

theorem putBits_inv (h : s.Inv) {bs : List Bool} {t : State} (ht : putBits bs s = .ok t) : t.Inv := by
  obtain ⟨hfit, rfl⟩ := putBits_eq_ok.1 ht
  exact h.withBits hfit

theorem appendBits_inv (h : s.Inv) {bs : List Bool} {t : State} (ht : appendBits bs s = .ok t) : t.Inv := by
  obtain ⟨hfit, rfl⟩ := appendBits_eq_ok.1 ht
  exact forgetTail_inv (h.withBits hfit)

theorem flush_inv (h : s.Inv) : (flush s).Inv := h.withBits (pad_le h.blen_le)

theorem compressEnd_inv (h : s.Inv) : (compressEnd s).Inv := (flush_inv h).withArguments _ _ _

theorem readInto_inv (h : s.Inv) {r : Word × Nat} (hr : r.2 ≤ s.blen.toNat) : (readInto r s).Inv := by
  have hpos := ofNat_toNat_len (lt_of_le_of_lt hr s.blen.isLt)
  exact (h.withRpos (hpos.trans_le hr)).withArguments _ _ _

/-- The items a ready decompress command emits fit `DST` (R16, R17). -/
theorem emitAll_inv (h : s.Inv) {r : List Word × Nat} (hready : ReadyToDecode s) (hr : WithinStream s r) :
    (emitAll r.1 r.2 s).Inv := by
  obtain ⟨hcount, hpos⟩ := hr
  obtain ⟨-, -, hroom⟩ := hready
  have hcap := h.cfg.2.2.2
  have hfit : s.dlen.toNat + r.1.length ≤ s.cfg.vcap := by omega
  have hrpos := ofNat_toNat_len (lt_of_le_of_lt hpos s.blen.isLt)
  have hdlen := ofNat_toNat_len (n := s.dlen.toNat + r.1.length) (by omega)
  exact (h.withRpos (hrpos.trans_le hpos)).withDst (hdlen.trans_le hfit)
    (WordMemory.forget_wf (writeAll_wf r.1 h.dst_wf hfit) _) (Nat.le_succ _)

theorem pairXors_length (vs : List Word) : (pairXors vs).length = vs.length - 1 := by
  fun_induction pairXors vs with
  | case1 v0 v1 vs ih => simp [ih]
  | case2 vs h =>
    match vs with
    | [] => rfl
    | [_] => rfl
    | v0 :: v1 :: rest => exact absurd rfl (h v0 v1 rest)

theorem repeatsOf_le (vs : List Word) : repeatsOf vs ≤ vs.length - 1 :=
  pairXors_length vs ▸ List.countP_le_length

/-- Of the pairs of a block the repeats and the others together are all (R37). -/
theorem statsPass_inv (h : s.Inv) : (statsPass s).Inv := by
  have hrep := repeatsOf_le s.srcItems
  rw [srcItems_length] at hrep
  have hslen := s.slen.isLt
  exact { h with
    pairs_eq := by
      show (BitVec.ofNat 32 (s.slen.toNat - 1 - repeatsOf s.srcItems)).toNat +
        (BitVec.ofNat 32 (repeatsOf s.srcItems)).toNat = (BitVec.ofNat 32 (s.slen.toNat - 1)).toNat
      rw [ofNat_toNat_len (by omega), ofNat_toNat_len (by omega), ofNat_toNat_len (by omega)]
      omega }

/-- The codes 6 and 7 of `TAG` are reserved (R276). -/
theorem MarshalType.code_le (m : MarshalType) : m.code.toNat ≤ 5 := by cases m <;> decide

theorem resetRegisters_inv (h : s.Inv) : (resetRegisters s).Inv :=
  { clearError_inv h with
    rpos_le := le_refl _
    blen_le := Nat.zero_le _
    slen_le := Nat.zero_le _
    dlen_le := Nat.zero_le _
    tag_le := Nat.zero_le _
    pairs_eq := rfl }

theorem hardwareReset_inv (h : s.Inv) : (hardwareReset s).Inv :=
  { resetRegisters_inv h with
    buf_wf := forget_wf h.buf_wf (Nat.zero_le _)
    src_wf := WordMemory.forget_wf h.src_wf 0
    dst_wf := WordMemory.forget_wf h.dst_wf 0 }

end

/-! ## The invariant (R37) -/

theorem reset_inv : State.reset.Inv := by constructor <;> decide

theorem Leads.inv {s t : State} {i : Instr} (hs : s.Inv) (h : Leads s i t) : t.Inv := by
  cases h with
  | nop | finishAligned => exact hs
  | bsresetEmpty | rewind => exact hs.withRpos (Nat.zero_le _)
  | bsreset => exact emptyStream_inv hs
  | append _ happend => exact appendBits_inv hs happend
  | finish => exact forgetTail_inv (flush_inv hs)
  | read _ hr => exact readInto_inv hs hr
  | raisePrimitive | raiseCompress | raiseDecompress => exact raise_inv hs _ _ _
  | compress _ hput => exact compressEnd_inv (putBits_inv (emptyStream_inv hs) hput)
  | decompress _ hready hr => exact emitAll_inv hs hready hr
  | stats => exact statsPass_inv hs
  | classify => exact { statsPass_inv hs with tag_le := MarshalType.code_le _ }
  | clrerr => exact clearError_inv hs
  | sreset => exact resetRegisters_inv hs

theorem commandWrite_inv {s t : State} {w : CmdWord} (hs : s.Inv) (h : commandWrite w s = .next t) : t.Inv := by
  unfold commandWrite at h
  split at h
  · cases h; exact hs
  · split at h
    · cases h; exact raise_inv hs _ _ _
    · cases h; exact raise_inv hs _ _ _
    · exact (exec_leads h).inv hs

theorem writeByteLen_inv {s : State} (hs : s.Inv) (v : Len) : (writeByteLen v s).Inv := by
  unfold writeByteLen
  split
  · next hv =>
    have hcap := hs.cfg.2.1
    have hblen := ofNat_toNat_len (n := 8 * v.toNat) (by omega)
    exact hs.withStream (Nat.zero_le _) (by show _ ≤ 8 * s.cfg.bufCap; omega) hs.buf_wf (le_refl _)
  · exact hs

theorem writeRegister_inv {s : State} (hs : s.Inv) (num : Nat) (v : Word) : (writeRegister num v s).Inv := by
  unfold writeRegister
  split
  · exact hs.withArguments _ _ _
  · exact hs.withArguments _ _ _
  · exact hs.withArguments _ _ _
  · exact writeByteLen_inv hs _
  · unfold writeSlen
    split
    · next hv => exact { hs with slen_le := hv }
    · exact hs
  · unfold writeDlen
    split
    · next hv => exact { hs with dlen_le := hv }
    · exact hs
  · exact hs

theorem hostAction_inv {s t : State} {e : HostEvent} (hs : s.Inv) (h : hostAction e s = .next t) : t.Inv := by
  cases e with
  | writeReg num v =>
    simp only [hostAction] at h
    split at h
    · exact commandWrite_inv hs h
    · cases h; exact writeRegister_inv hs num v
  | readReg num => cases h; exact { hs with }
  | writeBuf i b =>
    simp only [hostAction] at h
    split at h <;> cases h
    next hi => exact { hs with buf_wf := setByte_wf hs.buf_wf hi b }
  | writeSrc i w =>
    simp only [hostAction] at h
    split at h <;> cases h
    next hi => exact { hs with src_wf := write_wf hs.src_wf hi w }
  | writeDst i w =>
    simp only [hostAction] at h
    split at h <;> cases h
    next hi => exact { hs with dst_wf := write_wf hs.dst_wf hi w }
  | readBuf i | readSrc i | readDst i =>
    simp only [hostAction] at h
    split at h <;> cases h
    exact { hs with }
  | hwReset => cases h; exact hardwareReset_inv hs

/-- A step takes the oldest waiting action off the list and performs it (R71). -/
theorem step_inv {s t : State} (hs : s.Inv) (h : step s = .next t) : t.Inv := by
  unfold step nextEvent at h
  split at h
  · cases h; exact hs
  · next e rest _ => exact hostAction_inv (s := { s with inputs := rest }) { hs with } h

/-- Settles O11: every update a command or a host access is made of keeps the invariant. -/
theorem stepKeepsInv : Obligations.StepKeepsInv :=
  ⟨reset_inv, fun _ _ => step_inv, fun _ _ _ => commandWrite_inv, fun _ _ _ => hostAction_inv⟩

/-! ## Which registers a command keeps -/

/-- Settles O13: each thing a command can do leaves the registers its rule does not name. -/
theorem registersKept : Obligations.RegistersKept := by
  intro i s t h hsreset
  cases exec_leads h with
  | sreset => exact absurd rfl hsreset
  | nop | bsresetEmpty | bsreset | finishAligned | finish | rewind | stats | classify | clrerr => simp
  | append hi happend =>
    obtain ⟨-, rfl⟩ := appendBits_eq_ok.1 happend
    rcases hi with ⟨b, rfl⟩ | ⟨n, rfl⟩ | rfl <;> simp
  | read hi => rcases hi with rfl | ⟨n, rfl⟩ | rfl <;> simp
  | raisePrimitive => simp
  | compress hi hput =>
    obtain ⟨-, rfl⟩ := putBits_eq_ok.1 hput
    simp [hi]
  | raiseCompress _ hi => simp [hi]
  | decompress hi => simp [hi]
  | raiseDecompress _ hi => simp [hi]

end Sys2Proof.Machine
end

section
/-! SUPPORT. The record of an error, hardware reset, the commands that append or move the cursors, and the host's
registers, through the laws of the shared operations. -/

namespace Sys2Proof.Machine

/-! ## The record of an error -/

/-- `STATUS` by arithmetic: the opcode from bit 16 on, the sub-code from bit 8 on, the class at the bottom (R32). -/
theorem statusWord_eq_or (c : Cause) (opc : BitVec 8) :
    statusWord c opc = opc.setWidth 32 <<< 16 ||| BitVec.ofNat 32 (256 * c.sub + c.cls) := by
  cases c <;> (simp only [statusWord, Cause.sub, Cause.cls]; revert opc; decide)

/-- Settles O7: the fields of the recorded word, and the numbers of R301 and R302 cause by cause. -/
theorem raiseRecords : Obligations.RaiseRecords := by
  intro opc s kind c
  refine ⟨⟨rfl, ?_, statusWord_eopc c opc, statusWord_sub c opc, statusWord_reserved c opc⟩, ?_⟩
  · simpa [State.faulted] using raise_faulted kind c opc s
  · rw [statusWord_eq_or]
    cases c <;> rfl

/-! ## Command words -/

/-- While the block is not faulted a word that decodes runs its command (R102). -/
theorem commandWrite_of_decode {s : State} {w : CmdWord} {i : Instr} (hs : s.err = 0) (h : decode w = .ok i) :
    commandWrite w s = exec i s := by
  simp [commandWrite, State.faulted, hs, h]

/-- Settles O10: hardware reset forgets every cell of the memories and leaves `STATUS` 0, so every word passes the gate. -/
theorem resetValues : Obligations.ResetValues := by
  intro s
  have hbytes : readRegister 0x06 (hardwareReset s) = BitVec.ofNat 64 (((0 : Len).toNat + 7) / 8) := rfl
  refine ⟨hardwareReset s, rfl,
    ⟨rfl, rfl, rfl, rfl, rfl, rfl, rfl, rfl, hbytes, rfl, rfl, rfl, rfl, rfl, rfl⟩, ?_, ?_, ?_, ?_⟩
  · exact fun k => bit_forget s.buf 0 s.fresh k
  · exact fun k => read_forget Config.freeSrc s.src 0 s.fresh k
  · exact fun k => read_forget Config.freeDst s.dst 0 s.fresh k
  · exact fun w i h => commandWrite_of_decode rfl h

/-- Settles O15: each command by the branches of its rule, and its word by the gate. -/
theorem streamControl : Obligations.StreamControl := by
  intro s
  refine ⟨⟨rfl, ?_⟩, ⟨_, rfl, fun hs => commandWrite_of_decode (i := .bsreset) hs rfl, ?_⟩, rfl,
    fun hs => commandWrite_of_decode (i := .rewind) hs rfl⟩
  · have hdecode : decode 0x00000000#32 = .ok .nop := rfl
    simp only [commandWrite, hdecode]
    split <;> rfl
  · by_cases h0 : s.blen = 0
    · rw [if_pos h0]
      refine ⟨?_, fun _ => rfl, fun _ hr => ?_, fun hne => absurd h0 hne⟩
      · rw [← h0]
      · rw [← hr]
    · rw [if_neg h0]
      exact ⟨rfl, fun h => absurd h h0, fun h => absurd h h0, fun _ k => bit_forget s.buf 0 s.fresh k⟩

/-! ## The appends -/

/-- Bits that fit are appended (R120, R121). -/
theorem appendBits_appended {s : State} {bs : List Bool} (hcfg : s.cfg.wf)
    (hfit : s.blen.toNat + bs.length ≤ s.bufBits) : ∃ t, appendBits bs s = .ok t ∧ Appended s t bs := by
  have hcap : s.bufBits < 2 ^ 32 := hcfg.2.1
  exact ⟨_, appendBits_eq_ok.2 ⟨hfit, rfl⟩, forgetTail_appended (by omega)⟩

/-- Settles O17: the one bit fits. -/
theorem appendBit : Obligations.AppendBit := by
  intro s b hcfg hfit
  obtain ⟨t, ht, happended⟩ := appendBits_appended (bs := [b]) hcfg hfit
  exact ⟨t, congrArg Host.Outcome.next (primitive_ok ht), happended⟩

/-- A group by formula, its most significant bit first (R62). -/
theorem group_eq_range (v : Word) (n : Nat) : group v n = (List.range n).map fun j => v.getLsbD (n - 1 - j) :=
  List.ext_getElem (by simp) fun j h _ => by simp [group_getElem v n j h]

theorem checkCount_ok {n : Nat} (h1 : 1 ≤ n) (h64 : n ≤ 64) : checkCount n = .ok () := if_neg (by omega)

/-- Settles O18: the count passes its check and the group fits. (The plain name `appendBits` is an operation of the model.) -/
theorem appendBits_holds : Obligations.AppendBits := by
  intro s n hcfg h1 h64 hfit
  obtain ⟨t, ht, happended⟩ := appendBits_appended (bs := group s.val n) hcfg (by rwa [group_length])
  refine ⟨t, congrArg Host.Outcome.next (primitive_ok ?_), group_eq_range s.val n ▸ happended⟩
  rw [checkCount_ok h1 h64, ok_bind, ht]

/-- `FINISH` at a byte boundary does nothing (R124). -/
theorem exec_finish_aligned {s : State} (h : s.blen.toNat % 8 = 0) : exec .finish s = .next s :=
  congrArg Host.Outcome.next (if_pos h)

theorem padding_eq_replicate {n : Nat} (h : n % 8 ≠ 0) : padding n = List.replicate (8 - n % 8) false := by
  rw [padding, Nat.mod_eq_of_lt (by omega : 8 - n % 8 < 8)]

/-- `FINISH` off a byte boundary appends the padding (R124, R129). -/
theorem finish_appended {s : State} (hs : s.Inv) : Appended s (forgetTail (flush s)) (padding s.blen.toNat) := by
  have hcap : s.bufBits < 2 ^ 32 := hs.cfg.2.1
  have hpad : s.blen.toNat + (padding s.blen.toNat).length ≤ s.bufBits := pad_le hs.blen_le
  exact forgetTail_appended (by omega)

/-- Settles O19: the padding ends at a byte boundary, where `FINISH` does nothing. -/
theorem finishPads : Obligations.FinishPads := by
  intro s hs
  by_cases h8 : s.blen.toNat % 8 = 0
  · exact ⟨s, exec_finish_aligned h8, fun _ => rfl, fun h => absurd h8 h, h8, exec_finish_aligned h8⟩
  · have happended := finish_appended hs
    have haligned : (forgetTail (flush s)).blen.toNat % 8 = 0 := by
      rw [happended.1]
      exact add_padding_mod _
    exact ⟨forgetTail (flush s), congrArg Host.Outcome.next (if_neg h8), fun h => absurd h h8,
      fun h => padding_eq_replicate h ▸ happended, haligned, exec_finish_aligned haligned⟩

/-! ## The bytes of an appended varint -/

/-- Bytes whose bits stand at a byte boundary stand there as bytes (R61). -/
theorem byte_of_bits {m : ByteMemory} {i : Nat} (bs : List Byte)
    (h : m.bits (8 * i) (8 * bs.length) = bs.flatMap byteBits) (j : Nat) (hj : j < bs.length) :
    m.byte (i + j) = bs[j] := by
  induction bs generalizing i j with
  | nil => simp at hj
  | cons b bs ih =>
    rw [List.length_cons, show 8 * (bs.length + 1) = 8 + 8 * bs.length by omega, bits_append, List.flatMap_cons] at h
    obtain ⟨hfirst, hrest⟩ := List.append_inj h (by simp)
    cases j with
    | zero =>
      show (ofGroup (m.bits (8 * i) 8)).setWidth 8 = b
      rw [hfirst, ofGroup_byteBits]
      simp
    | succ j =>
      have hj' : j < bs.length := by simpa using hj
      rw [show i + (j + 1) = i + 1 + j by omega]
      exact ih (i := i + 1) hrest j hj'

/-- Appended bits stand in the stream from the old `BLEN` on. -/
theorem Appended.bits {s t : State} {bs : List Bool} (h : Appended s t bs) :
    t.buf.bits s.blen.toNat bs.length = bs := by
  obtain ⟨-, hat, -⟩ := h
  exact (bits_eq_iff _ _ _).2 hat

/-- Settles O25: the whole varint is appended, and at a byte boundary its bits stand as its bytes. -/
theorem varPut : Obligations.VarPut := by
  intro s hcfg h8 hfit
  obtain ⟨t, ht, happended⟩ := appendBits_appended (bs := varintBits s.val) hcfg (by rwa [varintBits_length])
  refine ⟨t, congrArg Host.Outcome.next (primitive_ok ?_), happended, byte_of_bits _ ?_⟩
  · rw [if_neg (not_not.2 h8), ht]
  · have hbits := happended.bits
    rw [varintBits_length] at hbits
    rwa [show 8 * (s.blen.toNat / 8) = s.blen.toNat by omega]

/-! ## The register map -/

theorem ofNat_eight_mul (v : Len) : BitVec.ofNat 32 (8 * v.toNat) = 8 * v := by
  apply BitVec.eq_of_toNat_eq
  simp [BitVec.toNat_mul]

/-- A write of a read-only or reserved number changes nothing (R35, R36). -/
theorem writeRegister_ignored {n : Nat} (h : n ∉ [0x00, 0x02, 0x03, 0x04, 0x06, 0x08, 0x09]) (v : Word) (s : State) :
    writeRegister n v s = s := by
  unfold writeRegister
  split
  case h_7 => rfl
  all_goals simp at h

/-- Settles O28: number by number. -/
theorem hostRegisters : Obligations.HostRegisters := by
  intro s v
  refine ⟨rfl, rfl, rfl, ?_, rfl, rfl, fun n hn => ?_, fun n => ⟨_, rfl, ?_⟩⟩
  · rw [← ofNat_eight_mul]; rfl
  · have h0 : n ≠ 0 := by rintro rfl; simp at hn
    simp only [hostAction, if_neg h0, writeRegister_ignored hn]
  · unfold readRegister
    split
    all_goals simp_all [State.byteLen]

end Sys2Proof.Machine
end

section
/-! SUPPORT. The host's actions through `step`: a command word that passes the gate, and the memories by index; and the
bytes of an appended group. -/

namespace Sys2Proof.Machine

/-! ## A step that writes `CMD` -/

/-- A word that passes the gate and decodes runs its command (R102, R308). -/
theorem commandWrite_of_passes {s : State} {w : CmdWord} {i : Instr}
    (hgate : s.err = 0 ∨ opcField w = 0xF0 ∨ opcField w = 0xF1) (h : decode w = .ok i) :
    commandWrite w s = exec i s := by
  have hpass : (s.faulted && !passesGate (opcField w)) = false := by
    rcases hgate with herr | hopc | hopc
    · simp [State.faulted, herr]
    · simp [passesGate, hopc]
    · simp [passesGate, hopc]
  simp [commandWrite, hpass, h]

/-- A step whose event is a write of `CMD` is that write, the action taken off the list (R71). -/
theorem step_writeCmd {s : State} {v : Word} {rest : List HostEvent} (h : s.inputs = .writeReg 0 v :: rest) :
    step s = commandWrite (v.setWidth 32) { s with inputs := rest } := by
  simp only [step, nextEvent, h, hostAction, if_true]

/-- The host's write of a word and nothing before it: the step runs the word on the state as it was (log 4). -/
theorem step_issueWord (w : CmdWord) (s : State) : step (issueWord w s) = commandWrite w s := by
  rw [step_writeCmd (issueWord_inputs w s), BitVec.setWidth_setWidth_of_le _ (by omega), BitVec.setWidth_eq]
  rfl

/-- `withFetchWord` given a whole command word places that word. -/
theorem withFetchWord_toNat (s : State) (w : CmdWord) : s.withFetchWord 32 w.toNat = issueWord w s := by
  rw [State.withFetchWord, Nat.mod_eq_of_lt w.isLt, BitVec.ofNat_toNat, BitVec.setWidth_eq]

/-- Settles O6: the step is the `CMD` write of the word, and the word passes the gate. -/
theorem stepRunsCommand : Obligations.StepRunsCommand := by
  intro s w i hdecode hgate
  refine ⟨?_, fun v rest hinputs hw => ?_⟩
  · rw [withFetchWord_toNat, step_issueWord, commandWrite_of_passes hgate hdecode]
  · subst hw
    rw [step_writeCmd hinputs]
    exact commandWrite_of_passes hgate hdecode

/-! ## The memories by index -/

/-- A byte of `BUF` after the host's write of a byte: the byte written, and no other (R60, R70). -/
theorem byte_setByte (m : ByteMemory) (i : Nat) (b : Byte) (j : Nat) :
    (m.setByte i b).byte j = if j = i then b else m.byte j := by
  have hbit : ∀ k, k < 8 → (m.setByte i b).bit (8 * j + k) = if j = i then bitOfByte b k else m.bit (8 * j + k) := by
    intro k hk
    rw [bit_setByte, show (8 * j + k) / 8 = j by omega, show (8 * j + k) % 8 = k by omega]
  by_cases hji : j = i
  · have hbits : (m.setByte i b).bits (8 * j) (byteBits b).length = byteBits b := by
      refine (bits_eq_iff _ _ _).2 fun k hk => ?_
      have hk8 : k < 8 := by simpa using hk
      rw [hbit k hk8, if_pos hji, bitOfByte]
      simp only [byteBits, group_getElem, BitVec.getLsbD_setWidth]
      rw [decide_eq_true (by omega), Bool.true_and, show 8 - 1 - k = 7 - k by omega]
    rw [byteBits_length] at hbits
    rw [if_pos hji, ByteMemory.byte, hbits, ofGroup_byteBits, BitVec.setWidth_setWidth_of_le _ (by omega),
      BitVec.setWidth_eq]
  · have hbits : (m.setByte i b).bits (8 * j) 8 = m.bits (8 * j) 8 :=
      bits_congr fun k hk => by rw [hbit k hk, if_neg hji]
    rw [if_neg hji, ByteMemory.byte, ByteMemory.byte, hbits]

/-- Settles O27: each access by the check of its index, and what a write leaves by the laws of the memories. -/
theorem hostMemory : Obligations.HostMemory := by
  intro s i
  refine ⟨fun hbuf => ⟨fun b => ⟨_, if_pos hbuf, rfl, byte_setByte s.buf i b⟩, if_pos hbuf⟩,
    fun hword => ⟨fun w => ⟨_, if_pos hword, rfl, read_write Config.freeSrc s.src i w⟩,
      fun w => ⟨_, if_pos hword, rfl, read_write Config.freeDst s.dst i w⟩, if_pos hword, if_pos hword⟩,
    fun hbuf => ?_, fun hword => ?_⟩
  · have hout := Nat.not_lt.2 hbuf
    exact ⟨fun _ => if_neg hout, if_neg hout⟩
  · have hout := Nat.not_lt.2 hword
    exact ⟨fun _ => if_neg hout, if_neg hout, fun _ => if_neg hout, if_neg hout⟩

/-! ## The bytes of an appended group -/

/-- A group is its high bits, then its low ones (R62). -/
theorem group_add (v : Word) (a b : Nat) : group v (a + b) = group (v >>> b) a ++ group v b := by
  induction a with
  | zero => simp [group]
  | succ a ih =>
    rw [show a + 1 + b = a + b + 1 by omega, group, group, ih, BitVec.getLsbD_ushiftRight, Nat.add_comm b a]
    rfl

theorem byteBits_setWidth (v : Word) : byteBits (v.setWidth 8) = group v 8 := by
  refine List.ext_getElem (by simp) fun j hj _ => ?_
  have hj8 : j < 8 := by simpa using hj
  simp only [byteBits, group_getElem, BitVec.getLsbD_setWidth]
  rw [decide_eq_true (by omega), decide_eq_true (by omega), Bool.true_and, Bool.true_and]

/-- The `m` low bytes of a value, most significant first (R61, R62). -/
def lowBytes (v : Word) (m : Nat) : List Byte := (List.range m).map fun i => (v >>> (8 * (m - 1 - i))).setWidth 8

theorem lowBytes_length (v : Word) (m : Nat) : (lowBytes v m).length = m := by simp [lowBytes]

theorem lowBytes_succ (v : Word) (m : Nat) : lowBytes v (m + 1) = (v >>> (8 * m)).setWidth 8 :: lowBytes v m := by
  simp only [lowBytes, List.range_succ_eq_map, List.map_cons, List.map_map, Function.comp_def, Nat.add_sub_cancel,
    Nat.sub_zero, Nat.succ_eq_add_one, Nat.sub_sub, Nat.add_comm 1]

/-- A group of whole bytes is the bits of those bytes in order. -/
theorem group_eq_lowBytes (v : Word) (m : Nat) : group v (8 * m) = (lowBytes v m).flatMap byteBits := by
  induction m with
  | zero => rfl
  | succ m ih =>
    rw [lowBytes_succ, List.flatMap_cons, byteBits_setWidth, ← ih, ← group_add, show 8 + 8 * m = 8 * (m + 1) by omega]

/-- Settles O23: the group is appended, and at a byte boundary its bits stand as its bytes. -/
theorem bigEndianGroups : Obligations.BigEndianGroups := by
  intro s m hcfg h1 hm h8 hfit
  obtain ⟨t, hexec, happended⟩ := appendBits_holds s (8 * m) hcfg (by omega) (by omega) hfit
  rw [← group_eq_range] at happended
  have hbits := happended.bits
  rw [group_length, show s.blen.toNat = 8 * (s.blen.toNat / 8) by omega, group_eq_lowBytes] at hbits
  refine ⟨t, hexec, fun i hi => ?_⟩
  have hi' : i < (lowBytes s.val m).length := by rwa [lowBytes_length]
  rw [byte_of_bits (lowBytes s.val m) (by rw [lowBytes_length, hbits]) i hi']
  simp [lowBytes]

end Sys2Proof.Machine
end

section
/-! SUPPORT. The bit-packed bodies: how long they are at most (R69), the header each begins with, and the Huffman body by
formula (R260 to R264). -/

namespace Sys2Proof.Machine

/-! ## Header and length of a body -/

/-- The commands whose body begins with the Gorilla framing (R142, R171, R201). -/
def framedEncoders : List Instr := [.gorillaC, .gorillazC, .gorillaplusC, .chimpC, .pdfcmC]

theorem mem_framedEncoders {i : Instr} :
    i ∈ framedEncoders ↔ i = .gorillaC ∨ i = .gorillazC ∨ i = .gorillaplusC ∨ i = .chimpC ∨ i = .pdfcmC := by
  simp [framedEncoders]

theorem framedEncoders_bounds {i : Instr} (hi : i ∈ framedEncoders) (vcap : Nat) :
    i ∈ compressCommands ∧ minItems i = 1 ∧ maxItems i vcap = 16383 := by
  rcases mem_framedEncoders.1 hi with rfl | rfl | rfl | rfl | rfl <;> exact ⟨by decide, rfl, rfl⟩

/-- A body in the Gorilla framing: the header, then at most 80 bits for each item after the first (R69). -/
theorem framedBody_shape (log2 : Nat) {i : Instr} (hi : i ∈ framedEncoders) (v0 : Word) (vs : List Word) :
    ∃ records, compressBody log2 i (v0 :: vs) = .ok (framedHeader v0 (vs.length + 1) ++ records) ∧
      records.length ≤ 80 * vs.length := by
  have hgorilla (lay : Layout) := encodeItems_length_le (gorillaPutItem_length_le lay) (gorillaPutItem_keeps lay)
    (st := .init v0) (Nat.zero_le _) vs
  rcases mem_framedEncoders.1 hi with rfl | rfl | rfl | rfl | rfl
  · exact ⟨_, rfl, hgorilla .g⟩
  · exact ⟨_, rfl, hgorilla .z⟩
  · exact ⟨_, rfl, hgorilla .p⟩
  · exact ⟨_, rfl, encodeItems_length_le (P := fun _ => True) (fun st v _ => chimpPutItem_length_le st v)
      (fun _ _ _ => trivial) trivial vs⟩
  · exact ⟨_, rfl, encodeItems_length_le (P := fun _ => True) (fun st v _ => pdfcmPutItem_length_le log2 st v)
      (fun _ _ _ => trivial) trivial vs⟩

/-- The number of a group that holds it (R9, R62). -/
theorem bitsToNat_groupNat {k n : Nat} (hn : n ≤ 64) (hk : k < 2 ^ n) : bitsToNat (groupNat k n) = k := by
  have h64 : k < 2 ^ 64 := lt_of_lt_of_le hk (Nat.pow_le_pow_right (by omega) hn)
  rw [groupNat, bitsToNat_group, BitVec.toNat_ofNat, Nat.mod_eq_of_lt h64, Nat.mod_eq_of_lt hk]

/-- A number field of the stream, read where it stands. -/
theorem bitsToNat_of_holdsAt {u : State} {pos k n : Nat} (hn : n ≤ 64) (hk : k < 2 ^ n)
    (h : u.holdsAt pos (groupNat k n)) : bitsToNat (u.buf.bits pos n) = k := by
  obtain ⟨-, hbits⟩ := h
  rw [groupNat_length] at hbits
  rw [hbits, bitsToNat_groupNat hn hk]

/-- The stream after a compress command that completes begins with its body. -/
theorem Compressed.holdsAt {s t : State} {bits : List Bool} (h : Compressed s t bits) : t.holdsAt 0 bits :=
  holdsAt_of_body h.1

/-- A command of the Gorilla framing completes, and its body begins with the first value and the count. -/
theorem framed_header {s : State} (hs : s.Inv) (h1 : 1 ≤ s.slen.toNat) (hroom : 80 * s.slen.toNat + 80 ≤ s.bufBits)
    (hmax : s.slen.toNat ≤ 16383) {i : Instr} (hi : i ∈ framedEncoders) :
    ∃ t bits, exec i s = .next t ∧ Compressed s t bits ∧
      bitsToNat (t.buf.bits 0 64) = (s.srcAt 0).toNat ∧ bitsToNat (t.buf.bits 64 14) = s.slen.toNat := by
  obtain ⟨records, hbody, hlen⟩ := framedBody_shape s.cfg.fpcLog2 hi (s.srcAt 0)
    ((List.range (s.slen.toNat - 1)).map fun k => s.srcAt (k + 1))
  rw [← srcItems_eq_range h1, List.length_map, List.length_range, Nat.sub_add_cancel h1] at hbody
  rw [List.length_map, List.length_range] at hlen
  have hfit : (framedHeader (s.srcAt 0) s.slen.toNat ++ records).length ≤ s.bufBits := by
    rw [List.length_append, framedHeader_length]
    omega
  obtain ⟨hc, hmini, hmaxi⟩ := framedEncoders_bounds hi s.cfg.vcap
  obtain ⟨t, hexec, hcomp⟩ := framed_compresses hc hmini hmaxi hs h1 hmax hbody hfit
  obtain ⟨hheader, -⟩ := holdsAt_append.1 hcomp.holdsAt
  obtain ⟨⟨-, hfirst⟩, hcount⟩ := holdsAt_append.1 hheader
  rw [group_length] at hfirst hcount
  refine ⟨t, _, hexec, hcomp, ?_, bitsToNat_of_holdsAt (by omega) (by omega) hcount⟩
  rw [hfirst, bitsToNat_group, Nat.mod_eq_of_lt (s.srcAt 0).isLt]

/-- `FPC.C` completes, and its body begins with the count (R188). -/
theorem fpc_header {s : State} (hs : s.Inv) (h1 : 1 ≤ s.slen.toNat) (hroom : 80 * s.slen.toNat + 80 ≤ s.bufBits)
    (hmax : s.slen.toNat ≤ 16383) :
    ∃ t bits, exec .fpcC s = .next t ∧ Compressed s t bits ∧ bitsToNat (t.buf.bits 0 14) = s.slen.toNat := by
  have hlen := encodeItems_length_le (P := fun _ => True) (fun st v _ => fpcPutItem_length_le s.cfg.fpcLog2 st v)
    (fun _ _ _ => trivial) (st := FpcState.init) trivial s.srcItems
  have hbody : compressBody s.cfg.fpcLog2 .fpcC s.srcItems = .ok (groupNat s.slen.toNat 14 ++
      encodeItems (fpcPutItem s.cfg.fpcLog2) FpcState.init s.srcItems) := by
    rw [← srcItems_length]; rfl
  rw [srcItems_length] at hlen
  have hfit : (groupNat s.slen.toNat 14 ++
      encodeItems (fpcPutItem s.cfg.fpcLog2) FpcState.init s.srcItems).length ≤ s.bufBits := by
    rw [List.length_append, groupNat_length]
    omega
  obtain ⟨t, hexec, hcomp⟩ := framed_compresses (by decide) rfl rfl hs h1 hmax hbody hfit
  obtain ⟨hcount, -⟩ := holdsAt_append.1 hcomp.holdsAt
  exact ⟨t, _, hexec, hcomp, bitsToNat_of_holdsAt (by omega) (by omega) hcount⟩

/-! ## The Huffman body by formula -/

/-- An encoder that codes the whole block, its state before item `k` being `st k`, appends the records in order. -/
theorem encodeItems_srcItems {σ : Type} {item : σ → Word → List Bool × σ} {s : State} {st : Nat → σ}
    {record : Nat → List Bool} (h : ∀ k, item (st k) (s.srcAt k) = (record k, st (k + 1))) :
    encodeItems item (st 0) s.srcItems = (List.range s.slen.toNat).flatMap record := by
  have hloop := encodeItems_eq_flatMap (v := fun k => s.srcAt (k - 1)) h s.slen.toNat 0
  simp only [Nat.zero_add, Nat.add_sub_cancel] at hloop
  exact hloop

/-- The code of a nibble is that of the table (R261). -/
theorem huffBits_eq_nibbleCode {q : Nat} (hq : q < 16) : huffBits q = nibbleCode q := by
  interval_cases q <;> rfl

/-- Nibble `k` by division. -/
theorem nibble_eq_div (x : Word) (k : Nat) : nibble x k = x.toNat / 16 ^ k % 16 := by
  rw [nibble, BitVec.toNat_and, BitVec.toNat_ushiftRight, Nat.shiftRight_eq_div_pow, pow_mul]
  exact Nat.and_two_pow_sub_one_eq_mod _ 4

/-- The codes of the nibbles below `n`, most significant first (R262). -/
theorem nibbleCodes_eq_flatMap (x : Word) (n : Nat) :
    nibbleCodes x n = (List.range n).flatMap fun k => nibbleCode (x.toNat / 16 ^ (n - 1 - k) % 16) := by
  induction n with
  | zero => rfl
  | succ n ih =>
    rw [nibbleCodes, huffBits_eq_nibbleCode (nibble_lt x n), nibble_eq_div, ih, List.range_succ_eq_map,
      List.flatMap_cons, List.flatMap_map]
    simp only [Nat.add_sub_cancel, Nat.sub_zero, Nat.succ_eq_add_one, Nat.sub_sub, Nat.add_comm 1]

/-- The Huffman encoder's item is the sixteen codes of the item's XOR with the one before it (R262, R264). -/
theorem huffPutItem_eq (v : Nat → Word) (k : Nat) :
    huffPutItem (itemBefore v k) (v k) = (patternCodes (v k ^^^ itemBefore v k), itemBefore v (k + 1)) :=
  Prod.ext (nibbleCodes_eq_flatMap _ 16) rfl

/-- The Huffman body by formula (R264). -/
theorem huffBody_eq (s : State) : huffBody s.srcItems = .ok (numBits s.slen.toNat 16 ++
    (List.range s.slen.toNat).flatMap fun k => patternCodes (s.srcAt k ^^^ itemBefore s.srcAt k)) := by
  rw [← encodeItems_srcItems (huffPutItem_eq s.srcAt), ← groupNat_eq_numBits _ (by omega), ← srcItems_length]
  rfl

/-- A Huffman body has 16 bits, and at most 80 for each item (R69). -/
theorem huffBody_length_le {vs : List Word} {bits : List Bool} (hb : huffBody vs = .ok bits) :
    bits.length ≤ 16 + 80 * vs.length := by
  have hcodes := encodeItems_length_le (item := huffPutItem) (P := fun _ => True)
    (fun prev v _ => nibbleCodes_length_le (v ^^^ prev) 16) (fun _ _ _ => trivial) (st := 0) trivial vs
  cases hb
  rw [List.length_append, groupNat_length]
  omega

/-- `HUFF.C` completes with the body of the formula, which begins with the count (R264). -/
theorem huff_header {s : State} (hs : s.Inv) (h1 : 1 ≤ s.slen.toNat) (hroom : 80 * s.slen.toNat + 80 ≤ s.bufBits)
    (hmax : s.slen.toNat ≤ 65535) :
    ∃ t, exec .huffC s = .next t ∧ bitsToNat (t.buf.bits 0 16) = s.slen.toNat ∧
      Compressed s t (numBits s.slen.toNat 16 ++
        (List.range s.slen.toNat).flatMap fun k => patternCodes (s.srcAt k ^^^ itemBefore s.srcAt k)) := by
  have hlen := huffBody_length_le (huffBody_eq s)
  rw [srcItems_length] at hlen
  have hcomp := compress_ok (opc := Instr.huffC.opc) hs h1 hmax (huffBody_eq s) (by omega)
  obtain ⟨hcount, -⟩ := holdsAt_append.1 hcomp.holdsAt
  rw [← groupNat_eq_numBits _ (by omega)] at hcount
  exact ⟨_, rfl, bitsToNat_of_holdsAt (by omega) (by omega) hcount, hcomp⟩

/-- Settles O43: every record has at most 80 bits, so the bodies fit, and a body begins with its header. -/
theorem bodyHeaders : Obligations.BodyHeaders := fun _ hs h1 hroom =>
  ⟨fun hmax => ⟨fun _ hi => framed_header hs h1 hroom hmax hi, fpc_header hs h1 hroom hmax⟩,
    huff_header hs h1 hroom⟩

end Sys2Proof.Machine
end

section
/-! SUPPORT. The command word and the opcode table: the must-be-zero bits of each format, the decoder as a lookup of the
word's row, and the encoder as its inverse; then the `CMD` write of a word that is no command. -/

namespace Sys2Proof

open Sys2Proof.Laws.WordShape (high_of_append small_count)
open Sys2Proof.Machine (definedOpcodes mustBeZero)

/-! ## The must-be-zero bits (R91, R95) -/

/-- The 32-bit word with ones at bits `k` to `k + n - 1`. -/
def onesAt (k n : Nat) : BitVec 32 := (BitVec.allOnes n).setWidth 32 <<< k

theorem getLsbD_onesAt {k n : Nat} (h : k + n ≤ 32) (i : Nat) :
    (onesAt k n).getLsbD i = decide (k ≤ i ∧ i < k + n) := by
  simp only [onesAt, BitVec.getLsbD_shiftLeft, BitVec.getLsbD_setWidth, BitVec.getLsbD_allOnes]
  grind

/-- The mask finds no bit of the word when the field under it is zero. -/
theorem and_onesAt_eq_zero_iff {w : CmdWord} {k n : Nat} (h : k + n ≤ 32) :
    w &&& onesAt k n = 0 ↔ w.extractLsb' k n = 0#n := by
  constructor <;> intro hz <;> apply BitVec.eq_of_getLsbD_eq <;> intro i hi
  · have hbit := congrArg (·.getLsbD (k + i)) hz
    simpa [getLsbD_onesAt h, hi] using hbit
  · have hbit := congrArg (·.getLsbD (i - k)) hz
    simp only [BitVec.getLsbD_and, getLsbD_onesAt h, BitVec.getLsbD_extractLsb', BitVec.getLsbD_zero] at hbit ⊢
    grind

/-- Format O: bits 23:0. -/
theorem and_maskO_eq_zero_iff (w : CmdWord) : w &&& 0x00FFFFFF = 0 ↔ w.extractLsb' 0 24 = 0#24 :=
  and_onesAt_eq_zero_iff (k := 0) (n := 24) (by omega)

/-- Format N: bits 23:7. -/
theorem and_maskN_eq_zero_iff (w : CmdWord) : w &&& 0x00FFFF80 = 0 ↔ w.extractLsb' 7 17 = 0#17 :=
  and_onesAt_eq_zero_iff (k := 7) (n := 17) (by omega)

/-- Format B: bits 23:1. -/
theorem and_maskB_eq_zero_iff (w : CmdWord) : w &&& 0x00FFFFFE = 0 ↔ w.extractLsb' 1 23 = 0#23 :=
  and_onesAt_eq_zero_iff (k := 1) (n := 23) (by omega)

theorem formO_eq (w : CmdWord) (i : Instr) :
    formO w i = if w &&& 0x00FFFFFF = 0 then .ok i else .error .field := by
  simp only [formO, and_maskO_eq_zero_iff]

theorem formN_eq (w : CmdWord) (i : Nat → Instr) :
    formN w i = if w &&& 0x00FFFF80 = 0 then .ok (i (nField w).toNat) else .error .field := by
  simp only [formN, and_maskN_eq_zero_iff]

theorem formB_eq (w : CmdWord) (i : Bool → Instr) :
    formB w i = if w &&& 0x00FFFFFE = 0 then .ok (i (w.getLsbD 0)) else .error .field := by
  simp only [formB, and_maskB_eq_zero_iff]

/-! ## The operand (R92) -/

/-- The command of the same row of the opcode table with the operand of the word. -/
def Instr.withOperand (w : CmdWord) : Instr → Instr
  | .appendbit _ => .appendbit (w.getLsbD 0)
  | .appendbits _ => .appendbits (nField w).toNat
  | .readbits _ => .readbits (nField w).toNat
  | i => i

@[simp] theorem withOperand_opc (w : CmdWord) (i : Instr) : (i.withOperand w).opc = i.opc := by
  cases i <;> rfl

/-- The field `N` holds no more than 127. -/
theorem withOperand_wellFormed (w : CmdWord) (i : Instr) : (i.withOperand w).wellFormed = true := by
  have hn : fitsN (nField w).toNat = true := decide_eq_true (nField w).isLt
  cases i with
  | appendbits | readbits => exact hn
  | _ => rfl

theorem operand_nField {w : CmdWord} (h : w.extractLsb' 7 17 = 0#17) :
    BitVec.ofNat 24 (nField w).toNat = w.extractLsb' 0 24 := by
  have hz := congrArg BitVec.toNat h
  apply BitVec.eq_of_toNat_eq
  simp only [nField, BitVec.extractLsb'_toNat, BitVec.toNat_ofNat, Nat.shiftRight_eq_div_pow] at hz ⊢
  omega

theorem operand_bit {w : CmdWord} (h : w.extractLsb' 1 23 = 0#23) :
    (if w.getLsbD 0 then 1#24 else 0#24) = w.extractLsb' 0 24 := by
  have hz := congrArg BitVec.toNat h
  apply BitVec.eq_of_toNat_eq
  simp only [BitVec.getLsbD, Nat.testBit_zero, decide_eq_true_eq, BitVec.extractLsb'_toNat, BitVec.toNat_ofNat,
    Nat.shiftRight_eq_div_pow] at hz ⊢
  split <;> simp only [BitVec.toNat_ofNat] <;> omega

/-- With its must-be-zero bits 0 a word has no bits in 23:0 but those of the operand. -/
theorem withOperand_operand {w : CmdWord} {i : Instr} (h : w &&& mustBeZero i.opc = 0) :
    (i.withOperand w).operand = w.extractLsb' 0 24 := by
  cases i with
  | appendbit => exact operand_bit ((and_maskB_eq_zero_iff w).1 h)
  | appendbits | readbits => exact operand_nField ((and_maskN_eq_zero_iff w).1 h)
  | _ => exact ((and_maskO_eq_zero_iff w).1 h).symm

/-- A word whose must-be-zero bits are 0 is the word of its row's command. -/
theorem encode_withOperand {w : CmdWord} {i : Instr} (hopc : opcField w = i.opc) (h : w &&& mustBeZero i.opc = 0) :
    encode (i.withOperand w) = w := by
  rw [encode, withOperand_operand h, withOperand_opc, ← hopc, opcField,
    BitVec.extractLsb'_append_extractLsb'_eq_extractLsb' (by omega)]
  exact BitVec.extractLsb'_eq_self

/-! ## The word of a command -/

theorem opcField_encode (i : Instr) : opcField (encode i) = i.opc := high_of_append _ _

theorem encode_low (i : Instr) {k n : Nat} (h : k + n ≤ 24) :
    (encode i).extractLsb' k n = i.operand.extractLsb' k n := by
  rw [encode, BitVec.extractLsb'_append_eq_of_add_le h]

theorem nField_encode_of_operand {i : Instr} {n : Nat} (hop : i.operand = BitVec.ofNat 24 n) (hn : n < 128) :
    (nField (encode i)).toNat = n := by
  rw [nField, encode_low i (by omega), hop, BitVec.extractLsb'_toNat, BitVec.toNat_ofNat]
  omega

/-- The word of a well-formed command keeps the must-be-zero bits 0. -/
theorem encode_mustBeZero {i : Instr} (h : i.wellFormed = true) : encode i &&& mustBeZero i.opc = 0 := by
  cases i with
  | appendbit b => cases b <;> rfl
  | appendbits n | readbits n =>
    refine (and_maskN_eq_zero_iff _).2 ?_
    rw [encode_low _ (by omega)]
    exact small_count n (of_decide_eq_true h)
  | _ => rfl

/-- The word of a well-formed command holds its operand whole. -/
theorem withOperand_encode {i : Instr} (h : i.wellFormed = true) : i.withOperand (encode i) = i := by
  cases i with
  | appendbit b => cases b <;> rfl
  | appendbits n => exact congrArg Instr.appendbits (nField_encode_of_operand rfl (of_decide_eq_true h))
  | readbits n => exact congrArg Instr.readbits (nField_encode_of_operand rfl (of_decide_eq_true h))
  | _ => rfl

/-! ## The opcode table (R93) -/

/-- One command for each row of the opcode table, in the table's order; of an operand the first value. -/
def tableRows : List Instr :=
  [.nop, .bsreset, .appendbit false, .appendbits 0, .finish, .rewind, .readbit, .readbits 0, .varput, .varget,
    .gorillaC, .gorillaD, .gorillazC, .gorillazD, .gorillaplusC, .gorillaplusD, .chimpC, .chimpD, .fpcC, .fpcD,
    .pdfcmC, .pdfcmD, .deltaC, .deltaD, .delta2C, .delta2D, .xordeltaC, .xordeltaD, .deltaxorC, .deltaxorD,
    .plainC, .plainD, .constC, .constD, .deltaconstC, .deltaconstD, .rleC, .rleD, .huffC, .huffD,
    .stats, .classify, .clrerr, .sreset]

theorem definedOpcodes_eq_map : definedOpcodes = tableRows.map Instr.opc := rfl

/-- The defined opcodes are those of the commands (R93). -/
theorem mem_definedOpcodes_iff {o : BitVec 8} : o ∈ definedOpcodes ↔ ∃ i : Instr, i.opc = o := by
  constructor
  · intro h
    obtain ⟨i, -, hi⟩ := List.mem_map.1 (definedOpcodes_eq_map ▸ h)
    exact ⟨i, hi⟩
  · rintro ⟨i, rfl⟩
    cases i <;> exact of_decide_eq_true rfl

/-- A word with a command's opcode decodes by that command's row: to the command with the word's operand, unless a
must-be-zero bit is 1 (R93, R95). -/
theorem decode_of_opcField {w : CmdWord} {i : Instr} (h : opcField w = i.opc) :
    decode w = if w &&& mustBeZero i.opc = 0 then .ok (i.withOperand w) else .error .field := by
  rw [decode, h]
  cases i with
  | appendbit => exact formB_eq w _
  | appendbits | readbits => exact formN_eq w _
  | _ => exact formO_eq w _

theorem mem_definedOpcodes_of_toNat {o : BitVec 8} {n : Nat} (h : o.toNat = n)
    (hn : BitVec.ofNat 8 n ∈ definedOpcodes) : o ∈ definedOpcodes := by
  rwa [← h, BitVec.ofNat_toNat, BitVec.setWidth_eq] at hn

/-- A word of a reserved opcode is refused by its opcode: every other row of the map is a defined opcode's (R94). -/
theorem decode_of_reserved {w : CmdWord} (h : opcField w ∉ definedOpcodes) : decode w = .error .opcode := by
  unfold decode
  split
  case h_45 => rfl
  all_goals
    next hopc => exact absurd (mem_definedOpcodes_of_toNat hopc (by decide)) h

/-- A word of a defined opcode decodes to a command when its must-be-zero bits are 0, and only then. -/
theorem decode_of_defined {w : CmdWord} (h : opcField w ∈ definedOpcodes) :
    (w &&& mustBeZero (opcField w) ≠ 0 ∧ decode w = .error .field) ∨
      (w &&& mustBeZero (opcField w) = 0 ∧ ∃ i : Instr, opcField w = i.opc ∧ decode w = .ok (i.withOperand w)) := by
  obtain ⟨i, hi⟩ := mem_definedOpcodes_iff.1 h
  have hrow := decode_of_opcField hi.symm
  rw [hi] at hrow
  by_cases hz : w &&& mustBeZero (opcField w) = 0
  · exact .inr ⟨hz, i, hi.symm, hrow.trans (if_pos hz)⟩
  · exact .inl ⟨hz, hrow.trans (if_neg hz)⟩

/-! ## The decoder and the encoder are inverse -/

/-- Settles O2: the word of a command has its row's opcode, its must-be-zero bits are 0, and its operand is whole. -/
theorem decodeEncode : Obligations.DecodeEncode := fun i hi => by
  rw [decode_of_opcField (opcField_encode i), if_pos (encode_mustBeZero hi), withOperand_encode hi]

/-- A word that decodes is the word of the well-formed command it decodes to. -/
theorem encode_of_decode {w : CmdWord} {i : Instr} (h : decode w = .ok i) : i.wellFormed = true ∧ encode i = w := by
  by_cases hdef : opcField w ∈ definedOpcodes
  · rcases decode_of_defined hdef with ⟨-, herr⟩ | ⟨hz, j, hopc, hok⟩
    · exact nomatch herr.symm.trans h
    · obtain rfl : j.withOperand w = i := Except.ok.inj (hok.symm.trans h)
      exact ⟨withOperand_wellFormed w j, encode_withOperand hopc (hopc ▸ hz)⟩
  · exact nomatch (decode_of_reserved hdef).symm.trans h

theorem decode_eq_ok_iff {w : CmdWord} {i : Instr} : decode w = .ok i ↔ i.wellFormed = true ∧ encode i = w := by
  refine ⟨encode_of_decode, ?_⟩
  rintro ⟨hi, rfl⟩
  exact decodeEncode i hi

theorem decode_eq_opcode_iff {w : CmdWord} : decode w = .error .opcode ↔ opcField w ∉ definedOpcodes := by
  refine ⟨fun h hdef => ?_, decode_of_reserved⟩
  rcases decode_of_defined hdef with ⟨-, herr⟩ | ⟨-, _, -, hok⟩
  · exact nomatch herr.symm.trans h
  · exact nomatch hok.symm.trans h

theorem decode_eq_field_iff {w : CmdWord} :
    decode w = .error .field ↔ opcField w ∈ definedOpcodes ∧ w &&& mustBeZero (opcField w) ≠ 0 := by
  by_cases hdef : opcField w ∈ definedOpcodes
  · rcases decode_of_defined hdef with ⟨hz, herr⟩ | ⟨hz, _, -, hok⟩
    · exact iff_of_true herr ⟨hdef, hz⟩
    · exact iff_of_false (by simp [hok]) fun h => h.2 hz
  · exact iff_of_false (by simp [decode_of_reserved hdef]) fun h => hdef h.1

/-- Settles O3: the two inverse laws, and the two ways a word is illegal. -/
theorem decodeExactly : Obligations.DecodeExactly := fun _ =>
  ⟨fun _ => decode_eq_ok_iff, decode_eq_opcode_iff, decode_eq_field_iff⟩

/-- Settles O1: each word is the word of its well-formed command. -/
theorem decodeKnownWords : Obligations.DecodeKnownWords := by
  refine ⟨?_, ?_, ?_, ?_, ?_, ?_, ?_, ?_, ?_, ?_, ?_, ?_, ?_, ?_, ?_⟩ <;> exact decode_eq_ok_iff.2 ⟨rfl, rfl⟩

end Sys2Proof

namespace Sys2Proof.Machine

/-! ## The `CMD` write of a word that is no command (R102) -/

/-- The cause an illegal word raises (R94, R95). -/
def decodeCause : DecodeError → Cause
  | .opcode => .illegalOpcode
  | .field => .illegalField

/-- Step 1: while faulted, a word that does not pass the gate is discarded. -/
theorem commandWrite_of_gated {s : State} {w : CmdWord} (herr : s.err ≠ 0) (h0 : opcField w ≠ 0xF0)
    (h1 : opcField w ≠ 0xF1) : commandWrite w s = .next s := by
  refine if_pos ?_
  simpa [State.faulted, passesGate] using ⟨herr, h0, h1⟩

/-- Steps 2 and 3: an illegal word that passes the gate is recorded and changes nothing else (R94, R95). -/
theorem commandWrite_of_illegal {s : State} {w : CmdWord} {e : DecodeError}
    (hgate : s.err = 0 ∨ opcField w = 0xF0 ∨ opcField w = 0xF1) (h : decode w = .error e) :
    commandWrite w s = .next { s with status := statusWord (decodeCause e) (opcField w) } := by
  have hpass : ¬ (s.faulted && !passesGate (opcField w)) = true := by
    rcases hgate with hg | hg | hg <;> simp [State.faulted, passesGate, hg]
  rw [commandWrite, if_neg hpass, h]
  cases e <;> rfl

/-- Settles O4: a word at the gate, then the three answers of the exact decoder. -/
theorem commandWriteOrder : Obligations.CommandWriteOrder := by
  refine fun w s => ⟨commandWrite_of_gated, fun hgate => ⟨fun hres => ?_, fun hdef hbits => ?_, fun hdef hbits => ?_⟩⟩
  · exact commandWrite_of_illegal (e := .opcode) hgate (decode_eq_opcode_iff.2 hres)
  · exact commandWrite_of_illegal (e := .field) hgate (decode_eq_field_iff.2 ⟨hdef, hbits⟩)
  · rcases decode_of_defined hdef with ⟨hnz, -⟩ | ⟨-, i, -, hok⟩
    · exact absurd hbits hnz
    · exact ⟨_, hok, commandWrite_of_passes hgate hok⟩

/-- A word with the opcode of `CLRERR` or `SRESET`, both of format O, is illegal when one of its bits 23:0 is 1 (R95). -/
theorem decode_of_badControl {w : CmdWord} (hopc : opcField w = 0xF0 ∨ opcField w = 0xF1)
    (h : w.extractLsb' 0 24 ≠ 0) : decode w = .error .field := by
  have hbits := (and_maskO_eq_zero_iff w).not.2 h
  rw [decode_eq_field_iff]
  rcases hopc with hopc | hopc <;> rw [hopc] <;> exact ⟨by decide, hbits⟩

/-- Settles O8: both opcodes pass the gate; `CLRERR` itself runs, and a bad word is recorded. -/
theorem clrerrUnfaults : Obligations.ClrerrUnfaults := by
  refine fun s => ⟨⟨_, commandWrite_of_passes (i := .clrerr) (.inr (.inl rfl)) rfl, rfl, rfl⟩, fun w hopc hbits => ?_⟩
  exact ⟨_, commandWrite_of_illegal (.inr hopc) (decode_of_badControl hopc hbits),
    raise_faulted .illegal .illegalField (opcField w) s, rfl⟩

end Sys2Proof.Machine
end

section
/-! SUPPORT. Reads of the stream: `READBIT` and `READBITS` on bits that are left (R131, R132), and groups got back in the
order they were put (R134). -/

namespace Sys2Proof.Machine

/-! ## Reads that complete -/

/-- A cursor moved on by `n` bits in the register. -/
theorem ofNat_toNat_add (p : Len) (n : Nat) : BitVec.ofNat 32 (p.toNat + n) = p + BitVec.ofNat 32 n := by
  rw [BitVec.ofNat_add, BitVec.ofNat_toNat, BitVec.setWidth_eq]

/-- `READBIT` with a bit left reads it (R131). -/
theorem exec_readbit_of_fits {s : State} (hfit : s.rpos.toNat + 1 ≤ s.blen.toNat) :
    exec .readbit s =
      .next (readInto ((if s.buf.bit s.rpos.toNat then 1 else 0), s.rpos.toNat + 1) s) := by
  refine congrArg Host.Outcome.next (primitive_ok ?_)
  rw [getBit_eq_ok.2 ⟨hfit, rfl⟩, ok_bind]

/-- `READBITS n` with `n` bits left reads them (R132). -/
theorem exec_readbits_of_fits {s : State} {n : Nat} (h1 : 1 ≤ n) (h64 : n ≤ 64)
    (hfit : s.rpos.toNat + n ≤ s.blen.toNat) :
    exec (.readbits n) s = .next (readInto (ofGroup (s.buf.bits s.rpos.toNat n), s.rpos.toNat + n) s) := by
  refine congrArg Host.Outcome.next (primitive_ok ?_)
  rw [checkCount_ok h1 h64, ok_bind, getBits_eq_ok.2 ⟨hfit, rfl⟩, ok_bind]

/-- The number of a group of stream bits, bit by bit: the first is the most significant (R123). -/
theorem getLsbD_ofGroup_bits (m : ByteMemory) (k : Nat) {n : Nat} (h64 : n ≤ 64) (i : Nat) :
    (ofGroup (m.bits k n)).getLsbD i = if i < n then m.bit (k + (n - 1 - i)) else false := by
  rw [getLsbD_ofGroup _ (by rwa [bits_length])]
  simp only [bits_length, bits_getElem]
  split <;> rfl

/-- Settles O20: the bits are left, so the reads complete; the group read is its bits, most significant first. -/
theorem readBits : Obligations.ReadBits := by
  refine ⟨fun s hfit => ?_, fun s n h1 h64 hfit => ⟨_, exec_readbits_of_fits h1 h64 hfit, rfl, ?_, fun j hj => ?_,
    fun j hj => ?_⟩⟩
  · rw [exec_readbit_of_fits hfit, readInto, ofNat_toNat_add]; rfl
  · exact ofNat_toNat_len (lt_of_le_of_lt hfit s.blen.isLt)
  · rw [readInto_val, getLsbD_ofGroup_bits _ _ h64, if_pos (by omega), show n - 1 - (n - 1 - j) = j by omega]
  · rw [readInto_val, getLsbD_ofGroup_bits _ _ h64, if_neg (by omega)]

/-! ## Groups put and got back (R134) -/

/-- The bits of groups put one after another. -/
def groupsBits (gs : List (Word × Nat)) : List Bool := gs.flatMap fun g => group g.1 g.2

theorem groupsBits_cons (g : Word × Nat) (gs : List (Word × Nat)) :
    groupsBits (g :: gs) = group g.1 g.2 ++ groupsBits gs := rfl

theorem groupsBits_length (gs : List (Word × Nat)) : (groupsBits gs).length = (gs.map Prod.snd).sum := by
  simp [groupsBits, List.length_flatMap]

theorem HoldsExactly.holdsAt {s : State} {bits : List Bool} (h : HoldsExactly s bits) : s.holdsAt 0 bits :=
  ⟨by rw [h.1, Nat.zero_add], h.2⟩

/-- Bits appended to a stream follow those it holds. -/
theorem HoldsExactly.append {s t : State} {bits bs : List Bool} (h : HoldsExactly s bits) (ha : Appended s t bs) :
    HoldsExactly t (bits ++ bs) := by
  obtain ⟨hlen, hbits⟩ := h
  have hnew := ha.bits
  obtain ⟨hblen, -, hbelow, -⟩ := ha
  have hold : t.buf.bits 0 bits.length = s.buf.bits 0 bits.length :=
    bits_congr fun j hj => hbelow _ (by omega)
  refine ⟨by rw [hblen, hlen, List.length_append], ?_⟩
  rw [List.length_append, bits_append, hold, hbits, Nat.zero_add, ← hlen, hnew]

/-- Groups that fit are put behind what the stream holds. -/
theorem putAll_holdsExactly (gs : List (Word × Nat)) {s : State} {bits : List Bool} (hs : s.Inv)
    (hbits : HoldsExactly s bits) (hw : ∀ g ∈ gs, 1 ≤ g.2 ∧ g.2 ≤ 64)
    (hfit : s.blen.toNat + (groupsBits gs).length ≤ s.bufBits) :
    ∃ t, putAll gs s = .next t ∧ t.Inv ∧ HoldsExactly t (bits ++ groupsBits gs) := by
  induction gs generalizing s bits with
  | nil => exact ⟨s, rfl, hs, by simpa [groupsBits] using hbits⟩
  | cons g gs ih =>
    obtain ⟨v, n⟩ := g
    obtain ⟨⟨h1, h64⟩, hw⟩ := List.forall_mem_cons.1 hw
    rw [groupsBits_cons, List.length_append, group_length] at hfit
    have hval : ({ s with val := v } : State).Inv := hs.withArguments s.first v s.count
    obtain ⟨m, hexec, hm⟩ := appendBits_holds { s with val := v } n hs.cfg h1 h64
      (show s.blen.toNat + n ≤ s.bufBits by omega)
    rw [← group_eq_range] at hm
    have hblen : m.blen.toNat = s.blen.toNat + n := by simpa using hm.1
    have hcap : m.bufBits = s.bufBits := by obtain ⟨-, -, -, -, hrest⟩ := hm; rw [hrest]; rfl
    obtain ⟨t, hput, ht, hall⟩ := ih ((exec_leads hexec).inv hval) (HoldsExactly.append (s := { s with val := v }) hbits hm)
      hw (by omega)
    refine ⟨t, ?_, ht, ?_⟩
    · rw [putAll, hexec]; exact hput
    · rwa [List.append_assoc] at hall

/-- Groups that stand from the read cursor on are got back, and the cursor ends behind them. -/
theorem getAll_of_holdsAt (gs : List (Word × Nat)) {s : State} (hw : ∀ g ∈ gs, 1 ≤ g.2 ∧ g.2 ≤ 64)
    (h : s.holdsAt s.rpos.toNat (groupsBits gs)) :
    ∃ u, GetAll (gs.map Prod.snd) (gs.map fun g => BitVec.ofNat 64 (g.1.toNat % 2 ^ g.2)) s u ∧
      u.rpos.toNat = s.rpos.toNat + (groupsBits gs).length := by
  induction gs generalizing s with
  | nil => exact ⟨s, ⟨rfl, rfl⟩, rfl⟩
  | cons g gs ih =>
    obtain ⟨v, n⟩ := g
    obtain ⟨⟨h1, h64⟩, hw⟩ := List.forall_mem_cons.1 hw
    rw [groupsBits_cons] at h ⊢
    obtain ⟨⟨hfit, hbits⟩, hrest⟩ := holdsAt_append.1 h
    rw [group_length] at hfit hbits hrest
    have hexec := exec_readbits_of_fits h1 h64 hfit
    have hrpos : (readInto (ofGroup (s.buf.bits s.rpos.toNat n), s.rpos.toNat + n) s).rpos.toNat = s.rpos.toNat + n :=
      ofNat_toNat_len (lt_of_le_of_lt hfit s.blen.isLt)
    obtain ⟨u, hget, hu⟩ := ih (s := readInto (ofGroup (s.buf.bits s.rpos.toNat n), s.rpos.toNat + n) s) hw
      (by rw [hrpos]; exact hrest)
    refine ⟨u, ⟨_, _, _, rfl, hexec, ?_, rfl, hget⟩, ?_⟩
    · rw [readInto_val, hbits, ofGroup, bitsToNat_group]
    · rw [hu, hrpos, List.length_append, group_length, Nat.add_assoc]

/-- `FINISH` keeps what the stream holds and adds bits up to the byte boundary (R124). -/
theorem exec_finish_holdsAt {t : State} {bits : List Bool} (ht : t.Inv) (h : HoldsExactly t bits) :
    ∃ f, exec .finish t = .next f ∧ f.blen.toNat = bits.length + (8 - bits.length % 8) % 8 ∧ f.holdsAt 0 bits := by
  have hlen := h.1
  obtain ⟨f, hexec, haligned, hpads, -⟩ := finishPads t ht
  refine ⟨f, hexec, ?_⟩
  by_cases h8 : t.blen.toNat % 8 = 0
  · rw [haligned h8]
    exact ⟨by omega, h.holdsAt⟩
  · have hall := h.append (hpads h8)
    refine ⟨?_, (holdsAt_append.1 hall.holdsAt).1⟩
    rw [hall.1, List.length_append, List.length_replicate]
    omega

/-- Settles O22: the puts leave exactly the groups' bits, `FINISH` keeps them, and reads of the same widths take them back
one by one. -/
theorem putGetRoundTrip : Obligations.PutGetRoundTrip := by
  intro s gs hs hempty hw hfit
  rw [← groupsBits_length] at hfit ⊢
  have hzero : s.blen.toNat = 0 := by rw [hempty]; rfl
  obtain ⟨t, hput, ht, hbits⟩ := putAll_holdsExactly gs (bits := []) hs ⟨hzero, rfl⟩ hw (by omega)
  rw [List.nil_append] at hbits
  obtain ⟨f, hfinish, hflen, hfbits⟩ := exec_finish_holdsAt ht hbits
  obtain ⟨u, hu, hurpos⟩ := getAll_of_holdsAt gs (s := { t with rpos := 0 }) hw hbits.holdsAt
  obtain ⟨v, hv, hvrpos⟩ := getAll_of_holdsAt gs (s := { f with rpos := 0 }) hw hfbits
  have hend {r : Len} (hr : r.toNat = (0 : Len).toNat + (groupsBits gs).length) : r = t.blen :=
    BitVec.eq_of_toNat_eq (by rw [hr, hbits.1]; exact Nat.zero_add _)
  exact ⟨t, f, u, v, hput, hbits.1, hfinish, hflen, hu, hend hurpos, hv, hend hvrpos⟩

end Sys2Proof.Machine
end

section
/-! SUPPORT. Where each primitive command raises, and what the raise leaves (R305). -/

namespace Sys2Proof.Machine

/-- A raise inside a primitive command leaves what R305 says. -/
theorem primitiveFailed_raise (s : State) (c : Cause) (opc : BitVec 8) :
    PrimitiveFailed s (raise .primitive c opc s) c opc :=
  ⟨rfl, fun k hk => by simp [hk], rfl⟩

theorem primitive_fails {opc : BitVec 8} {effect : State → Except Cause State} {s : State} {c : Cause}
    (h : effect s = .error c) : PrimitiveFailed s (primitive opc effect s) c opc := by
  rw [primitive_error h]
  exact primitiveFailed_raise s c opc

theorem checkCount_error {n : Nat} (h : n < 1 ∨ 64 < n) : checkCount n = .error .nbits := if_pos h

theorem toNat_setWidth_byte (b : Byte) : (b.setWidth 64 : Word).toNat = b.toNat := by
  have := b.isLt
  rw [BitVec.toNat_setWidth]; omega

/-! ## `VarGet` over continuation bytes (R291) -/

/-- `VarGet` goes on over continuation bytes: `m` of them from byte `i` on, none of them the tenth (R291). -/
theorem varGetFrom_continues {s : State} (m : Nat) {fuel k i : Nat} {u : Word} (hk : k + m ≤ 9)
    (hfit : 8 * (i + m) ≤ s.blen.toNat) (h : ∀ j, j < m → 128 ≤ (s.buf.byte (i + j)).toNat) :
    ∃ u', varGetFrom s (m + fuel) k u (8 * i) = varGetFrom s fuel (k + m) u' (8 * (i + m)) := by
  induction m generalizing k i u with
  | zero => exact ⟨u, by rw [Nat.zero_add]; rfl⟩
  | succ m ih =>
    have hbyte : 128 ≤ (s.buf.byte i).toNat := h 0 (by omega)
    obtain ⟨u', hu'⟩ := ih (k := k + 1) (i := i + 1) (by omega) (by omega) fun j hj => by
      rw [show i + 1 + j = i + (j + 1) by omega]
      exact h (j + 1) (by omega)
    refine ⟨u', ?_⟩
    rw [show m + 1 + fuel = m + fuel + 1 by omega, show k + (m + 1) = k + 1 + m by omega,
      show i + (m + 1) = i + 1 + m by omega, ← hu', varGetFrom, if_neg (by omega), getBits_byte (by omega), ok_bind,
      toNat_setWidth_byte]
    rw [if_neg (by omega), if_neg (by omega)]
    rfl

/-- Fewer than ten bytes left, all of them continuation bytes: the stream ends before a last byte (R291). -/
theorem varGet_eosVarint {s : State} {pos : Nat} (h8 : pos % 8 = 0) (hten : (s.blen.toNat - pos) / 8 < 10)
    (h : ∀ j, j < (s.blen.toNat - pos) / 8 → 128 ≤ (s.buf.byte (pos / 8 + j)).toNat) :
    varGet s pos = .error .eosVarint := by
  have hpos : 8 * (pos / 8) = pos := by omega
  by_cases hlast : s.blen.toNat - pos < 8
  · rw [varGet, varGetFrom, if_pos hlast]
  · obtain ⟨m, hm⟩ : ∃ m, (s.blen.toNat - pos) / 8 = m := ⟨_, rfl⟩
    rw [hm] at h hten
    obtain ⟨u', hu'⟩ := varGetFrom_continues m (fuel := 9 - m + 1) (k := 0) (u := 0) (by omega) (by omega) h
    rw [hpos] at hu'
    rw [varGet, show 10 = m + (9 - m + 1) by omega, hu', varGetFrom, if_pos (by omega)]

/-- Nine continuation bytes and a tenth byte above 1 (R291). -/
theorem varGet_varintOverflow {s : State} {pos : Nat} (h8 : pos % 8 = 0) (hten : 10 ≤ (s.blen.toNat - pos) / 8)
    (h : ∀ j, j < 9 → 128 ≤ (s.buf.byte (pos / 8 + j)).toNat) (htop : 1 < (s.buf.byte (pos / 8 + 9)).toNat) :
    varGet s pos = .error .varintOverflow := by
  have hpos : 8 * (pos / 8) = pos := by omega
  obtain ⟨u', hu'⟩ := varGetFrom_continues 9 (fuel := 1) (k := 0) (u := 0) (by omega) (by omega) h
  rw [hpos] at hu'
  refine hu'.trans ?_
  rw [varGetFrom, if_neg (by omega), getBits_byte (by omega), ok_bind, toNat_setWidth_byte, if_pos ⟨rfl, htop⟩]

/-- Settles O21: each command's effect meets its error before it writes or reads anything. -/
theorem primitiveErrors : Obligations.PrimitiveErrors := by
  intro s
  refine ⟨fun b hroom => ⟨_, rfl, primitive_fails (appendBits_eq_error.2 ⟨hroom, rfl⟩)⟩,
    fun n hn => ⟨_, rfl, primitive_fails ?_⟩, fun n h1 h64 hroom => ⟨_, rfl, primitive_fails ?_⟩,
    fun hleft => ⟨_, rfl, primitive_fails ?_⟩, fun n hn => ⟨_, rfl, primitive_fails ?_⟩,
    fun n h1 h64 hleft => ⟨_, rfl, primitive_fails ?_⟩, fun h8 => ⟨_, rfl, primitive_fails (if_pos h8)⟩,
    fun h8 hroom => ⟨_, rfl, primitive_fails ?_⟩, fun h8 => ⟨_, rfl, primitive_fails (if_pos h8)⟩,
    fun h8 hten hbytes => ⟨_, rfl, primitive_fails ?_⟩, fun h8 hten hbytes htop => ⟨_, rfl, primitive_fails ?_⟩⟩
  · rw [checkCount_error hn, error_bind]
  · rw [checkCount_ok h1 h64, ok_bind]
    exact appendBits_eq_error.2 ⟨by rwa [group_length], rfl⟩
  · rw [getBit_eq_error.2 ⟨hleft, rfl⟩, error_bind]
  · rw [checkCount_error hn, error_bind]
  · rw [checkCount_ok h1 h64, ok_bind, getBits_eq_error.2 ⟨hleft, rfl⟩, error_bind]
  · rw [if_neg (not_not.2 h8)]
    exact appendBits_eq_error.2 ⟨by rwa [varintBits_length], rfl⟩
  · rw [if_neg (not_not.2 h8), varGet_eosVarint h8 hten hbytes, error_bind]
  · rw [if_neg (not_not.2 h8), varGet_varintOverflow h8 hten hbytes htop, error_bind]

end Sys2Proof.Machine
end

section
/-! SUPPORT. A bit-packed body cut short (R135): a reader on a stream that stops early answers as on the longer stream, or
raises `EOS(BITS)`. -/

namespace Sys2Proof.Machine

/-! ## A stream and one that goes on behind it -/

/-- The stream of `w` begins with that of `u`, and the two states agree in whatever else a reader looks at. -/
structure Prolongs (u w : State) : Prop where
  blen_le : u.blen.toNat ≤ w.blen.toNat
  bit_eq : ∀ k, k < u.blen.toNat → u.buf.bit k = w.buf.bit k
  cfg_eq : w.cfg = u.cfg
  first_eq : w.first = u.first
  count_eq : w.count = u.count

/-- A read `x` of a stream that stops early, against the same read `y` of a longer one: where `y` answers, `x` answers the
same or finds too few bits. -/
def Truncates {α : Type} (x y : Except Cause α) : Prop := ∀ r, y = .ok r → x = .ok r ∨ x = .error .eosBits

section
variable {α β : Type}

theorem Truncates.refl (x : Except Cause α) : Truncates x x := fun _ h => .inl h

theorem Truncates.bind {x y : Except Cause α} {f g : α → Except Cause β} (h : Truncates x y)
    (hfg : ∀ a, Truncates (f a) (g a)) : Truncates (x >>= f) (y >>= g) := by
  intro r hr
  obtain ⟨a, hy, hg⟩ := bind_eq_ok.1 hr
  rcases h a hy with hx | hx
  · rw [hx, ok_bind]; exact hfg a r hg
  · rw [hx]; exact .inr rfl

theorem Truncates.ite {p : Prop} [Decidable p] {x y x' y' : Except Cause α} (h : Truncates x y)
    (h' : Truncates x' y') : Truncates (if p then x else x') (if p then y else y') := by
  split
  · exact h
  · exact h'

/-- The item loop, item by item. -/
theorem decodeItems_truncates {σ : Type} {dec dec' : σ → Nat → Except Cause (Word × σ × Nat)}
    (h : ∀ st pos, Truncates (dec st pos) (dec' st pos)) (n : Nat) (st : σ) (pos : Nat) :
    Truncates (decodeItems dec n st pos) (decodeItems dec' n st pos) := by
  induction n generalizing st pos with
  | zero => exact .refl _
  | succ n ih => exact (h st pos).bind fun r => (ih r.2.1 r.2.2).bind fun _ => .refl _

end

/-! ## The readers on the two streams -/

section
variable {u w : State} (h : Prolongs u w)
include h

theorem getBit_truncates (pos : Nat) : Truncates (getBit u pos) (getBit w pos) := by
  intro r hr
  obtain ⟨-, rfl⟩ := getBit_eq_ok.1 hr
  by_cases hfit : pos + 1 ≤ u.blen.toNat
  · exact .inl (getBit_eq_ok.2 ⟨hfit, by rw [h.bit_eq pos hfit]⟩)
  · exact .inr (getBit_eq_error.2 ⟨Nat.lt_of_not_le hfit, rfl⟩)

theorem getBits_truncates (pos n : Nat) : Truncates (getBits u pos n) (getBits w pos n) := by
  intro r hr
  obtain ⟨-, rfl⟩ := getBits_eq_ok.1 hr
  by_cases hfit : pos + n ≤ u.blen.toNat
  · have hbits : u.buf.bits pos n = w.buf.bits pos n := bits_congr fun j hj => h.bit_eq _ (by omega)
    exact .inl (getBits_eq_ok.2 ⟨hfit, by rw [hbits]⟩)
  · exact .inr (getBits_eq_error.2 ⟨Nat.lt_of_not_le hfit, rfl⟩)

/-- A tail of fewer than eight bits is one on the shorter stream too. -/
theorem endOfBits_truncates (r : List Word × Nat) : Truncates (endOfBits u r) (endOfBits w r) := by
  intro r' hr
  have hle := h.blen_le
  unfold endOfBits at hr ⊢
  split at hr
  · cases hr
  · next htail => exact .inl (by rw [if_neg (by omega)]; exact hr)

theorem readFramedHeader_truncates : Truncates (readFramedHeader u) (readFramedHeader w) := by
  unfold readFramedHeader
  rw [h.first_eq, h.count_eq]
  exact (getBits_truncates h _ _).bind fun _ => (getBits_truncates h _ _).bind fun _ => .refl _

theorem gorillaGetWindow_truncates (lay : Layout) (st : GorillaState) (pos : Nat) :
    Truncates (gorillaGetWindow u lay st pos) (gorillaGetWindow w lay st pos) :=
  (getBit_truncates h _).bind fun _ =>
    .ite ((getBits_truncates h _ _).bind fun _ => (getBits_truncates h _ _).bind fun _ => .refl _) (.refl _)

theorem gorillaGetItem_truncates (lay : Layout) (st : GorillaState) (pos : Nat) :
    Truncates (gorillaGetItem u lay st pos) (gorillaGetItem w lay st pos) :=
  (getBit_truncates h _).bind fun _ =>
    .ite ((gorillaGetWindow_truncates h lay st _).bind fun _ =>
      .ite (.refl _) ((getBits_truncates h _ _).bind fun _ => .refl _)) (.refl _)

theorem chimpGetXor_truncates (c : Nat) (pL : Option Nat) (pos : Nat) :
    Truncates (chimpGetXor u c pL pos) (chimpGetXor w c pL pos) := by
  refine .ite ?_ (.ite ?_ ?_)
  · exact (getBits_truncates h _ _).bind fun _ => (getBits_truncates h _ _).bind fun _ =>
      .ite (.refl _) ((getBits_truncates h _ _).bind fun _ => .refl _)
  · cases pL with
    | none => exact .refl _
    | some l => exact (getBits_truncates h _ _).bind fun _ => .refl _
  · exact (getBits_truncates h _ _).bind fun _ => (getBits_truncates h _ _).bind fun _ => .refl _

theorem chimpGetItem_truncates (st : ChimpState) (pos : Nat) :
    Truncates (chimpGetItem u st pos) (chimpGetItem w st pos) :=
  (getBits_truncates h _ _).bind fun _ =>
    .ite (.refl _) ((chimpGetXor_truncates h _ _ _).bind fun _ => .refl _)

theorem fpcGetItem_truncates (st : FpcState) (pos : Nat) : Truncates (fpcGetItem u st pos) (fpcGetItem w st pos) := by
  unfold fpcGetItem
  rw [h.cfg_eq]
  exact (getBit_truncates h _).bind fun _ => (getBits_truncates h _ _).bind fun _ =>
    (getBits_truncates h _ _).bind fun _ => .refl _

theorem getResidual_truncates (pos : Nat) : Truncates (getResidual u pos) (getResidual w pos) :=
  (getBits_truncates h _ _).bind fun _ => (getBits_truncates h _ _).bind fun _ =>
    .ite (.refl _) ((getBits_truncates h _ _).bind fun _ => .refl _)

theorem pdfcmGetShape_truncates (st : PdfcmState) (pos : Nat) :
    Truncates (pdfcmGetShape u st pos) (pdfcmGetShape w st pos) := by
  refine (getBits_truncates h _ _).bind fun _ => .ite ?entry (.ite ?raw (.ite ?dictionary ?predicted))
  case entry => exact (getBits_truncates h _ _).bind fun _ => .refl _
  case raw => exact getBits_truncates h _ _
  case dictionary =>
    exact (getBits_truncates h _ _).bind fun _ => (getResidual_truncates h _).bind fun _ => .refl _
  case predicted => exact (getResidual_truncates h _).bind fun _ => .refl _

theorem pdfcmGetItem_truncates (st : PdfcmState) (pos : Nat) :
    Truncates (pdfcmGetItem u st pos) (pdfcmGetItem w st pos) := by
  unfold pdfcmGetItem
  rw [h.cfg_eq]
  exact (getBit_truncates h _).bind fun _ => .ite ((pdfcmGetShape_truncates h st _).bind fun _ => .refl _) (.refl _)

theorem getNibble_truncates (pos : Nat) : Truncates (getNibble u pos) (getNibble w pos) :=
  (getBit_truncates h _).bind fun _ =>
    .ite ((getBits_truncates h _ _).bind fun _ => .ite (.refl _) ((getBit_truncates h _).bind fun _ => .refl _))
      (.refl _)

theorem getNibbles_truncates (n : Nat) (x : Word) (pos : Nat) :
    Truncates (getNibbles u n x pos) (getNibbles w n x pos) := by
  induction n generalizing x pos with
  | zero => exact .refl _
  | succ n ih => exact (getNibble_truncates h pos).bind fun _ => ih _ _

theorem huffGetItem_truncates (prev : Word) (pos : Nat) :
    Truncates (huffGetItem u prev pos) (huffGetItem w prev pos) :=
  (getNibbles_truncates h _ _ _).bind fun _ => .refl _

section
variable {σ : Type} {dec dec' : σ → Nat → Except Cause (Word × σ × Nat)}
  (hdec : ∀ st pos, Truncates (dec st pos) (dec' st pos))
include hdec

/-- The readers of the Gorilla framing. -/
theorem framed_truncates (start : Word → σ) :
    Truncates
      (readFramedHeader u >>= fun h => decodeItems dec (u.count.toNat - 1) (start h.1) h.2 >>= fun r =>
        endOfBits u (h.1 :: r.1, r.2))
      (readFramedHeader w >>= fun h => decodeItems dec' (w.count.toNat - 1) (start h.1) h.2 >>= fun r =>
        endOfBits w (h.1 :: r.1, r.2)) := by
  rw [h.count_eq]
  exact (readFramedHeader_truncates h).bind fun _ => (decodeItems_truncates hdec _ _ _).bind fun _ =>
    endOfBits_truncates h _

/-- The readers whose header is the item count in `width` bits. -/
theorem counted_truncates (start : σ) (width : Nat) :
    Truncates
      (getBits u 0 width >>= fun n => if n.1.toNat ≠ u.count.toNat then .error .countMismatch
        else decodeCheckedItems dec u start n.2 >>= endOfBits u)
      (getBits w 0 width >>= fun n => if n.1.toNat ≠ w.count.toNat then .error .countMismatch
        else decodeCheckedItems dec' w start n.2 >>= endOfBits w) := by
  unfold decodeCheckedItems
  rw [h.count_eq, h.first_eq]
  exact (getBits_truncates h _ _).bind fun _ => .ite (.refl _)
    (((hdec _ _).bind fun _ => .ite (.refl _) ((decodeItems_truncates hdec _ _ _).bind fun _ => .refl _)).bind fun _ =>
      endOfBits_truncates h _)

end

/-- Every bit-packed reader, on a stream that stops early, answers as on the longer one or raises `EOS(BITS)`. -/
theorem bitDecoder_truncates {d : Instr} (hd : d ∈ bitDecoders) :
    Truncates (decompressBody d u) (decompressBody d w) := by
  cases d with
  | gorillaD | gorillazD | gorillaplusD => exact framed_truncates h (gorillaGetItem_truncates h _) _
  | chimpD => exact framed_truncates h (chimpGetItem_truncates h) fun v => { prev := v, pL := none }
  | pdfcmD =>
    have hframed := framed_truncates h (pdfcmGetItem_truncates h) (PdfcmState.init u.cfg.fpcLog2)
    show Truncates (pdfcmRead u) (pdfcmRead w)
    unfold pdfcmRead
    rwa [h.cfg_eq]
  | fpcD => exact counted_truncates h (fpcGetItem_truncates h) _ _
  | huffD => exact counted_truncates h (huffGetItem_truncates h) _ _
  | _ => simp [bitDecoders] at hd

end

/-! ## A body that lost its last byte -/

/-- A block of one item or more by its first item. -/
theorem srcItems_eq_cons {s : State} (h : 1 ≤ s.slen.toNat) :
    ∃ vs, s.srcItems = s.srcAt 0 :: vs ∧ vs.length + 1 = s.slen.toNat :=
  ⟨_, srcItems_eq_range h, by rw [List.length_map, List.length_range, Nat.sub_add_cancel h]⟩

/-- The state with the whole of a body in its stream. -/
def State.withBody (u : State) (bits : List Bool) : State :=
  { u with buf := u.buf.setBits 0 bits, blen := BitVec.ofNat 32 bits.length }

theorem withBody_holdsExactly (u : State) {bits : List Bool} (hlen : bits.length < 2 ^ 32) :
    HoldsExactly (u.withBody bits) bits := ⟨ofNat_toNat_len hlen, bits_setBits _ _ _⟩

section
variable {u : State} {bits : List Bool} {first : Word} {n : Nat} (h : HoldsCut u bits first n)
include h

theorem HoldsCut.blen_lt : u.blen.toNat < bits.length := by
  obtain ⟨hlen, -⟩ := h
  rw [padding_length] at hlen
  omega

theorem HoldsCut.ready (hn : 1 ≤ n) (hroom : u.dlen.toNat + n ≤ u.cfg.vcap) : ReadyToDecode u := by
  obtain ⟨hlen, -, -, hcount⟩ := h
  have hmod := add_padding_mod bits.length
  refine ⟨by omega, fun h0 => ?_, by rwa [hcount]⟩
  rw [h0] at hcount
  exact absurd hcount (by simp; omega)

/-- The cut body is what the stream of the whole one begins with. -/
theorem HoldsCut.prolongs (hlen : bits.length < 2 ^ 32) : Prolongs u (u.withBody bits) := by
  have hlt := h.blen_lt
  obtain ⟨-, hbits, -⟩ := h
  refine ⟨?_, fun k hk => ?_, rfl, rfl, rfl⟩
  · rw [(withBody_holdsExactly u hlen).1]
    exact le_of_lt hlt
  · have hcut := (bits_eq_iff u.buf 0 (bits.take u.blen.toNat)).1
      (by rwa [List.length_take, Nat.min_eq_left (le_of_lt hlt)]) k (by rw [List.length_take]; omega)
    have hwhole := bit_setBits_at bits u.buf 0 k (by omega)
    rw [List.getElem_take, Nat.zero_add] at hcut
    rw [Nat.zero_add] at hwhole
    exact hcut.trans hwhole.symm

end

/-- A bit-packed reader that takes the whole body back stops at its end, and the cut stream ends before that: there it can
only raise `EOS(BITS)`. -/
theorem refusesCut_of_bitReader {d : Instr} (hd : d ∈ bitDecoders) {maxN : State → Nat}
    {body : State → List Word → Except Cause (List Bool)}
    (hread : ∀ (s u : State) (v0 : Word) (vs : List Word) (bits : List Bool), u.cfg.fpcLog2 = s.cfg.fpcLog2 →
      vs.length + 1 ≤ maxN s → body s (v0 :: vs) = .ok bits → u.first = v0 → u.count.toNat = vs.length + 1 →
      u.holdsAt 0 bits → decompressBody d u = endOfBits u (v0 :: vs, bits.length)) :
    RefusesCut d (fun _ => 1) maxN body [.eosBits] := by
  intro s u bits hs _ hlog h1 hmax hb _ hfit hcut hroom
  have hdec : d ∈ decompressCommands := List.mem_append_left _ (List.mem_append_left _ hd)
  have hready := hcut.ready h1 hroom
  have hlen : bits.length < 2 ^ 32 := lt_of_le_of_lt hfit hs.cfg.2.1
  have ⟨_, _, hfirst, hcount⟩ := hcut
  obtain ⟨vs, hvs, hitems⟩ := srcItems_eq_cons h1
  rw [hvs] at hb
  have hbody := withBody_holdsExactly u hlen
  have hwhole : decompressBody d (u.withBody bits) = .ok (s.srcAt 0 :: vs, bits.length) := by
    rw [hread s (u.withBody bits) _ vs bits hlog (by omega) hb hfirst (by rw [hitems]; exact hcount) hbody.holdsAt]
    exact if_neg (by rw [hbody.1]; simp)
  refine ⟨_, .eosBits, exec_decompressCommand hdec u, List.mem_singleton.2 rfl, decompress_bodyError hready ?_⟩
  rcases bitDecoder_truncates (hcut.prolongs hlen) hd _ hwhole with hok | herr
  · obtain ⟨-, hcursor⟩ := decompressBody_within hdec hready.2.1 hok
    exact absurd hcut.blen_lt (Nat.not_lt.2 hcursor)
  · exact herr

theorem gorilla_refusesCut {d : Instr} (lay : Layout) (hd : d ∈ bitDecoders)
    (hbody : decompressBody d = gorillaRead lay) :
    RefusesCut d (fun _ => 1) (fun _ => 16383) (fun _ vs => gorillaBody lay vs) [.eosBits] :=
  refusesCut_of_bitReader hd fun _ _ _ _ _ _ hn hb hf hc h => by
    rw [hbody, gorillaRead_readsBack hf hc lay hn hb h]

/-- Settles O55: each reader takes the whole body back, so on the cut one it runs out of bits. -/
theorem bitBodiesRefuseCut : Obligations.BitBodiesRefuseCut :=
  ⟨gorilla_refusesCut .g (by decide) rfl, gorilla_refusesCut .z (by decide) rfl, gorilla_refusesCut .p (by decide) rfl,
    refusesCut_of_bitReader (by decide) fun _ _ _ _ _ _ hn hb hf hc h => chimpRead_readsBack hf hc hn hb h,
    refusesCut_of_bitReader (by decide) fun _ _ _ _ _ hlog hn hb hf hc h =>
      fpcRead_readsBack hf hc hn (hlog ▸ hb) h,
    refusesCut_of_bitReader (by decide) fun _ _ _ _ _ hlog hn hb hf hc h =>
      pdfcmRead_readsBack hf hc hn (hlog ▸ hb) h,
    refusesCut_of_bitReader (by decide) fun _ _ _ _ _ _ hn hb hf hc h => huffRead_readsBack hf hc hn hb h⟩

end Sys2Proof.Machine
end

section
/-! SUPPORT. Exact pairs: a bit-packed reader that takes back what the encoder wrote makes the two commands exact (R154). -/

namespace Sys2Proof.Machine

theorem HoldsBody.ready {u : State} {bits : List Bool} {first : Word} {n : Nat} (h : HoldsBody u bits first n)
    (hn : 1 ≤ n) (hroom : u.dlen.toNat + n ≤ u.cfg.vcap) : ReadyToDecode u := by
  obtain ⟨hlen, -, -, hcount⟩ := h
  refine ⟨by rw [hlen]; exact add_padding_mod bits.length, fun h0 => ?_, by rwa [hcount]⟩
  rw [h0] at hcount
  exact absurd hcount (by simp; omega)

/-- A pair is exact where its reader takes every body back up to the tail check: the padding is no tail, so the reader
completes, and the compress command puts that body there. -/
theorem roundTrips_of_bitReader {c d : Instr} (hc : c ∈ compressCommands) (hd : d ∈ decompressCommands)
    {maxN : State → Nat} {body : State → List Word → Except Cause (List Bool)} (hmin : minItems c = 1)
    (hmax : ∀ s : State, maxItems c s.cfg.vcap = maxN s)
    (hbody : ∀ s : State, compressBody s.cfg.fpcLog2 c = body s)
    (hread : ∀ (s u : State) (v0 : Word) (vs : List Word) (bits : List Bool), u.cfg.fpcLog2 = s.cfg.fpcLog2 →
      vs.length + 1 ≤ maxN s → body s (v0 :: vs) = .ok bits → u.first = v0 → u.count.toNat = vs.length + 1 →
      u.holdsAt 0 bits → decompressBody d u = endOfBits u (v0 :: vs, bits.length)) :
    RoundTrips c d (fun _ => 1) maxN body := by
  intro s bits hs h1 hn hb hfit
  refine ⟨⟨_, exec_compressCommand hc s, ?_⟩, fun u hu hlog hheld hroom => ⟨_, exec_decompressCommand hd u, ?_⟩⟩
  · exact compress_ok hs (hmin ▸ h1) (hmax s ▸ hn) (hbody s ▸ hb) hfit
  · have ⟨_, _, hfirst, hcount⟩ := hheld
    obtain ⟨vs, hvs, hitems⟩ := srcItems_eq_cons h1
    have hanswer : decompressBody d u = .ok (s.srcItems, bits.length) := by
      rw [hvs] at hb
      rw [hread s u _ vs bits hlog (by omega) hb hfirst (by rw [hitems, hcount]) (holdsAt_of_body hheld), hvs]
      exact endOfBits_ok hheld _
    exact decompress_ok hu (decompressCheck_eq_ok.2 (hheld.ready h1 hroom)) hanswer
      (by rwa [srcItems_length]) (lt_of_le_of_lt hfit hs.cfg.2.1)

/-- The two commands of a layout are exact (R154). -/
theorem gorilla_roundTrips {c d : Instr} (lay : Layout) (hc : c ∈ compressCommands) (hd : d ∈ decompressCommands)
    (hmin : minItems c = 1) (hmax : ∀ vcap, maxItems c vcap = 16383)
    (hbody : ∀ log2, compressBody log2 c = gorillaBody lay) (hreader : decompressBody d = gorillaRead lay) :
    RoundTrips c d (fun _ => 1) (fun _ => 16383) (fun _ vs => gorillaBody lay vs) :=
  roundTrips_of_bitReader hc hd hmin (fun s => hmax s.cfg.vcap) (fun s => hbody s.cfg.fpcLog2)
    fun _ _ _ _ _ _ hn hb hf hcount h => by rw [hreader, gorillaRead_readsBack hf hcount lay hn hb h]

/-- Settles O34: each layout's reader takes every body back, record by record. -/
theorem gorillaExact : Obligations.GorillaExact :=
  ⟨gorilla_roundTrips .g (by decide) (by decide) rfl (fun _ => rfl) (fun _ => rfl) rfl,
    gorilla_roundTrips .z (by decide) (by decide) rfl (fun _ => rfl) (fun _ => rfl) rfl,
    gorilla_roundTrips .p (by decide) (by decide) rfl (fun _ => rfl) (fun _ => rfl) rfl⟩

end Sys2Proof.Machine
end

section
/-! SUPPORT. Where a bit-packed reader refuses the header of a body, in the order of its checks (R146, R173, R192, R205,
R267). -/

namespace Sys2Proof.Machine

/-- A decompress command past DecompressBegin whose reader raises. -/
theorem fails_of_reader {d : Instr} (hd : d ∈ decompressCommands) {u : State} (hr : ReadyToDecode u) {c : Cause}
    (h : decompressBody d u = .error c) : Fails d u c :=
  ⟨_, exec_decompressCommand hd u, decompress_bodyError hr h⟩

/-! ## Reading a field of the header -/

theorem toNat_ofGroup_bits (m : ByteMemory) (pos : Nat) {n : Nat} (hn : n ≤ 64) :
    (ofGroup (m.bits pos n)).toNat = bitsToNat (m.bits pos n) := by
  have hlt := bitsToNat_lt (m.bits pos n)
  rw [bits_length] at hlt
  rw [ofGroup, BitVec.toNat_ofNat]
  exact Nat.mod_eq_of_lt (lt_of_lt_of_le hlt (Nat.pow_le_pow_right (by omega) hn))

theorem getBits_of_fits {u : State} {pos n : Nat} (h : pos + n ≤ u.blen.toNat) :
    getBits u pos n = .ok (ofGroup (u.buf.bits pos n), pos + n) := getBits_eq_ok.2 ⟨h, rfl⟩

theorem getBits_of_short {u : State} {pos n : Nat} (h : u.blen.toNat < pos + n) : getBits u pos n = .error .eosBits :=
  getBits_eq_error.2 ⟨h, rfl⟩

theorem getBit_of_fits {u : State} {pos : Nat} (h : pos + 1 ≤ u.blen.toNat) :
    getBit u pos = .ok (u.buf.bit pos, pos + 1) := getBit_eq_ok.2 ⟨h, rfl⟩

theorem getBit_of_short {u : State} {pos : Nat} (h : u.blen.toNat < pos + 1) : getBit u pos = .error .eosBits :=
  getBit_eq_error.2 ⟨h, rfl⟩

/-! ## The Gorilla framing -/

section
variable {u : State}

/-- The header is cut short in the first value or in the count. -/
theorem readFramedHeader_of_short (h : u.blen.toNat < 78) : readFramedHeader u = .error .eosBits := by
  unfold readFramedHeader
  by_cases h64 : u.blen.toNat < 64
  · rw [getBits_of_short (by omega), error_bind]
  · rw [getBits_of_fits (by omega), ok_bind, getBits_of_short (by omega), error_bind]

/-- A header that is all there, up to its two comparisons. -/
theorem readFramedHeader_of_fits (h : 78 ≤ u.blen.toNat) :
    readFramedHeader u =
      if bitsToNat (u.buf.bits 64 14) ≠ u.count.toNat then .error .countMismatch
      else if bitsToNat (u.buf.bits 0 64) ≠ u.first.toNat then .error .firstMismatch
      else .ok (ofGroup (u.buf.bits 0 64), 78) := by
  have hfirst : ofGroup (u.buf.bits 0 64) ≠ u.first ↔ bitsToNat (u.buf.bits 0 64) ≠ u.first.toNat := by
    rw [← toNat_ofGroup_bits _ _ (le_refl 64), ne_eq, ne_eq, BitVec.toNat_inj]
  unfold readFramedHeader
  rw [getBits_of_fits (by omega), ok_bind, getBits_of_fits (by omega), ok_bind]
  simp only [Nat.zero_add, toNat_ofGroup_bits u.buf 64 (show 14 ≤ 64 by omega), hfirst]

end

/-- The decompress commands whose body begins with the Gorilla framing (R142, R171, R201). -/
def framedDecoders : List Instr := [.gorillaD, .gorillazD, .gorillaplusD, .chimpD, .pdfcmD]

theorem mem_framedDecoders {i : Instr} :
    i ∈ framedDecoders ↔ i = .gorillaD ∨ i = .gorillazD ∨ i = .gorillaplusD ∨ i = .chimpD ∨ i = .pdfcmD := by
  simp [framedDecoders]

/-- Each of them reads the framing's header first. -/
theorem framedDecoder_eq_bind {i : Instr} (hi : i ∈ framedDecoders) (u : State) :
    i ∈ decompressCommands ∧ ∃ rest, decompressBody i u = readFramedHeader u >>= rest := by
  rcases mem_framedDecoders.1 hi with rfl | rfl | rfl | rfl | rfl <;> exact ⟨by decide, _, rfl⟩

/-- What the header's checks raise, the command raises. -/
theorem framedDecoder_fails {i : Instr} (hi : i ∈ framedDecoders) {u : State} (hr : ReadyToDecode u) {c : Cause}
    (h : readFramedHeader u = .error c) : Fails i u c := by
  obtain ⟨hd, rest, hbody⟩ := framedDecoder_eq_bind hi u
  exact fails_of_reader hd hr (by rw [hbody, h, error_bind])

/-! ## The count alone -/

/-- `FPC.D` and `HUFF.D` read a count of 14 and of 16 bits first and compare it with `COUNT`. -/
theorem countedDecoder_eq_bind {row : Instr × Nat} (hrow : row ∈ [(Instr.fpcD, 14), (.huffD, 16)]) (u : State) :
    row.1 ∈ decompressCommands ∧ row.2 ≤ 64 ∧ ∃ rest : Word × Nat → Except Cause (List Word × Nat),
      decompressBody row.1 u = getBits u 0 row.2 >>= fun n =>
        if n.1.toNat ≠ u.count.toNat then .error .countMismatch else rest n := by
  simp only [List.mem_cons, List.not_mem_nil, or_false] at hrow
  rcases hrow with rfl | rfl <;> exact ⟨by decide, by decide, _, rfl⟩

section
variable {σ : Type} {u : State} {item : σ → Nat → Except Cause (Word × σ × Nat)} {st : σ} {width : Nat}

/-- A reader of a count in `width` bits whose count is `COUNT` raises what its first item raises, or `FIRST_MISMATCH`
where that item is another value than `FIRST` (R192, R267). -/
theorem counted_firstItem_error (hw : width ≤ 64) (hfit : width ≤ u.blen.toNat)
    (hcount : bitsToNat (u.buf.bits 0 width) = u.count.toNat) {c : Cause}
    (h : item st width = .error c ∨ c = .firstMismatch ∧ ∃ r, item st width = .ok r ∧ r.1 ≠ u.first) :
    (getBits u 0 width >>= fun n => if n.1.toNat ≠ u.count.toNat then .error .countMismatch
      else decodeCheckedItems item u st n.2 >>= endOfBits u) = .error c := by
  rw [getBits_of_fits (by omega), ok_bind, toNat_ofGroup_bits _ _ hw, if_neg (not_not.2 hcount), Nat.zero_add,
    decodeCheckedItems]
  rcases h with herr | ⟨rfl, r, hok, hne⟩
  · rw [herr, error_bind, error_bind]
  · rw [hok, ok_bind, if_pos hne, error_bind]

end

/-! ## The first item of FPC and of Huffman -/

/-- An FPC item is cut short in its predictor bit, in its byte count or in its residual bytes (R188). -/
theorem fpcGetItem_of_short {u : State} {pos : Nat} (st : FpcState)
    (h : u.blen.toNat < pos + 4 + 8 * (8 - bitsToNat (u.buf.bits (pos + 1) 3))) :
    fpcGetItem u st pos = .error .eosBits := by
  unfold fpcGetItem
  by_cases h1 : u.blen.toNat < pos + 1
  · rw [getBit_of_short h1, error_bind]
  rw [getBit_of_fits (by omega), ok_bind]
  by_cases h4 : u.blen.toNat < pos + 4
  · rw [getBits_of_short (by simp only; omega), error_bind]
  rw [getBits_of_fits (by simp only; omega), ok_bind]
  simp only [toNat_ofGroup_bits u.buf (pos + 1) (show 3 ≤ 64 by omega)]
  rw [getBits_of_short (by omega), error_bind]

/-- The first item of FPC is its residual: both predictors say 0 (R186, R187, R192). -/
theorem fpcGetItem_init {u : State} {pos : Nat}
    (h : pos + 4 + 8 * (8 - bitsToNat (u.buf.bits (pos + 1) 3)) ≤ u.blen.toNat) :
    ∃ st pos', fpcGetItem u FpcState.init pos =
      .ok (ofGroup (u.buf.bits (pos + 4) (8 * (8 - bitsToNat (u.buf.bits (pos + 1) 3)))), st, pos') := by
  have hpredict (sel : Bool) : (if sel then FpcState.init.dfcm.predict else FpcState.init.fcm.predict) = 0 := by
    cases sel <;> decide
  unfold fpcGetItem
  rw [getBit_of_fits (by omega), ok_bind, getBits_of_fits (by simp only; omega), ok_bind]
  simp only [toNat_ofGroup_bits u.buf (pos + 1) (show 3 ≤ 64 by omega)]
  rw [getBits_of_fits (by omega), ok_bind]
  simp only [hpredict, BitVec.ofNat_eq_ofNat, BitVec.xor_zero]
  exact ⟨_, _, rfl⟩

/-- The first item of Huffman is the value its sixteen codes spell (R267). -/
theorem huffGetItem_patternCodes {u : State} {pos : Nat} {x : Word} (h : u.holdsAt pos (patternCodes x)) :
    ∃ pos', huffGetItem u 0 pos = .ok (x, x, pos') := by
  have hcodes : (huffPutItem 0 x).1 = patternCodes x := by
    simp only [huffPutItem, BitVec.ofNat_eq_ofNat, BitVec.xor_zero]
    exact nibbleCodes_eq_flatMap x 16
  exact ⟨_, huffGetItem_putItem 0 x pos (hcodes ▸ h)⟩

/-! ## The statement -/

section
variable {u : State} (hr : ReadyToDecode u)
include hr

theorem framedDecoder_headerChecks {i : Instr} (hi : i ∈ framedDecoders) :
    (u.blen.toNat < 78 → Fails i u .eosBits) ∧
      (78 ≤ u.blen.toNat → bitsToNat (u.buf.bits 64 14) ≠ u.count.toNat → Fails i u .countMismatch) ∧
      (78 ≤ u.blen.toNat → bitsToNat (u.buf.bits 64 14) = u.count.toNat →
        bitsToNat (u.buf.bits 0 64) ≠ u.first.toNat → Fails i u .firstMismatch) := by
  refine ⟨fun h => ?_, fun h hcount => ?_, fun h hcount hfirst => ?_⟩ <;> refine framedDecoder_fails hi hr ?_
  · exact readFramedHeader_of_short h
  · rw [readFramedHeader_of_fits h, if_pos hcount]
  · rw [readFramedHeader_of_fits h, if_neg (not_not.2 hcount), if_pos hfirst]

theorem countedDecoder_headerChecks {row : Instr × Nat} (hrow : row ∈ [(Instr.fpcD, 14), (.huffD, 16)]) :
    (u.blen.toNat < row.2 → Fails row.1 u .eosBits) ∧
      (row.2 ≤ u.blen.toNat → bitsToNat (u.buf.bits 0 row.2) ≠ u.count.toNat → Fails row.1 u .countMismatch) := by
  obtain ⟨hd, hw, rest, hbody⟩ := countedDecoder_eq_bind hrow u
  refine ⟨fun h => ?_, fun h hcount => ?_⟩ <;> refine fails_of_reader hd hr ?_ <;> rw [hbody]
  · rw [getBits_of_short (by omega), error_bind]
  · rw [getBits_of_fits (by omega), ok_bind, toNat_ofGroup_bits _ _ hw, if_pos hcount]

/-- The first item of `FPC.D`, at bit 14: its residual bytes begin at bit 18. -/
theorem fpc_firstItemChecks (h14 : 14 ≤ u.blen.toNat) (hcount : bitsToNat (u.buf.bits 0 14) = u.count.toNat) {size : Nat}
    (hsize : size = 8 * (8 - bitsToNat (u.buf.bits 15 3))) :
    (u.blen.toNat < 18 + size → Fails .fpcD u .eosBits) ∧
      (18 + size ≤ u.blen.toNat → bitsToNat (u.buf.bits 18 size) ≠ u.first.toNat → Fails .fpcD u .firstMismatch) := by
  subst hsize
  refine ⟨fun h => ?_, fun h hfirst => ?_⟩ <;> refine fails_of_reader (by decide) hr ?_ <;>
    refine counted_firstItem_error (by omega) h14 hcount ?_
  · exact .inl (fpcGetItem_of_short _ h)
  · obtain ⟨st, pos, hitem⟩ := fpcGetItem_init h
    refine .inr ⟨rfl, _, hitem, fun heq => hfirst ?_⟩
    rw [← toNat_ofGroup_bits _ _ (by omega)]
    exact congrArg BitVec.toNat heq

theorem huff_firstItemCheck {x : Word} (hcount : bitsToNat (u.buf.bits 0 16) = u.count.toNat)
    (h : u.holdsAt 16 (patternCodes x)) (hx : x ≠ u.first) : Fails .huffD u .firstMismatch := by
  have hfit : 16 ≤ u.blen.toNat := le_trans (Nat.le_add_right _ _) h.1
  obtain ⟨pos, hitem⟩ := huffGetItem_patternCodes h
  exact fails_of_reader (by decide) hr (counted_firstItem_error (by omega) hfit hcount (.inr ⟨rfl, _, hitem, hx⟩))

end

/-- Settles O53: each reader's checks in their order, over bits that are read where they stand. -/
theorem headerChecks : Obligations.HeaderChecks := fun _ _ hr =>
  ⟨fun _ hi => framedDecoder_headerChecks hr hi, fun _ hrow => countedDecoder_headerChecks hr hrow,
    fun h14 hcount => fpc_firstItemChecks hr h14 hcount rfl, fun _ hcount h hx => huff_firstItemCheck hr hcount h hx⟩

end Sys2Proof.Machine
end

section
/-! SUPPORT. Where the readers of the Gorilla framing raise `CORRUPT(WINDOW)` (R146, R173, R205): the reader's state after
good records, by the formats, and what it answers on a record it cannot take. -/

namespace Sys2Proof.Machine

/-! ## Fields of a record -/

theorem numBits_length (k n : Nat) : (numBits k n).length = n := by simp [numBits]

/-- A number field read where it stands. -/
theorem getBits_numBits {u : State} {pos k n : Nat} (hn : n ≤ 64) (hk : k < 2 ^ n) (h : u.holdsAt pos (numBits k n)) :
    ∃ w : Word, getBits u pos n = .ok (w, pos + n) ∧ w.toNat = k := by
  rw [← groupNat_eq_numBits k hn] at h
  exact ⟨_, getBits_groupNat h, ofGroup_groupNat_toNat hn hk⟩

theorem holdsAt_cons {u : State} {pos : Nat} {b : Bool} {bs : List Bool} :
    u.holdsAt pos (b :: bs) ↔ u.holdsAt pos [b] ∧ u.holdsAt (pos + 1) bs := holdsAt_append (a := [b])

theorem holdsAt_code {u : State} {pos : Nat} {a b : Bool} {bs : List Bool} :
    u.holdsAt pos (a :: b :: bs) ↔ u.holdsAt pos [a, b] ∧ u.holdsAt (pos + 2) bs := holdsAt_append (a := [a, b])

/-- A code of two bits read where it stands. -/
theorem getBits_code {u : State} {pos : Nat} {a b : Bool} (h : u.holdsAt pos [a, b]) :
    getBits u pos 2 = .ok (ofGroup [a, b], pos + 2) := getBits_of_holdsAt h

/-! ## Good records, then a bad one -/

section
variable {σ : Type} {u : State} {v : Nat → Word} {c : Cause} {bad : List Bool}
  {dec : σ → Nat → Except Cause (Word × σ × Nat)}

/-- The item loop takes `m` good records and raises what the next item raises. -/
theorem decodeItems_error_after {st : Nat → σ} {record : Nat → List Bool}
    (hstep : ∀ k pos, u.holdsAt pos (record k) →
      dec (st k) pos = .ok (v (k + 1), st (k + 1), pos + (record k).length))
    {m n pos : Nat} (hmn : m < n) (hbad : ∀ pos, u.holdsAt pos bad → dec (st m) pos = .error c)
    (h : u.holdsAt pos ((List.range m).flatMap record ++ bad)) : decodeItems dec n (st 0) pos = .error c := by
  obtain ⟨k, rfl⟩ : ∃ k, n = m + k + 1 := ⟨n - m - 1, by omega⟩
  clear hmn
  induction m generalizing st record v pos with
  | zero => rw [decodeItems, hbad pos h, error_bind]
  | succ m ih =>
    rw [List.range_succ_eq_map, List.flatMap_cons, List.flatMap_map, List.append_assoc] at h
    obtain ⟨hrecord, hrest⟩ := holdsAt_append.1 h
    have hloop := ih (st := fun k => st (k + 1)) (v := fun k => v (k + 1)) (fun k => hstep (k + 1)) hbad hrest
    rw [show m + 1 + k + 1 = m + k + 1 + 1 by omega, decodeItems, hstep 0 pos hrecord, ok_bind, hloop, error_bind]

variable {enc : σ → Word → List Bool × σ} {P : σ → Prop}

/-- A reader of the Gorilla framing whose step undoes an encoder's step, on the framing, the records of `m` items and then
bits on which its step raises. `st k` is the state after `k` records. -/
theorem framed_error_after {st : Nat → σ} {record : Nat → List Bool}
    (hundo : ∀ st v pos, P st → u.holdsAt pos (enc st v).1 →
      dec st pos = .ok (v, (enc st v).2, pos + (enc st v).1.length))
    (hrecord : ∀ k, enc (st k) (v (k + 1)) = (record k, st (k + 1))) (hP : ∀ k, P (st k)) (start : Word → σ)
    (hstart : start (v 0) = st 0) (hfirst : u.first = v 0) {m : Nat} (hm : m + 1 < u.count.toNat)
    (hmax : u.count.toNat ≤ 16383) (hbad : ∀ pos, u.holdsAt pos bad → dec (st m) pos = .error c)
    (h : u.holdsAt 0 (framingBits (v 0) u.count.toNat ++ (List.range m).flatMap record ++ bad)) :
    (readFramedHeader u >>= fun h => decodeItems dec (u.count.toNat - 1) (start h.1) h.2 >>= fun r =>
      endOfBits u (h.1 :: r.1, r.2)) = .error c := by
  have hstep (k pos : Nat) (hk : u.holdsAt pos (record k)) :
      dec (st k) pos = .ok (v (k + 1), st (k + 1), pos + (record k).length) := by
    have := hundo (st k) (v (k + 1)) pos (hP k)
    rw [hrecord k] at this
    exact this hk
  rw [← framedHeader_eq_framingBits, List.append_assoc] at h
  obtain ⟨hhead, hitems⟩ := holdsAt_append.1 h
  rw [framedHeader_length] at hitems
  rw [readFramedHeader_ok hhead hfirst rfl (by omega), ok_bind]
  simp only [hstart]
  rw [decodeItems_error_after hstep (by omega) hbad hitems, error_bind]

end

/-! ## Gorilla -/

section
variable {u : State} {pos : Nat}

/-- A record that reuses the window where none was sent (R146). -/
theorem gorillaGetItem_noWindow {lay : Layout} {st : GorillaState} (hw : st.w = 0) (h : u.holdsAt pos [true, false]) :
    gorillaGetItem u lay st pos = .error .window := by
  obtain ⟨hone, hflag⟩ := holdsAt_cons.1 h
  rw [gorillaGetItem, getBit_of_holdsAt hone, ok_bind, if_pos rfl, gorillaGetWindow, getBit_of_holdsAt hflag, ok_bind,
    if_neg (by simp), ok_bind, if_pos (.inl hw)]

/-- A new window that reaches beyond 64 bits (R146). -/
theorem gorillaGetItem_wideWindow {lay : Layout} {st : GorillaState} {f w : Nat} (hf : f < 2 ^ lay.lw) (h1 : 1 ≤ w)
    (h64 : w ≤ 64) (hwide : 64 < lay.lead f + w)
    (h : u.holdsAt pos ([true, true] ++ numBits f lay.lw ++ numBits (w - 1) 6)) :
    gorillaGetItem u lay st pos = .error .window := by
  have hlw : lay.lw ≤ 64 := by cases lay <;> decide
  simp only [List.cons_append, List.nil_append] at h
  obtain ⟨hone, h⟩ := holdsAt_cons.1 h
  obtain ⟨hflag, h⟩ := holdsAt_cons.1 h
  rw [holdsAt_append, numBits_length] at h
  obtain ⟨hlead, hwidth⟩ := h
  obtain ⟨fw, hfw, rfl⟩ := getBits_numBits hlw hf hlead
  obtain ⟨ww, hww, hwval⟩ := getBits_numBits (by omega) (by omega) hwidth
  rw [gorillaGetItem, getBit_of_holdsAt hone, ok_bind, if_pos rfl, gorillaGetWindow, getBit_of_holdsAt hflag, ok_bind,
    if_pos rfl, hfw, ok_bind, hww, ok_bind, ok_bind, if_pos (.inr (by simp only [hwval]; omega))]

end

/-! ## Chimp -/

/-- The encoder's state before item `k + 1`, by the format (R172). -/
def chimpStateAt (v : Nat → Word) (k : Nat) : ChimpState := { prev := v k, pL := chimpKept v k }

theorem chimpLead_eq (x : Word) : chimpLead (clz x) = chimpLeading x := Nat.mul_comm _ _

/-- The encoder's item is the format's record, and its next state keeps the format's leading count (R171, R172). -/
theorem chimpPutItem_eq_record (v : Nat → Word) (k : Nat) :
    chimpPutItem (chimpStateAt v k) (v (k + 1)) = (chimpRecord v k, chimpStateAt v (k + 1)) := by
  have hprev : (chimpStateAt v k).prev = v k := rfl
  have hpL : (chimpStateAt v k).pL = chimpKept v k := rfl
  unfold chimpPutItem chimpRecord
  simp only [hprev, hpL, chimpLead_eq, group_eq_numBits, groupNat_eq_numBits _ (show 3 ≤ 64 by omega),
    groupNat_eq_numBits _ (show 6 ≤ 64 by omega), BitVec.toNat_ushiftRight, Nat.shiftRight_eq_div_pow, gt_iff_lt]
  by_cases hx : v k ^^^ v (k + 1) = 0
  · have hkept : chimpKept v (k + 1) = chimpKept v k := by rw [chimpKept, if_pos hx]
    rw [if_pos hx, if_pos hx]
    simp only [chimpStateAt, hkept]
  have hkept : chimpKept v (k + 1) = some (chimpLeading (v k ^^^ v (k + 1))) := by rw [chimpKept, if_neg hx]
  rw [if_neg hx, if_neg hx]
  by_cases htz : 6 < ctz (v k ^^^ v (k + 1))
  · rw [if_pos htz, if_pos htz]
    simp only [chimpStateAt, hkept]
  rw [if_neg htz, if_neg htz]
  by_cases hsame : chimpKept v k = some (chimpLeading (v k ^^^ v (k + 1)))
  · rw [if_pos hsame, if_pos hsame]
    simp only [chimpStateAt, hkept, hsame]
  · rw [if_neg hsame, if_neg hsame]
    simp only [chimpStateAt, hkept]

section
variable {u : State} {pos : Nat}

/-- What the code's XOR raises, the item raises: no code but `00` is without one (R173). -/
theorem chimpGetItem_xorError {st : ChimpState} {a b : Bool} (hcode : ofGroup [a, b] ≠ 0) (h : u.holdsAt pos [a, b])
    {c : Cause} (hx : chimpGetXor u (ofGroup [a, b]).toNat st.pL (pos + 2) = .error c) :
    chimpGetItem u st pos = .error c := by
  rw [chimpGetItem, getBits_code h, ok_bind, if_neg hcode, hx, error_bind]

/-- A `10` record where no leading count was sent (R173). -/
theorem chimpGetItem_noLead {st : ChimpState} (hp : st.pL = none) (h : u.holdsAt pos [true, false]) :
    chimpGetItem u st pos = .error .window := by
  have htwo : (ofGroup [true, false]).toNat = 2 := by decide
  refine chimpGetItem_xorError (by decide) h ?_
  rw [htwo, hp]
  rfl

/-- A `01` record whose leading count and width exceed 64 (R173). -/
theorem chimpGetItem_wide {st : ChimpState} {f w : Nat} (hf : f < 8) (h1 : 1 ≤ w) (h64 : w ≤ 64) (hwide : 64 < 2 * f + w)
    (h : u.holdsAt pos ([false, true] ++ numBits f 3 ++ numBits (w - 1) 6)) :
    chimpGetItem u st pos = .error .window := by
  have hone : (ofGroup [false, true]).toNat = 1 := by decide
  simp only [List.cons_append, List.nil_append] at h
  obtain ⟨hcode, h⟩ := holdsAt_code.1 h
  rw [holdsAt_append, numBits_length] at h
  obtain ⟨hlead, hwidth⟩ := h
  obtain ⟨fw, hfw, rfl⟩ := getBits_numBits (by omega) hf hlead
  obtain ⟨ww, hww, hwval⟩ := getBits_numBits (by omega) (by omega) hwidth
  refine chimpGetItem_xorError (by decide) hcode ?_
  unfold chimpGetXor
  rw [hone, if_pos rfl, hfw, ok_bind, hww, ok_bind]
  exact if_pos (by simp only [hwval]; omega)

end

/-! ## PDFCM -/

section
variable {u : State} {pos : Nat}

/-- A residual whose skipped bytes exceed 7 (R205). -/
theorem getResidual_overlong {l t : Nat} (hl : l < 8) (ht : t < 8) (hlong : 7 < l + t)
    (h : u.holdsAt pos (numBits t 3 ++ numBits l 3)) : getResidual u pos = .error .window := by
  rw [holdsAt_append, numBits_length] at h
  obtain ⟨htrail, hlead⟩ := h
  obtain ⟨tw, htw, rfl⟩ := getBits_numBits (by omega) ht htrail
  obtain ⟨lw, hlw, rfl⟩ := getBits_numBits (by omega) hl hlead
  rw [getResidual, htw, ok_bind, hlw, ok_bind, if_pos hlong]

/-- What the shape after the leading 1 bit raises, the item raises (R205). -/
theorem pdfcmGetItem_shapeError {st : PdfcmState} (h : u.holdsAt pos [true]) {c : Cause}
    (hshape : pdfcmGetShape u st (pos + 1) = .error c) : pdfcmGetItem u st pos = .error c := by
  rw [pdfcmGetItem, getBit_of_holdsAt h, ok_bind, if_pos rfl, hshape, error_bind]

/-- A predictor residual whose skipped bytes exceed 7 (R201, R205). -/
theorem pdfcmGetItem_overlongPredictor {st : PdfcmState} {l t : Nat} (hl : l < 8) (ht : t < 8) (hlong : 7 < l + t)
    (h : u.holdsAt pos ([true, false, true] ++ numBits t 3 ++ numBits l 3)) :
    pdfcmGetItem u st pos = .error .window := by
  have hcode : ofGroup [false, true] = 1 := by decide
  simp only [List.cons_append, List.nil_append] at h
  obtain ⟨hone, h⟩ := holdsAt_cons.1 h
  obtain ⟨hshape, hresid⟩ := holdsAt_code.1 h
  refine pdfcmGetItem_shapeError hone ?_
  rw [pdfcmGetShape, getBits_code hshape, ok_bind]
  simp only [hcode]
  rw [if_neg (by decide), if_neg (by decide), if_neg (by decide), getResidual_overlong hl ht hlong hresid, error_bind]

/-- A dictionary residual whose skipped bytes exceed 7 (R201, R205). -/
theorem pdfcmGetItem_overlongEntry {st : PdfcmState} {j l t : Nat} (hj : j < 8) (hl : l < 8) (ht : t < 8)
    (hlong : 7 < l + t) (h : u.holdsAt pos ([true, true, false] ++ numBits j 3 ++ numBits t 3 ++ numBits l 3)) :
    pdfcmGetItem u st pos = .error .window := by
  have hcode : ofGroup [true, false] = 2 := by decide
  simp only [List.append_assoc, List.cons_append, List.nil_append] at h
  obtain ⟨hone, h⟩ := holdsAt_cons.1 h
  obtain ⟨hshape, h⟩ := holdsAt_code.1 h
  rw [holdsAt_append, numBits_length] at h
  obtain ⟨hentry, hresid⟩ := h
  obtain ⟨jw, hjw, -⟩ := getBits_numBits (by omega) hj hentry
  refine pdfcmGetItem_shapeError hone ?_
  rw [pdfcmGetShape, getBits_code hshape, ok_bind]
  simp only [hcode]
  rw [if_neg (by decide), if_neg (by decide), if_pos (by decide), hjw, ok_bind,
    getResidual_overlong hl ht hlong hresid, error_bind]

end

/-! ## The statement -/

section
variable {u : State} {v : Nat → Word} {m : Nat} {bad : List Bool} (hr : ReadyToDecode u) (hfirst : u.first = v 0)
  (hm : m + 1 < u.count.toNat) (hmax : u.count.toNat ≤ 16383)
include hr hfirst hm hmax

theorem gorilla_fails_after {d : Instr} {lay : Layout} (hd : d ∈ decompressCommands)
    (hbody : decompressBody d = gorillaRead lay)
    (hbad : ∀ pos, u.holdsAt pos bad → gorillaGetItem u lay (gorillaStateAt lay v m) pos = .error .window)
    (h : u.holdsAt 0 (framingBits (v 0) u.count.toNat ++ (List.range m).flatMap (lay.format.record v) ++ bad)) :
    Fails d u .window := by
  refine fails_of_reader hd hr ?_
  rw [hbody]
  exact framed_error_after (st := gorillaStateAt lay v) (P := fun st => st.pl + st.w ≤ 64)
    (fun st v pos => gorillaGetItem_putItem lay st v pos) (gorillaPutItem_eq_record lay v) (window_le lay v)
    GorillaState.init rfl hfirst hm hmax hbad h

/-- The two records a layout refuses. -/
theorem gorilla_windowErrors {d : Instr} (lay : Layout) (hd : d ∈ decompressCommands)
    (hbody : decompressBody d = gorillaRead lay) :
    ((lay.format.window v m).2 = 0 →
      u.holdsAt 0 (framingBits (v 0) u.count.toNat ++ (List.range m).flatMap (lay.format.record v) ++ [true, false]) →
        Fails d u .window) ∧
      ∀ f w, f < 2 ^ lay.format.lw → 1 ≤ w → w ≤ 64 → 64 < lay.format.lead f + w →
        u.holdsAt 0 (framingBits (v 0) u.count.toNat ++ (List.range m).flatMap (lay.format.record v) ++
          ([true, true] ++ numBits f lay.format.lw ++ numBits (w - 1) 6)) → Fails d u .window := by
  have hfail := fun bad => gorilla_fails_after (bad := bad) hr hfirst hm hmax hd hbody
  rw [lay.format_lw, lay.format_lead]
  exact ⟨fun hw => hfail _ fun _ => gorillaGetItem_noWindow hw,
    fun f w hf h1 h64 hwide => hfail _ fun _ => gorillaGetItem_wideWindow hf h1 h64 hwide⟩

theorem chimp_fails_after
    (hbad : ∀ pos, u.holdsAt pos bad → chimpGetItem u (chimpStateAt v m) pos = .error .window)
    (h : u.holdsAt 0 (framingBits (v 0) u.count.toNat ++ (List.range m).flatMap (chimpRecord v) ++ bad)) :
    Fails .chimpD u .window :=
  fails_of_reader (by decide) hr (framed_error_after (st := chimpStateAt v) (P := fun _ => True)
    (fun st v pos _ => chimpGetItem_putItem st v pos) (chimpPutItem_eq_record v) (fun _ => trivial)
    (fun v0 => { prev := v0, pL := none }) rfl hfirst hm hmax hbad h)

theorem pdfcm_fails_after
    (hbad : ∀ pos, u.holdsAt pos bad →
      pdfcmGetItem u (pdfcmBefore u.cfg.fpcLog2 v (m + 1)) pos = .error .window)
    (h : u.holdsAt 0 (framingBits (v 0) u.count.toNat ++
      (List.range m).flatMap (pdfcmRecord (2 ^ u.cfg.fpcLog2) v) ++ bad)) : Fails .pdfcmD u .window :=
  fails_of_reader (by decide) hr (framed_error_after (st := fun k => pdfcmBefore u.cfg.fpcLog2 v (k + 1))
    (P := fun st => st.window.length = 8) (fun st v pos => pdfcmGetItem_putItem st v pos)
    (pdfcmPutItem_eq_record u.cfg.fpcLog2 v) (fun k => pdfcmBefore_window_length _ v (k + 1))
    (PdfcmState.init u.cfg.fpcLog2) rfl hfirst hm hmax hbad h)

end

/-- Settles O54: after the good records the reader's state is the one of the formats, and on the bad record its step
raises. -/
theorem windowErrors : Obligations.WindowErrors := by
  intro u v m _ hr hfirst hm hmax sent
  have hchimp := fun bad => chimp_fails_after (bad := bad) hr hfirst hm hmax
  have hpdfcm := fun bad => pdfcm_fails_after (bad := bad) hr hfirst hm hmax
  refine ⟨fun row hrow => ?gorilla, fun hnone => hchimp _ fun _ => chimpGetItem_noLead hnone,
    fun f w hf h1 h64 hwide => hchimp _ fun _ => chimpGetItem_wide hf h1 h64 hwide,
    fun l t hl ht hlong => ⟨hpdfcm _ fun _ => pdfcmGetItem_overlongPredictor hl ht hlong,
      fun j hj => hpdfcm _ fun _ => pdfcmGetItem_overlongEntry hj hl ht hlong⟩⟩
  case gorilla =>
    simp only [List.mem_cons, List.not_mem_nil, or_false] at hrow
    rcases hrow with rfl | rfl | rfl
    · exact gorilla_windowErrors hr hfirst hm hmax .g (by decide) rfl
    · exact gorilla_windowErrors hr hfirst hm hmax .z (by decide) rfl
    · exact gorilla_windowErrors hr hfirst hm hmax .p (by decide) rfl

end Sys2Proof.Machine
end

section
/-! SUPPORT. The Chimp pair is exact (R176), and its body by formula (R171, R172). -/

namespace Sys2Proof.Machine

/-- Settles O35: the reader takes every body back, record by record, and keeps the encoder's leading count as it goes. -/
theorem chimpExact : Obligations.ChimpExact :=
  roundTrips_of_bitReader (by decide) (by decide) rfl (fun _ => rfl) (fun _ => rfl)
    fun _ _ _ _ _ _ hn hb hf hcount h => chimpRead_readsBack hf hcount hn hb h

/-- The body of Chimp by formula (R171, R172). -/
theorem chimpBody_eq {s : State} (hs : 1 ≤ s.slen.toNat) :
    chimpBody s.srcItems = .ok (framingBits (s.srcAt 0) s.slen.toNat ++
      (List.range (s.slen.toNat - 1)).flatMap (chimpRecord s.srcAt)) := by
  rw [srcItems_eq_range hs]
  exact congrArg Except.ok (framedBody_eq (st := chimpStateAt s.srcAt) hs (chimpPutItem_eq_record s.srcAt))

/-- Settles O45: the encoder's previous item and leading count are the format's before every item, so the records are the
format's. -/
theorem chimpRecords : Obligations.ChimpRecords := fun _ hs h1 h2 hfit =>
  framed_compresses (i := .chimpC) (by decide) rfl rfl hs h1 h2 (chimpBody_eq h1) hfit

end Sys2Proof.Machine
end

section
/-! SUPPORT. The FPC pair is exact (R193), and its body by formula (R186 to R188). -/

namespace Sys2Proof.Machine

/-- Settles O36: encoder and decoder update both predictors with the same values, so the reader takes every body back,
item by item. -/
theorem fpcExact : Obligations.FpcExact :=
  roundTrips_of_bitReader (by decide) (by decide) rfl (fun _ => rfl) (fun _ => rfl)
    fun _ _ _ _ _ hlog hn hb hf hcount h => fpcRead_readsBack hf hcount hn (hlog ▸ hb) h

/-! ## The FCM predictor by formula (R186) -/

/-- The predictor is the one of the format before item `k`. -/
structure Fcm.Follows (p : Fcm) (size : Nat) (v : Nat → Word) (k : Nat) : Prop where
  index : p.fh = (fcmBefore size v k).2
  table : ∀ a, tableGet p.table a = (fcmBefore size v k).1 a

theorem Fcm.init_follows (size : Nat) (v : Nat → Word) : Fcm.init.Follows size v 0 := ⟨rfl, fun _ => rfl⟩

/-- The mask of the model is the remainder of the formula, its shifts are product and quotient (R186). -/
theorem Fcm.Follows.update {p : Fcm} {log2 : Nat} {v : Nat → Word} {k : Nat} (h : p.Follows (2 ^ log2) v k) :
    (p.update log2 (v k)).Follows (2 ^ log2) v (k + 1) := by
  obtain ⟨hindex, htable⟩ := h
  refine ⟨?_, fun a => ?_⟩
  · simp only [Fcm.update, fcmBefore, Nat.and_two_pow_sub_one_eq_mod, Nat.shiftLeft_eq, BitVec.toNat_ushiftRight,
      Nat.shiftRight_eq_div_pow, hindex]
  · simp only [Fcm.update, fcmBefore, tableGet_wordSet, hindex, htable]

theorem Fcm.Follows.predict {p : Fcm} {size : Nat} {v : Nat → Word} {k : Nat} (h : p.Follows size v k) :
    p.predict = (fcmBefore size v k).1 (fcmBefore size v k).2 := by
  rw [Fcm.predict, h.table, h.index]

/-! ## The items by formula (R188) -/

/-- The encoder's state before item `k`: all zero, then both predictors updated with every item (R191). -/
def fpcBefore (log2 : Nat) (v : Nat → Word) : Nat → FpcState
  | 0 => FpcState.init
  | k + 1 => (fpcBefore log2 v k).update log2 (v k)

theorem fpcBefore_fcm (log2 : Nat) (v : Nat → Word) (k : Nat) : (fpcBefore log2 v k).fcm.Follows (2 ^ log2) v k := by
  induction k with
  | zero => exact Fcm.init_follows _ v
  | succ k ih => exact ih.update

theorem fpcBefore_dfcm (log2 : Nat) (v : Nat → Word) (k : Nat) :
    (fpcBefore log2 v k).dfcm.Follows (2 ^ log2) v k := by
  induction k with
  | zero => exact Dfcm.init_follows _ v
  | succ k ih => exact ih.update

/-- The encoder's item is the format's (R188): its predictions are those of the formulas. -/
theorem fpcPutItem_eq_item (log2 : Nat) (v : Nat → Word) (k : Nat) :
    fpcPutItem log2 (fpcBefore log2 v k) (v k) = (fpcItem (2 ^ log2) v k, fpcBefore log2 v (k + 1)) := by
  refine Prod.ext ?_ rfl
  simp only [fpcPutItem, fpcItem, (fpcBefore_fcm log2 v k).predict, (fpcBefore_dfcm log2 v k).predict,
    group_eq_numBits, groupNat_eq_numBits _ (show 3 ≤ 64 by omega), gt_iff_lt, decide_eq_true_eq, List.singleton_append]

/-- The body of FPC by formula (R188, R191). -/
theorem fpcBody_eq (log2 : Nat) (s : State) : fpcBody log2 s.srcItems = .ok (numBits s.slen.toNat 14 ++
    (List.range s.slen.toNat).flatMap (fpcItem (2 ^ log2) s.srcAt)) := by
  rw [← encodeItems_srcItems (fpcPutItem_eq_item log2 s.srcAt), ← groupNat_eq_numBits _ (by omega), ← srcItems_length]
  rfl

/-- Settles O46: the encoder's predictors are the format's before every item, so the items are the format's. -/
theorem fpcRecords : Obligations.FpcRecords := fun s hs h1 h2 hfit =>
  framed_compresses (i := .fpcC) (by decide) rfl rfl hs h1 h2 (fpcBody_eq _ s) hfit

end Sys2Proof.Machine
end

section
/-! SUPPORT. The PDFCM pair is exact (R208). -/

namespace Sys2Proof.Machine

/-- Settles O37: the decoder's window and predictor take the values the encoder's took (R208), so with equal `FPC_LOG2`
the reader takes every body back, record by record. -/
theorem pdfcmExact : Obligations.PdfcmExact :=
  roundTrips_of_bitReader (by decide) (by decide) rfl (fun _ => rfl) (fun _ => rfl)
    fun _ _ _ _ _ hlog hn hb hf hcount h => pdfcmRead_readsBack hf hcount hn (hlog ▸ hb) h

end Sys2Proof.Machine
end

section
/-! SUPPORT. Exact pairs of the byte-stream bodies: the residual schemes (R243), `Const` and `DeltaConst` (R236 to R239). -/

namespace Sys2Proof.Machine

theorem blen_ne_zero {u : State} (h : 1 ≤ u.blen.toNat) : u.blen ≠ 0 := fun h0 => by simp [h0] at h

theorem one_le_minItems (c : Instr) : 1 ≤ minItems c := by
  unfold minItems
  split <;> omega

/-- A pair is exact where its reader takes back every body the encoder writes, whatever pads it. -/
theorem roundTrips_of_reader {c d : Instr} (hc : c ∈ compressCommands) (hd : d ∈ decompressCommands)
    (hread : ∀ (log2 : Nat) (u : State) (v0 : Word) (vs : List Word) (bits : List Bool), minItems c ≤ vs.length + 1 →
      compressBody log2 c (v0 :: vs) = .ok bits → HoldsBody u bits v0 (vs.length + 1) →
        decompressBody d u = .ok (v0 :: vs, bits.length)) :
    RoundTrips c d (fun _ => minItems c) (fun s => maxItems c s.cfg.vcap) fun s => compressBody s.cfg.fpcLog2 c := by
  intro s bits hs hmin hmax hb hfit
  refine ⟨⟨_, exec_compressCommand hc s, compress_ok hs hmin hmax hb hfit⟩, fun u hu _ hheld hroom =>
    ⟨_, exec_decompressCommand hd u, ?_⟩⟩
  have h1 : 1 ≤ s.slen.toNat := le_trans (one_le_minItems c) hmin
  have hready := hheld.ready h1 hroom
  obtain ⟨vs, hvs, hlen⟩ := srcItems_eq_cons h1
  rw [hvs] at hb
  rw [← hlen] at hmin hheld
  have hanswer : decompressBody d u = .ok (s.srcItems, bits.length) := by
    rw [hread _ u _ vs bits hmin hb hheld, hvs]
  exact decompress_ok hu (decompressCheck_eq_ok.2 hready) hanswer (by rwa [srcItems_length])
    (lt_of_le_of_lt hfit hs.cfg.2.1)

/-! ## Residual schemes -/

/-- The body of a residual scheme is whole bytes (R241). -/
theorem residBody_mod {k : Scheme} {vs : List Word} {bits : List Bool} (h : residBody k vs = .ok bits) :
    bits.length % 8 = 0 := by
  cases vs with
  | nil => cases h; rfl
  | cons v0 vs => cases h; exact encodeItems_resid_mod k vs _

/-- The two commands of a residual scheme are exact (R243). -/
theorem resid_roundTrips {c d : Instr} (k : Scheme) (hc : c ∈ compressCommands) (hd : d ∈ decompressCommands)
    (hbody : ∀ log2, compressBody log2 c = residBody k) (hreader : decompressBody d = residRead k) :
    RoundTrips c d (fun _ => minItems c) (fun s => maxItems c s.cfg.vcap) fun s => compressBody s.cfg.fpcLog2 c :=
  roundTrips_of_reader hc hd fun log2 u v0 vs bits _ hb hheld => by
    have ⟨_, _, hfirst, hcount⟩ := hheld
    rw [hbody log2] at hb
    rw [hreader, residRead_readsBack hfirst hcount k hb (holdsAt_of_body hheld), endOfBytes_ok hheld (residBody_mod hb)]

/-- Settles O38: each scheme's decoding step undoes its residual, so the reader takes every body back, varint by varint. -/
theorem residualExact : Obligations.ResidualExact :=
  ⟨resid_roundTrips .delta (by decide) (by decide) (fun _ => rfl) rfl,
    resid_roundTrips .delta2 (by decide) (by decide) (fun _ => rfl) rfl,
    resid_roundTrips .xorDelta (by decide) (by decide) (fun _ => rfl) rfl,
    resid_roundTrips .deltaXor (by decide) (by decide) (fun _ => rfl) rfl,
    resid_roundTrips .plain (by decide) (by decide) (fun _ => rfl) rfl⟩

/-! ## Equal items and constant differences -/

/-- `CONST.C` takes the blocks of equal items and no other (R236). -/
theorem constBody_cons (v0 : Word) (vs : List Word) :
    constBody (v0 :: vs) = if ∀ v ∈ v0 :: vs, v = v0 then .ok [] else .error .notConst := by
  simp [constBody]

/-- `DELTACONST.C` takes the blocks of two items or more of constant difference and no other of that length (R238). -/
theorem deltaconstBody_cons_cons (v0 v1 : Word) (vs : List Word) :
    deltaconstBody (v0 :: v1 :: vs) =
      if ∀ d ∈ differences (v0 :: v1 :: vs), d = v1 - v0 then .ok (varintBits (v1 - v0)) else .error .notConst := by
  simp [deltaconstBody, differences]

theorem constRead_of_empty {u : State} (h : u.blen = 0) :
    constRead u = .ok (List.replicate u.count.toNat u.first, 0) := if_neg (not_not.2 h)

/-- `DELTACONST.D` on a stream that begins with a varint, up to its tail check (R239). -/
theorem deltaconstRead_varint {u : State} {dd : Word} (h : u.holdsAt 0 (varintBits dd)) :
    deltaconstRead u = endOfBytes u (progression dd u.count.toNat u.first, (varintBits dd).length) := by
  have hlen := h.1
  have hpos := varintBits_length_bounds dd
  rw [deltaconstRead, if_neg (blen_ne_zero (by omega)), varGet_varintBits h, ok_bind, Nat.zero_add]

/-- A block of equal items is its first item, `COUNT` times (R237). -/
theorem const_roundTrips : RoundTrips .constC .constD (fun _ => 1) (fun s => s.cfg.vcap) fun _ vs => constBody vs :=
  roundTrips_of_reader (by decide) (by decide) fun _ u v0 vs bits _ hb hheld => by
    obtain ⟨hlen, -, hfirst, hcount⟩ := hheld
    have hb : constBody (v0 :: vs) = .ok bits := hb
    obtain rfl := constBody_eq_ok hb
    rw [constBody_cons] at hb
    split at hb
    · next hall =>
      have hempty : u.blen = 0 := BitVec.eq_of_toNat_eq hlen
      have hblock := List.eq_replicate_of_mem hall
      show constRead u = _
      rw [constRead_of_empty hempty, hcount, hfirst, ← List.length_cons (a := v0), ← hblock]
      rfl
    · cases hb

/-- A block of constant difference is the progression of its first item and that difference (R239). -/
theorem deltaconst_roundTrips :
    RoundTrips .deltaconstC .deltaconstD (fun _ => 2) (fun s => s.cfg.vcap) fun _ vs => deltaconstBody vs :=
  roundTrips_of_reader (by decide) (by decide) fun _ u v0 vs bits hmin hb hheld => by
    have ⟨_, _, hfirst, hcount⟩ := hheld
    have hb : deltaconstBody (v0 :: vs) = .ok bits := hb
    obtain ⟨v1, rest, rfl⟩ : ∃ v1 rest, vs = v1 :: rest :=
      List.exists_cons_of_length_pos (Nat.le_of_succ_le_succ hmin)
    rw [deltaconstBody_cons_cons] at hb
    split at hb
    · next hall =>
      cases hb
      have hmod : (varintBits (v1 - v0)).length % 8 = 0 := by rw [varintBits_length]; omega
      show deltaconstRead u = _
      rw [deltaconstRead_varint (holdsAt_of_body hheld), endOfBytes_ok hheld hmod, hcount, hfirst,
        progression_differences _ _ _ hall]
    · cases hb

/-- Settles O39: on a block that `CONST.C` or `DELTACONST.C` takes, the decoder's items are the block's. -/
theorem constFamilyExact : Obligations.ConstFamilyExact := ⟨const_roundTrips, deltaconst_roundTrips⟩

end Sys2Proof.Machine
end

section
/-! SUPPORT. A block by its neighbouring items: the differences and XORs by index (R220, R270), what `CONST.C` and
`DELTACONST.C` answer on it (R236, R238), and the selector's choice of the two (R275, R279). -/

namespace Sys2Proof.Machine

/-! ## Neighbours by index -/

theorem differences_eq_zipWith : ∀ vs : List Word, differences vs = List.zipWith (fun a b => b - a) vs vs.tail
  | [] | [_] => rfl
  | v0 :: v1 :: vs => congrArg ((v1 - v0) :: ·) (differences_eq_zipWith (v1 :: vs))

theorem pairXors_eq_zipWith : ∀ vs : List Word, pairXors vs = List.zipWith (fun a b => b ^^^ a) vs vs.tail
  | [] | [_] => rfl
  | v0 :: v1 :: vs => congrArg ((v1 ^^^ v0) :: ·) (pairXors_eq_zipWith (v1 :: vs))

/-- What is computed from each item of the block and its successor, by index. -/
theorem zipWith_srcItems_tail (f : Word → Word → Word) (s : State) :
    List.zipWith f s.srcItems s.srcItems.tail =
      (List.range (s.slen.toNat - 1)).map fun k => f (s.srcAt k) (s.srcAt (k + 1)) :=
  List.ext_getElem (by simp [State.srcItems]) fun j _ _ => by simp [State.srcItems]

theorem differences_srcItems (s : State) :
    differences s.srcItems = (List.range (s.slen.toNat - 1)).map fun k => s.srcAt (k + 1) - s.srcAt k := by
  rw [differences_eq_zipWith, zipWith_srcItems_tail]

theorem pairXors_srcItems (s : State) :
    pairXors s.srcItems = (List.range (s.slen.toNat - 1)).map fun k => s.srcAt (k + 1) ^^^ s.srcAt k := by
  rw [pairXors_eq_zipWith, zipWith_srcItems_tail]

/-! ## `CONST.C` and `DELTACONST.C` on a block -/

/-- Every item of the block is its first (R236). -/
def State.EqualItems (s : State) : Prop := ∀ i, i < s.slen.toNat → s.srcAt i = s.srcAt 0

/-- Every difference of neighbours in the block is its first (R238). -/
def State.EqualDifferences (s : State) : Prop :=
  ∀ i, i + 1 < s.slen.toNat → s.srcAt (i + 1) - s.srcAt i = s.srcAt 1 - s.srcAt 0

theorem forall_srcItems_eq_iff {s : State} : (∀ v ∈ s.srcItems, v = s.srcAt 0) ↔ s.EqualItems := by
  simp [State.srcItems, State.EqualItems]

theorem forall_differences_eq_iff {s : State} :
    (∀ d ∈ differences s.srcItems, d = s.srcAt 1 - s.srcAt 0) ↔ s.EqualDifferences := by
  simp only [differences_srcItems, List.forall_mem_map, List.mem_range, State.EqualDifferences, Nat.lt_sub_iff_add_lt]

/-- The block of two items or more by its first two. -/
theorem srcItems_eq_cons_cons {s : State} (h : 2 ≤ s.slen.toNat) :
    ∃ vs, s.srcItems = s.srcAt 0 :: s.srcAt 1 :: vs := by
  obtain ⟨n, hn⟩ : ∃ n, s.slen.toNat - 1 = n + 1 := ⟨s.slen.toNat - 2, by omega⟩
  rw [srcItems_eq_range (by omega), hn, List.range_succ_eq_map, List.map_cons]
  exact ⟨_, rfl⟩

section
variable {s : State}

theorem constBody_of_equalItems (h1 : 1 ≤ s.slen.toNat) (h : s.EqualItems) : constBody s.srcItems = .ok [] := by
  obtain ⟨vs, hvs, -⟩ := srcItems_eq_cons h1
  rw [← forall_srcItems_eq_iff, hvs] at h
  rw [hvs, constBody_cons, if_pos h]

theorem constBody_of_unequal (h1 : 1 ≤ s.slen.toNat) (h : ¬ s.EqualItems) :
    constBody s.srcItems = .error .notConst := by
  obtain ⟨vs, hvs, -⟩ := srcItems_eq_cons h1
  rw [← forall_srcItems_eq_iff, hvs] at h
  rw [hvs, constBody_cons, if_neg h]

theorem deltaconstBody_of_equalDifferences (h2 : 2 ≤ s.slen.toNat) (h : s.EqualDifferences) :
    deltaconstBody s.srcItems = .ok (varintBits (s.srcAt 1 - s.srcAt 0)) := by
  obtain ⟨vs, hvs⟩ := srcItems_eq_cons_cons h2
  rw [← forall_differences_eq_iff, hvs] at h
  rw [hvs, deltaconstBody_cons_cons, if_pos h]

theorem deltaconstBody_of_unequal (h2 : 2 ≤ s.slen.toNat) (h : ¬ s.EqualDifferences) :
    deltaconstBody s.srcItems = .error .notConst := by
  obtain ⟨vs, hvs⟩ := srcItems_eq_cons_cons h2
  rw [← forall_differences_eq_iff, hvs] at h
  rw [hvs, deltaconstBody_cons_cons, if_neg h]

/-- `CONST.C` on equal items completes with the empty body (R236). -/
theorem constC_compressed (hs : s.Inv) (h1 : 1 ≤ s.slen.toNat) (h : s.EqualItems) :
    Compressed s (compress Instr.constC.opc 1 s.cfg.vcap constBody s) [] :=
  compress_ok hs h1 hs.slen_le (constBody_of_equalItems h1 h) (Nat.zero_le _)

/-- `DELTACONST.C` on a constant difference completes with its varint, where that fits `BUF` (R238). -/
theorem deltaconstC_compressed (hs : s.Inv) (h2 : 2 ≤ s.slen.toNat) (h : s.EqualDifferences)
    (hfit : (varintBits (s.srcAt 1 - s.srcAt 0)).length ≤ s.bufBits) :
    Compressed s (compress Instr.deltaconstC.opc 2 s.cfg.vcap deltaconstBody s)
      (varintBits (s.srcAt 1 - s.srcAt 0)) :=
  compress_ok hs h2 hs.slen_le (deltaconstBody_of_equalDifferences h2 h) hfit

end

/-- Settles O49: the block decides the encoder's answer, and the length of the one varint whether it fits. -/
theorem constCompress : Obligations.ConstCompress := by
  refine fun s hs => ⟨fun h1 => ⟨_, rfl, constC_compressed hs h1, fun hne => ?notEqual⟩,
    fun h2 => ⟨_, rfl, fun heq => ⟨fun hfit => ?fits, fun hfull => ?full⟩, fun hne => ?notConstant⟩⟩
  case notEqual => exact compress_bodyError h1 hs.slen_le (constBody_of_unequal h1 hne)
  case fits => exact deltaconstC_compressed hs h2 heq (by rwa [varintBits_length])
  case full =>
    exact compress_overflow h2 hs.slen_le (deltaconstBody_of_equalDifferences h2 heq) (by rwa [varintBits_length])
  case notConstant => exact compress_bodyError h2 hs.slen_le (deltaconstBody_of_unequal h2 hne)

/-! ## The selector -/

theorem pop_le (x : Word) : pop x ≤ 64 := List.countP_le_length.trans_eq (group_length x 64)

/-- Only 0 has no 1 bit (R8). -/
theorem eq_zero_of_pop_eq_zero {x : Word} (h : pop x = 0) : x = 0 := by
  rw [pop, List.countP_eq_zero] at h
  refine BitVec.eq_of_getLsbD_eq fun i hi => ?_
  have hbit := h _ (List.getElem_mem (l := group x 64) (n := 63 - i) (by simp; omega))
  rw [group_getElem, show 64 - 1 - (63 - i) = i by omega] at hbit
  simpa using hbit

/-- The sum of `SUMBITS` takes at most 64 bits for each pair (R30, R270). -/
theorem sumBitsOf_le (vs : List Word) : sumBitsOf vs ≤ 64 * (vs.length - 1) := by
  have h := List.sum_le_card_nsmul ((pairXors vs).map pop) 64 (by simpa using fun x _ => pop_le x)
  rw [List.length_map, pairXors_length, smul_eq_mul] at h
  rw [sumBitsOf]
  omega

/-- In a block whose neighbours differ in no bit every item is the first (R270). -/
theorem equalItems_of_sumBits {s : State} (h : sumBitsOf s.srcItems = 0) : s.EqualItems := by
  have hstep (i : Nat) (hi : i + 1 < s.slen.toNat) : s.srcAt (i + 1) = s.srcAt i := by
    have hmem : pop (s.srcAt (i + 1) ^^^ s.srcAt i) ∈ (pairXors s.srcItems).map pop := by
      rw [pairXors_srcItems]
      exact List.mem_map_of_mem (List.mem_map.2 ⟨i, List.mem_range.2 (by omega), rfl⟩)
    exact eq_of_xor_eq_zero (eq_zero_of_pop_eq_zero (List.sum_eq_zero_iff.1 h _ hmem))
  intro i hi
  induction i with
  | zero => rfl
  | succ i ih => rw [hstep i hi, ih (by omega)]

/-- The selector's `Const`: at most one item, or a sum of bits of 0 (R275). -/
theorem of_select_eq_const {s : State} (h : select s = .const) : s.slen.toNat ≤ 1 ∨ s.sumbits = 0 := by
  unfold select at h
  split_ifs at h with hone htwo hsum
  · exact .inl hone
  · exact .inr hsum

/-- The selector's `DeltaConst`: exactly two items (R275). -/
theorem of_select_eq_deltaConst {s : State} (h : select s = .deltaConst) : s.slen.toNat = 2 := by
  unfold select at h
  split_ifs at h with hone htwo
  exact htwo

theorem MarshalType.code_eq_zero {m : MarshalType} (h : m.code = 0) : m = .const := by
  cases m with
  | const => rfl
  | _ => cases h

theorem MarshalType.code_eq_one {m : MarshalType} (h : m.code = 1) : m = .deltaConst := by
  cases m with
  | deltaConst => rfl
  | _ => cases h

/-- A block for which the selector says `Const` has equal items (R279). -/
theorem equalItems_of_select {s : State} (hs : s.Inv) (h : select (statsPass s) = .const) : s.EqualItems := by
  rcases of_select_eq_const h with hone | hsum
  · intro i hi
    rw [statsPass_slen] at hone
    rw [show i = 0 by omega]
  · have hle := sumBitsOf_le s.srcItems
    have hslen := hs.slen_le
    have hcap := hs.cfg.2.2.2
    rw [srcItems_length] at hle
    have hreg : (statsPass s).sumbits.toNat = sumBitsOf s.srcItems := ofNat_toNat_len (by omega)
    rw [hsum] at hreg
    exact equalItems_of_sumBits hreg.symm

/-- Two items have one difference. -/
theorem equalDifferences_of_two {s : State} (h : s.slen.toNat = 2) : s.EqualDifferences := fun i hi => by
  rw [show i = 0 by omega]

/-- Settles O32: the selector's steps 1 to 3 are the preconditions of the two commands. -/
theorem selectorGuarantees : Obligations.SelectorGuarantees := by
  intro s hs h1
  have ht : State.Inv { statsPass s with tag := (select (statsPass s)).code } := Leads.inv hs .classify
  refine ⟨_, rfl, fun htag => ⟨_, rfl, ?const⟩, fun htag => ?deltaConst⟩
  case const =>
    have hequal : s.EqualItems := equalItems_of_select hs (MarshalType.code_eq_zero htag)
    exact constC_compressed ht h1 hequal
  case deltaConst =>
    have hselect : select (statsPass s) = .deltaConst := MarshalType.code_eq_one htag
    have htwo : s.slen.toNat = 2 := of_select_eq_deltaConst (s := statsPass s) hselect
    refine ⟨htwo, fun hcap => ⟨_, rfl, deltaconstC_compressed ht htwo.ge (equalDifferences_of_two htwo) ?_⟩⟩
    exact (varintBits_length_bounds _).2.trans (Nat.mul_le_mul_left 8 hcap)

end Sys2Proof.Machine
end

section
/-! SUPPORT. The residual streams by formula (R220 to R225, R241), and the items that `CONST.D` and `DELTACONST.D` emit
(R237, R239). -/

namespace Sys2Proof.Machine

/-! ## Residuals by formula -/

/-- The first-order differences of a block (R220). -/
def diffAt (v : Nat → Word) (k : Nat) : Word := if k = 0 then 0 else v k - v (k - 1)

/-- The XORs of neighbours of a block (R220). -/
def xorAt (v : Nat → Word) (k : Nat) : Word := if k = 0 then 0 else v k ^^^ v (k - 1)

/-- A scheme's residual of item `k` (R221 to R225). -/
def Scheme.residualAt (scheme : Scheme) (v : Nat → Word) (k : Nat) : Word :=
  match scheme with
  | .delta => diffAt v k
  | .delta2 => diffAt v k - diffAt v (k - 1)
  | .xorDelta => diffAt v k ^^^ diffAt v (k - 1)
  | .deltaXor => xorAt v k - xorAt v (k - 1)
  | .plain => v k

/-- The encoder's state before item `k + 1`, by the formulas. -/
def residStateAt (v : Nat → Word) (k : Nat) : ResidState := { p := v k, dp := diffAt v k, xp := xorAt v k }

theorem resid_residStateAt (scheme : Scheme) (v : Nat → Word) (k : Nat) :
    scheme.resid (residStateAt v k) (v (k + 1)) = scheme.residualAt v (k + 1) := by cases scheme <;> rfl

/-- The encoder's record of an item is the varint of its residual (R241). -/
theorem residPutItem_eq_record (scheme : Scheme) (v : Nat → Word) (k : Nat) :
    residPutItem scheme (residStateAt v k) (v (k + 1)) =
      (varintBits (scheme.residualAt v (k + 1)), residStateAt v (k + 1)) := by
  rw [residPutItem, resid_residStateAt]
  rfl

/-- The body of a residual scheme by formula (R241). -/
theorem residBody_eq (scheme : Scheme) {s : State} (h1 : 1 ≤ s.slen.toNat) :
    residBody scheme s.srcItems =
      .ok ((List.range (s.slen.toNat - 1)).flatMap fun k => varintBits (scheme.residualAt s.srcAt (k + 1))) := by
  have hloop := encodeItems_eq_flatMap (residPutItem_eq_record scheme s.srcAt) (s.slen.toNat - 1) 0
  simp only [Nat.zero_add] at hloop
  rw [srcItems_eq_range h1, ← hloop]
  rfl

/-- A compress command that runs a residual scheme on a block completes with the scheme's stream. -/
theorem resid_compresses {i : Instr} (scheme : Scheme) {s : State} (hi : i ∈ compressCommands) (hmin : minItems i = 1)
    (hmax : maxItems i s.cfg.vcap = s.cfg.vcap) (hbody : compressBody s.cfg.fpcLog2 i = residBody scheme) (hs : s.Inv)
    (h1 : 1 ≤ s.slen.toNat) {bits : List Bool}
    (hbits : bits = (List.range (s.slen.toNat - 1)).flatMap fun k => varintBits (scheme.residualAt s.srcAt (k + 1)))
    (hfit : bits.length ≤ s.bufBits) : ∃ t, exec i s = .next t ∧ Compressed s t bits :=
  ⟨_, exec_compressCommand hi s,
    compress_ok hs (hmin.trans_le h1) (hs.slen_le.trans_eq hmax.symm) (by rw [hbody, residBody_eq scheme h1, hbits]) hfit⟩

/-- Settles O50: the encoder's previous difference and XOR are the formulas' before every item, so its residuals are. -/
theorem residualStreams : Obligations.ResidualStreams := by
  intro s hs h1 d x stream row hrow hfit
  simp only [List.mem_cons, List.not_mem_nil, or_false] at hrow
  rcases hrow with rfl | rfl | rfl | rfl | rfl
  · exact resid_compresses (i := .deltaC) .delta (by decide) rfl rfl rfl hs h1 rfl hfit
  · exact resid_compresses (i := .delta2C) .delta2 (by decide) rfl rfl rfl hs h1 rfl hfit
  · exact resid_compresses (i := .xordeltaC) .xorDelta (by decide) rfl rfl rfl hs h1 rfl hfit
  · exact resid_compresses (i := .deltaxorC) .deltaXor (by decide) rfl rfl rfl hs h1 rfl hfit
  · exact resid_compresses (i := .plainC) .plain (by decide) rfl rfl rfl hs h1 rfl hfit

/-! ## The items of `CONST.D` and `DELTACONST.D` -/

/-- Repeated addition is multiplication modulo 2^64 (R239). -/
theorem progression_eq_map (dd : Word) (n : Nat) (p : Word) :
    progression dd n p = (List.range n).map fun i => p + BitVec.ofNat 64 i * dd := by
  induction n generalizing p with
  | zero => rfl
  | succ n ih =>
    have hstep (i : Nat) : p + dd + BitVec.ofNat 64 i * dd = p + BitVec.ofNat 64 (i + 1) * dd := by
      rw [BitVec.ofNat_add, add_mul, show BitVec.ofNat 64 1 * dd = dd from one_mul dd]
      abel
    rw [progression, ih, List.range_succ_eq_map, List.map_cons, List.map_map]
    simp [hstep, Function.comp_def]

/-- A decompress command that is ready and whose reader answers appends the reader's items. -/
theorem decompress_completes {d : Instr} {u : State} {items : List Word} {pos : Nat} (hd : d ∈ decompressCommands)
    (hu : u.Inv) (hr : ReadyToDecode u) (h : decompressBody d u = .ok (items, pos)) :
    ∃ v, exec d u = .next v ∧ Decompressed u v items pos := by
  obtain ⟨hlen, hpos⟩ := decompressBody_within hd hr.2.1 h
  have hroom : u.dlen.toNat + items.length ≤ u.cfg.vcap := hlen ▸ hr.2.2
  exact ⟨_, exec_decompressCommand hd u,
    decompress_ok hu (decompressCheck_eq_ok.2 hr) h hroom (lt_of_le_of_lt hpos u.blen.isLt)⟩

/-- Settles O59: each reader's answer on its body is that list of items. -/
theorem progressionDecode : Obligations.ProgressionDecode := by
  refine fun u hu hr => ⟨fun hempty => ?_, fun dd hlen hbits => ?_⟩
  · exact decompress_completes (d := .constD) (by decide) hu hr (constRead_of_empty hempty)
  · have hheld : u.holdsAt 0 (varintBits dd) := HoldsExactly.holdsAt ⟨hlen, hbits⟩
    refine decompress_completes (d := .deltaconstD) (by decide) hu hr ?_
    rw [← progression_eq_map, hlen]
    exact (deltaconstRead_varint hheld).trans (if_neg (not_not.2 hlen.symm))

end Sys2Proof.Machine
end

section
/-! SUPPORT. A byte-stream body cut short (R239, R243, R255): every varint but the last is whole, and of the last one only
continuation bytes are left. -/

namespace Sys2Proof.Machine

/-! ## A varint without its last byte -/

/-- Every byte of a varint but the last is a continuation byte (R286). -/
theorem varintGroups_continues (fuel : Nat) (u : Word) : ∀ b ∈ (varintGroups fuel u).dropLast, 128 ≤ b.toNat := by
  induction fuel generalizing u with
  | zero => simp [varintGroups]
  | succ fuel ih =>
    rw [varintGroups]
    split
    · simp
    · intro b hb
      cases hrest : varintGroups fuel (u >>> 7) with
      | nil => simp [hrest] at hb
      | cons b' bs =>
        rw [hrest, List.dropLast_cons_cons, ← hrest, List.mem_cons] at hb
        rcases hb with rfl | hb
        · rw [← toNat_setWidth_byte]
          exact high_group u
        · exact ih _ b hb

/-- What is left of the varint of `w` when its last byte is lost. -/
def cutVarint (w : Word) : List Bool := (varintBytes w).dropLast.flatMap byteBits

theorem cutVarint_length (w : Word) : (cutVarint w).length + 8 = (varintBits w).length := by
  have h := varintBytes_length w
  rw [cutVarint, flatMap_byteBits_length, List.length_dropLast, varintBits_length]
  omega

theorem cutVarint_prefix (w : Word) : cutVarint w <+: varintBits w := by
  have h := varintBytes_length w
  refine ⟨byteBits ((varintBytes w).getLast (List.ne_nil_of_length_pos h.1)), ?_⟩
  conv_rhs => rw [varintBits, ← List.dropLast_append_getLast (List.ne_nil_of_length_pos h.1)]
  simp [cutVarint]

/-- At a varint that lost its last byte the stream ends before a last byte (R291). -/
theorem varGet_cutVarint {u : State} {w : Word} {pos : Nat} (h8 : pos % 8 = 0) (h : u.holdsAt pos (cutVarint w))
    (hend : u.blen.toNat = pos + (cutVarint w).length) : varGet u pos = .error .eosVarint := by
  have hbits := h.2
  have hbytes := varintBytes_length w
  have hlen : (varintBytes w).dropLast.length + 1 = (varintBytes w).length := by
    rw [List.length_dropLast]; omega
  rw [cutVarint, flatMap_byteBits_length] at hbits hend
  rw [show pos = 8 * (pos / 8) by omega] at hbits
  refine varGet_eosVarint h8 (by omega) fun j hj => ?_
  rw [byte_of_bits _ hbits j (by omega)]
  exact varintGroups_continues _ _ _ (List.getElem_mem _)

/-- Of a body cut short what stands before its last varint is whole, and that varint cannot be read (R291). -/
theorem HoldsCut.lastVarint {u : State} {a : List Bool} {w first : Word} {n : Nat} (ha : a.length % 8 = 0)
    (h : HoldsCut u (a ++ varintBits w) first n) : u.holdsAt 0 a ∧ varGet u a.length = .error .eosVarint := by
  obtain ⟨hlen, hbits, -⟩ := h
  have hw := varintBits_length w
  have hcut := cutVarint_length w
  rw [padding_length, List.length_append] at hlen
  have hblen : u.blen.toNat = a.length + (cutVarint w).length := by omega
  have hprefix : a ++ cutVarint w <+: a ++ varintBits w := (List.prefix_append_right_inj a).2 (cutVarint_prefix w)
  rw [hblen, ← List.length_append, ← List.prefix_iff_eq_take.1 hprefix] at hbits
  have hheld : u.holdsAt 0 (a ++ cutVarint w) :=
    HoldsExactly.holdsAt ⟨by rw [hblen, List.length_append], hbits⟩
  obtain ⟨hwhole, hlast⟩ := holdsAt_append.1 hheld
  rw [Nat.zero_add] at hlast
  exact ⟨hwhole, varGet_cutVarint ha hlast hblen⟩

/-! ## The readers on a cut body -/

/-- What is left to show of a command that refuses a cut body: its reader raises one of the causes. -/
theorem refusesCut_of_reader {d : Instr} (hd : d ∈ decompressCommands) {minN maxN : State → Nat}
    {body : State → List Word → Except Cause (List Bool)} {cs : List Cause} (hmin : ∀ s, 1 ≤ minN s)
    (hread : ∀ (s u : State) (bits : List Bool), minN s ≤ s.slen.toNat → body s s.srcItems = .ok bits → bits ≠ [] →
      HoldsCut u bits (s.srcAt 0) s.slen.toNat → ∃ c ∈ cs, decompressBody d u = .error c) :
    RefusesCut d minN maxN body cs := by
  intro s u bits _ _ _ hlo _ hb hne _ hcut hroom
  obtain ⟨c, hc, herr⟩ := hread s u bits hlo hb hne hcut
  exact ⟨_, c, exec_decompressCommand hd u, hc, decompress_bodyError (hcut.ready ((hmin s).trans hlo) hroom) herr⟩

/-- An item whose varint cannot be read is missing, or its varint ends on a continuation byte (R242). -/
theorem residGetItem_eos {u : State} {pos : Nat} (k : Scheme) (h : varGet u pos = .error .eosVarint) :
    ∃ c ∈ [Cause.eosItems, .eosVarint], ∀ st, residGetItem u k st pos = .error c := by
  by_cases hmissing : pos = u.blen.toNat
  · exact ⟨.eosItems, by simp, fun st => if_pos hmissing⟩
  · refine ⟨.eosVarint, by simp, fun st => ?_⟩
    rw [residGetItem, if_neg hmissing, h, error_bind]

/-- The item loop takes back what an encoder wrote and raises what the item behind it raises. -/
theorem decodeItems_error_behind {σ : Type} {u : State} {enc : σ → Word → List Bool × σ}
    {dec : σ → Nat → Except Cause (Word × σ × Nat)} {c : Cause}
    (hstep : ∀ st v pos, u.holdsAt pos (enc st v).1 → dec st pos = .ok (v, (enc st v).2, pos + (enc st v).1.length))
    {behind : Nat} (hbad : ∀ st, dec st behind = .error c) (vs : List Word) {st : σ} {pos : Nat}
    (h : u.holdsAt pos (encodeItems enc st vs)) (hbehind : pos + (encodeItems enc st vs).length = behind) :
    decodeItems dec (vs.length + 1) st pos = .error c := by
  induction vs generalizing st pos with
  | nil =>
    have hpos : pos = behind := hbehind
    rw [List.length_nil, decodeItems, hpos, hbad st, error_bind]
  | cons v vs ih =>
    obtain ⟨hitem, hitems⟩ := holdsAt_append.1 h
    rw [encodeItems, List.length_append, ← Nat.add_assoc] at hbehind
    have hrest := ih hitems hbehind
    rw [List.length_cons, decodeItems, hstep st v pos hitem, ok_bind, hrest, error_bind]

/-- The residuals before the last are read back, and the last one is cut (R243). -/
theorem resid_refusesCut {d : Instr} (k : Scheme) (hd : d ∈ decompressCommands)
    (hreader : decompressBody d = residRead k) :
    RefusesCut d (fun _ => 1) (fun s => s.cfg.vcap) (fun _ vs => residBody k vs) [.eosItems, .eosVarint] :=
  refusesCut_of_reader hd (fun _ => le_refl 1) fun s u bits h1 hb hne hcut => by
    have ⟨_, _, hfirst, hcount⟩ := hcut
    rw [residBody_eq k h1] at hb
    cases hb
    obtain ⟨m, hm⟩ : ∃ m, s.slen.toNat - 1 = m + 1 := Nat.exists_eq_succ_of_ne_zero fun h0 => hne (by rw [h0]; rfl)
    have hwhole := encodeItems_eq_flatMap (residPutItem_eq_record k s.srcAt) m 0
    simp only [Nat.zero_add] at hwhole
    rw [hm, List.range_succ, List.flatMap_append, List.flatMap_singleton, ← hwhole] at hcut
    have hmod := encodeItems_resid_mod k ((List.range m).map fun i => s.srcAt (i + 1)) (residStateAt s.srcAt 0)
    obtain ⟨hitems, hlast⟩ := hcut.lastVarint hmod
    obtain ⟨c, hc, hbad⟩ := residGetItem_eos k hlast
    have hloop := decodeItems_error_behind (residGetItem_putItem k) hbad _ hitems (Nat.zero_add _)
    rw [List.length_map, List.length_range, ← hm, ← hcount] at hloop
    refine ⟨c, hc, ?_⟩
    rw [hreader, residRead, hfirst]
    exact bind_eq_error.2 (.inl hloop)

/-- The one difference is missing, or its varint ends on a continuation byte (R239). -/
theorem deltaconst_refusesCut : RefusesCut .deltaconstD (fun _ => 2) (fun s => s.cfg.vcap)
    (fun _ vs => deltaconstBody vs) [.eosItems, .eosVarint] :=
  refusesCut_of_reader (by decide) (fun _ => by omega) fun s u bits h2 hb _ hcut => by
    obtain ⟨dd, rfl⟩ := deltaconstBody_eq_ok (by rwa [srcItems_length]) hb
    obtain ⟨-, hget⟩ := HoldsCut.lastVarint (a := []) rfl hcut
    by_cases hempty : u.blen = 0
    · exact ⟨.eosItems, by simp, if_pos hempty⟩
    · exact ⟨.eosVarint, by simp, (if_neg hempty).trans (bind_eq_error.2 (.inl hget))⟩

/-! ## The run-length body -/

section
variable {u : State} {p : Word} {c : Cause} {a : List Word} (hp : u.holdsAt 0 (varintBits p))
include hp

theorem rleRead_of_holdsAt : rleRead u = restVarints u (u.blen.toNat + 1) (varintBits p).length >>= fun a =>
    if a.length % 2 = 1 then .error .oddPairs
    else if p.toInt < 0 ∨ 2 * p.toNat ≠ a.length then .error .countMismatch
    else expandPairs u a true 0 >>= fun vs => .ok (vs, u.blen.toNat) := by
  have hlen := hp.1
  have hpos := varintBits_length_bounds p
  rw [rleRead, if_neg (blen_ne_zero (by omega)), varGet_varintBits hp, ok_bind, Nat.zero_add]

theorem rleRead_restError (h : restVarints u (u.blen.toNat + 1) (varintBits p).length = .error c) :
    rleRead u = .error c := by rw [rleRead_of_holdsAt hp, h, error_bind]

theorem rleRead_oddPairs (h : restVarints u (u.blen.toNat + 1) (varintBits p).length = .ok a)
    (hodd : a.length % 2 = 1) : rleRead u = .error .oddPairs := by
  rw [rleRead_of_holdsAt hp, h, ok_bind, if_pos hodd]

end

/-- The varints of a run-length body: the number of pairs, then one varint or more that are an odd number, and a last one
(R250). -/
theorem rleBody_snoc (v0 : Word) (vs : List Word) : ∃ (p : Word) (a : List Word) (w : Word), a.length % 2 = 1 ∧
    rleBody (v0 :: vs) = .ok (varintBits p ++ a.flatMap varintBits ++ varintBits w) := by
  obtain ⟨n, rest, hruns⟩ := runsFrom_head v0 1 vs
  have hlen := runArray_length (runsFrom v0 1 vs)
  have hne : runArray (runsFrom v0 1 vs) ≠ [] := by rw [hruns]; exact List.cons_ne_nil _ _
  have hpos := List.length_pos_iff.2 hne
  refine ⟨BitVec.ofNat 64 (runsFrom v0 1 vs).length, (runArray (runsFrom v0 1 vs)).dropLast,
    (runArray (runsFrom v0 1 vs)).getLast hne, ?_, ?_⟩
  · rw [List.length_dropLast]; omega
  · conv_lhs => rw [rleBody_cons, ← List.dropLast_append_getLast hne]
    simp

/-- The pairs but the last varint are read: an odd number of them, or a varint that ends on a continuation byte (R252,
R255). -/
theorem rle_refusesCut : RefusesCut .rleD (fun _ => 1) (fun s => s.cfg.vcap) (fun _ vs => rleBody vs)
    [.oddPairs, .eosVarint] :=
  refusesCut_of_reader (by decide) (fun _ => le_refl 1) fun s u bits h1 hb _ hcut => by
    obtain ⟨vs, hvs, -⟩ := srcItems_eq_cons h1
    obtain ⟨p, a, w, hodd, hbody⟩ := rleBody_snoc (s.srcAt 0) vs
    rw [hvs, hbody] at hb
    cases hb
    obtain ⟨hmod, hfuel⟩ := flatMap_varintBits_length (p :: a)
    rw [List.flatMap_cons] at hmod hfuel
    obtain ⟨hwhole, hlast⟩ := hcut.lastVarint hmod
    have hlen := hwhole.1
    obtain ⟨hp, ha⟩ := holdsAt_append.1 hwhole
    rw [List.length_cons] at hfuel
    obtain ⟨fuel, hf⟩ : ∃ fuel, u.blen.toNat + 1 = a.length + (fuel + 1) := ⟨u.blen.toNat - a.length, by omega⟩
    have hrest := restVarints_append a (fuel + 1) ha
    rw [Nat.zero_add, ← List.length_append, ← hf] at hrest
    by_cases hmissing : (varintBits p ++ a.flatMap varintBits).length = u.blen.toNat
    · have hnone : restVarints u (fuel + 1) (varintBits p ++ a.flatMap varintBits).length = .ok [] := if_pos hmissing
      rw [hnone, ok_bind, List.append_nil] at hrest
      exact ⟨.oddPairs, by simp, rleRead_oddPairs hp hrest hodd⟩
    · have hcutoff : restVarints u (fuel + 1) (varintBits p ++ a.flatMap varintBits).length = .error .eosVarint := by
        rw [restVarints, if_neg hmissing, hlast, error_bind]
      rw [hcutoff, error_bind] at hrest
      exact ⟨.eosVarint, by simp, rleRead_restError hp hrest⟩

/-- Settles O56: each reader takes back the varints before the last, and finds the last one cut. -/
theorem byteBodiesRefuseCut : Obligations.ByteBodiesRefuseCut :=
  ⟨resid_refusesCut .delta (by decide) rfl, resid_refusesCut .delta2 (by decide) rfl,
    resid_refusesCut .xorDelta (by decide) rfl, resid_refusesCut .deltaXor (by decide) rfl,
    resid_refusesCut .plain (by decide) rfl, deltaconst_refusesCut, rle_refusesCut⟩

end Sys2Proof.Machine
end

section
/-! SUPPORT. The run-length codec (46_rle.md): its body is that of the block's maximal runs (R250, R251), its reader by the
runs of a body (R252), and the exact pair (R255). -/

namespace Sys2Proof.Machine

/-! ## The runs of a block -/

/-- Neighbouring runs are of different values: each is as long as it can be (R251). -/
theorem runsFrom_isChain (cv : Word) (cl : Nat) (vs : List Word) :
    (runsFrom cv cl vs).IsChain fun a b => a.1 ≠ b.1 := by
  induction vs generalizing cv cl with
  | nil => exact .singleton _
  | cons v vs ih =>
    rw [runsFrom]
    split
    · exact ih cv (cl + 1)
    · next hne =>
      obtain ⟨n, rest, hruns⟩ := runsFrom_head v 1 vs
      have hchain := ih v 1
      rw [hruns] at hchain ⊢
      exact .cons_cons (Ne.symm hne) hchain

/-- The runs of a block spell it (R251). -/
theorem runItems_runsFrom (v0 : Word) (vs : List Word) : runItems (runsFrom v0 1 vs) = v0 :: vs :=
  runsFrom_expand v0 1 vs

/-- The encoder's body is the formula's, of the block's runs (R250). -/
theorem rleBody_eq_rleBits (v0 : Word) (vs : List Word) : rleBody (v0 :: vs) = .ok (rleBits (runsFrom v0 1 vs)) := rfl

/-- Settles O48: the runs are those the encoder finds, and the length of their body decides whether it fits. -/
theorem rleRuns : Obligations.RleRuns := by
  intro s hs h1
  obtain ⟨vs, hvs, -⟩ := srcItems_eq_cons h1
  have hbody : rleBody s.srcItems = .ok (rleBits (runsFrom (s.srcAt 0) 1 vs)) := by rw [hvs, rleBody_eq_rleBits]
  refine ⟨runsFrom (s.srcAt 0) 1 vs, ?spell, fun r hr => ?positive, ?differ, fun hfit => ⟨_, rfl, ?fits⟩,
    fun hfull => ⟨_, rfl, ?full⟩⟩
  case spell => rw [runItems_runsFrom, ← hvs, State.srcItems]
  case positive => exact (runsFrom_bounds _ 1 vs (le_refl 1) r hr).1
  case differ => exact List.isChain_iff_getElem.1 (runsFrom_isChain _ 1 vs)
  case fits => exact compress_ok hs h1 hs.slen_le hbody hfit
  case full => exact compress_overflow h1 hs.slen_le hbody hfull

/-! ## The reader, up to its pair loop -/

theorem flatMap_varintBits_runArray (runs : List (Word × Nat)) : (runArray runs).flatMap varintBits = pairBits runs :=
  runArray_bits runs

/-- `RLE.D` on a stream of varints and nothing else: the number of pairs, then the array `A` (R252). -/
theorem rleRead_varints {u : State} {p : Word} {a : List Word}
    (h : HoldsExactly u (varintBits p ++ a.flatMap varintBits)) :
    rleRead u = if a.length % 2 = 1 then .error .oddPairs
      else if p.toInt < 0 ∨ 2 * p.toNat ≠ a.length then .error .countMismatch
      else expandPairs u a true 0 >>= fun vs => .ok (vs, u.blen.toNat) := by
  obtain ⟨hp, ha⟩ := holdsAt_append.1 h.holdsAt
  rw [Nat.zero_add] at ha
  have hend : (varintBits p).length + (a.flatMap varintBits).length = u.blen.toNat := by rw [h.1, List.length_append]
  obtain ⟨-, hfuel⟩ := flatMap_varintBits_length a
  rw [rleRead_of_holdsAt hp, restVarints_ok a _ _ (by omega) ha hend, ok_bind]

/-- A body of runs has as many pairs as it says, since they fit the stream: the reader is its pair loop (R252). -/
theorem rleRead_runs {u : State} {runs : List (Word × Nat)} (h : HoldsExactly u (rleBits runs)) :
    rleRead u = expandPairs u (runArray runs) true 0 >>= fun vs => .ok (vs, u.blen.toNat) := by
  rw [rleBits, ← flatMap_varintBits_runArray] at h
  obtain ⟨-, hfuel⟩ := flatMap_varintBits_length (runArray runs)
  have harray := runArray_length runs
  have hblen := h.1
  rw [List.length_append] at hblen
  have hlt := u.blen.isLt
  have hp : (BitVec.ofNat 64 runs.length).toNat = runs.length := by
    rw [BitVec.toNat_ofNat]; exact Nat.mod_eq_of_lt (by omega)
  have hint : (BitVec.ofNat 64 runs.length).toInt = runs.length := by
    rw [BitVec.toInt_eq_toNat_cond, hp, if_pos (by omega)]
  rw [rleRead_varints h, harray, if_neg (by omega), if_neg (by rw [hp, hint]; omega)]

/-! ## The pair loop -/

/-- A run length that is 0 or below as a signed number (R252). -/
theorem toInt_ofNat_le_zero_iff {n : Nat} (hn : n < 2 ^ 64) : (BitVec.ofNat 64 n).toInt ≤ 0 ↔ n = 0 ∨ 2 ^ 63 ≤ n := by
  rw [BitVec.toInt_eq_toNat_cond, BitVec.toNat_ofNat, Nat.mod_eq_of_lt hn]
  split <;> omega

theorem runTotal_cons (r : Word × Nat) (runs : List (Word × Nat)) : runTotal (r :: runs) = r.2 + runTotal runs := by
  simp [runTotal]

theorem runItems_cons (r : Word × Nat) (runs : List (Word × Nat)) :
    runItems (r :: runs) = List.replicate r.2 r.1 ++ runItems runs := List.flatMap_cons

section
variable {u : State} {r : Word × Nat} {runs : List (Word × Nat)} {head : Bool} {made : Nat}

/-- The branches of the loop at one pair, in their order (R252). -/
theorem expandPairs_cons (hr : r.2 < 2 ^ 64) :
    expandPairs u (runArray (r :: runs)) head made =
      if made = u.count.toNat then .error .tail
      else if r.2 = 0 ∨ 2 ^ 63 ≤ r.2 then .error .badRun
      else if head ∧ r.1 ≠ u.first then .error .firstMismatch
      else expandPairs u (runArray runs) false (made + min r.2 (u.count.toNat - made)) >>= fun vs =>
        .ok (List.replicate (min r.2 (u.count.toNat - made)) r.1 ++ vs) := by
  have hn : (BitVec.ofNat 64 r.2).toNat = r.2 := by rw [BitVec.toNat_ofNat]; exact Nat.mod_eq_of_lt hr
  change expandPairs u (r.1 :: BitVec.ofNat 64 r.2 :: runArray runs) head made = _
  simp only [expandPairs, toInt_ofNat_le_zero_iff hr, hn]

/-- The loop at the end of the array (R252). -/
theorem expandPairs_nil :
    expandPairs u (runArray []) head made = if made < u.count.toNat then .error .eosItems else .ok [] := rfl

end

/-- The loop takes runs without an error, cutting the last of them at `COUNT`, and goes on behind them (R252). -/
theorem expandPairs_taken {u : State} (pre rest : List (Word × Nat)) {head : Bool} {made : Nat}
    (hr : ∀ r ∈ pre, 1 ≤ r.2 ∧ r.2 < 2 ^ 63) (hfirst : head = true → ∀ r, pre.head? = some r → r.1 = u.first)
    (hmade : made ≤ u.count.toNat) (hlast : pre ≠ [] → made + runTotal pre.dropLast < u.count.toNat) :
    expandPairs u (runArray (pre ++ rest)) head made =
      expandPairs u (runArray rest) (head && pre.isEmpty) (min (made + runTotal pre) u.count.toNat) >>= fun vs =>
        .ok ((runItems pre).take (u.count.toNat - made) ++ vs) := by
  induction pre generalizing head made with
  | nil =>
    have hmin : min (made + runTotal []) u.count.toNat = made := min_eq_left hmade
    rw [hmin]
    cases hloop : expandPairs u (runArray rest) head made <;> simp [runItems, hloop]
  | cons r pre ih =>
    obtain ⟨hpos, hlt⟩ := hr r List.mem_cons_self
    have hbegin : made < u.count.toNat := lt_of_le_of_lt (Nat.le_add_right _ _) (hlast (List.cons_ne_nil _ _))
    have hvalue : ¬ (head = true ∧ r.1 ≠ u.first) := fun ⟨hh, hne⟩ => hne (hfirst hh r rfl)
    have hlast' (hne : pre ≠ []) : made + min r.2 (u.count.toNat - made) + runTotal pre.dropLast < u.count.toNat := by
      have h := hlast (List.cons_ne_nil _ _)
      rw [List.dropLast_cons_of_ne_nil hne, runTotal_cons] at h
      omega
    have hloop := ih (head := false) (made := made + min r.2 (u.count.toNat - made))
      (fun x hx => hr x (List.mem_cons_of_mem _ hx)) (fun h => by cases h) (by omega) hlast'
    have htotal : min (made + min r.2 (u.count.toNat - made) + runTotal pre) u.count.toNat =
        min (made + runTotal (r :: pre)) u.count.toNat := by rw [runTotal_cons]; omega
    have hitems : (runItems (r :: pre)).take (u.count.toNat - made) =
        List.replicate (min r.2 (u.count.toNat - made)) r.1 ++
          (runItems pre).take (u.count.toNat - (made + min r.2 (u.count.toNat - made))) := by
      rw [runItems_cons, List.take_append, List.take_replicate, List.length_replicate, Nat.min_comm]
      congr 2
      omega
    rw [List.cons_append, expandPairs_cons (by omega), if_neg (by omega), if_neg (by omega), if_neg hvalue, hloop,
      htotal, hitems]
    cases expandPairs u (runArray rest) false (min (made + runTotal (r :: pre)) u.count.toNat) <;> simp

/-! ## The reader on a body of runs -/

/-- `RLE.D` on a body whose first runs it takes: its pair loop on the others (R252). -/
theorem rleRead_taken {u : State} {pre rest : List (Word × Nat)} (h : HoldsExactly u (rleBits (pre ++ rest)))
    (ht : TakesRuns u.first u.count.toNat pre) :
    rleRead u = expandPairs u (runArray rest) pre.isEmpty (min (runTotal pre) u.count.toNat) >>= fun vs =>
      .ok ((runItems pre).take u.count.toNat ++ vs, u.blen.toNat) := by
  obtain ⟨hr, hfirst, hlast⟩ := ht
  rw [rleRead_runs h, expandPairs_taken pre rest hr (fun _ => hfirst) (Nat.zero_le _) (fun _ => by rwa [Nat.zero_add]),
    Bool.true_and, Nat.zero_add, Nat.sub_zero]
  cases expandPairs u (runArray rest) pre.isEmpty (min (runTotal pre) u.count.toNat) <;> rfl

theorem rleD_fails {u : State} (hr : ReadyToDecode u) {c : Cause} (h : rleRead u = .error c) : Fails .rleD u c :=
  fails_of_reader (by decide) hr h

/-- An odd number of varints after the pair count, whatever it says (R252). -/
theorem rleRead_odd {u : State} {runs : List (Word × Nat)} {p w : Word}
    (h : HoldsExactly u (varintBits p ++ pairBits runs ++ varintBits w)) : rleRead u = .error .oddPairs := by
  have hvarints : varintBits p ++ pairBits runs ++ varintBits w =
      varintBits p ++ (runArray runs ++ [w]).flatMap varintBits := by
    rw [List.flatMap_append, flatMap_varintBits_runArray, List.flatMap_singleton, List.append_assoc]
  have hodd : (runArray runs ++ [w]).length % 2 = 1 := by
    rw [List.length_append, runArray_length, List.length_singleton]; omega
  rw [rleRead_varints (hvarints ▸ h), if_pos hodd]

/-- A pair count that is negative or not the number of pairs (R252). -/
theorem rleRead_countMismatch {u : State} {runs : List (Word × Nat)} {p : Word} (hp : p.toInt ≠ (runs.length : Int))
    (h : HoldsExactly u (varintBits p ++ pairBits runs)) : rleRead u = .error .countMismatch := by
  rw [← flatMap_varintBits_runArray] at h
  have hbad : p.toInt < 0 ∨ 2 * p.toNat ≠ 2 * runs.length := by
    rw [BitVec.toInt_eq_toNat_cond] at hp ⊢
    split at hp <;> omega
  rw [rleRead_varints h, runArray_length, if_neg (by omega), if_pos hbad]

/-- Settles O58: the array is read whole; the runs before the first bad pair are taken, and that pair, or the end of the
array, decides. -/
theorem rleDecode : Obligations.RleDecode := by
  intro u hu hready
  refine ⟨fun hempty => rleD_fails hready (if_pos hempty), fun runs hruns =>
    ⟨fun p w h => rleD_fails hready (rleRead_odd h), fun p hp h => rleD_fails hready (rleRead_countMismatch hp h),
      fun h => ⟨?badPair, fun ht hshort => ?short, fun ht henough => ?enough⟩⟩⟩
  case badPair =>
    rintro pre r post rfl ht
    have hr : r.2 < 2 ^ 64 := hruns r (by simp)
    have hfails {c : Cause}
        (hbad : expandPairs u (runArray (r :: post)) pre.isEmpty (min (runTotal pre) u.count.toNat) = .error c) :
        Fails .rleD u c := rleD_fails hready (by rw [rleRead_taken h ht, hbad, error_bind])
    refine ⟨fun hdone => hfails ?_, fun hmore hlength => hfails ?_, fun hnil h1 h63 hne => hfails ?_⟩ <;>
      rw [expandPairs_cons hr]
    · exact if_pos (min_eq_right hdone)
    · rw [if_neg (by omega), if_pos hlength]
    · obtain ⟨-, -, hcount⟩ := ht
      subst hnil
      have hstart : min (runTotal []) u.count.toNat ≠ u.count.toNat := by
        rw [List.dropLast_nil] at hcount
        omega
      rw [if_neg hstart, if_neg (by omega), if_pos ⟨rfl, hne⟩]
  case short =>
    rw [← List.append_nil runs] at h
    refine rleD_fails hready ?_
    rw [rleRead_taken h ht, expandPairs_nil, if_pos (by omega), error_bind]
  case enough =>
    rw [← List.append_nil runs] at h
    refine decompress_completes (d := .rleD) (by decide) hu hready ?_
    change rleRead u = _
    rw [rleRead_taken h ht, expandPairs_nil, if_neg (by omega), ok_bind, List.append_nil]

/-! ## The exact pair -/

/-- A body of runs is whole bytes (R250). -/
theorem rleBits_length_mod (runs : List (Word × Nat)) : (rleBits runs).length % 8 = 0 := by
  have hcount := varintBits_length (BitVec.ofNat 64 runs.length)
  obtain ⟨hpairs, -⟩ := flatMap_varintBits_length (runArray runs)
  rw [flatMap_varintBits_runArray] at hpairs
  rw [rleBits, List.length_append]
  omega

/-- A body of whole bytes has no padding. -/
theorem HoldsBody.holdsExactly {u : State} {bits : List Bool} {first : Word} {n : Nat} (h : HoldsBody u bits first n)
    (hmod : bits.length % 8 = 0) : HoldsExactly u bits := by
  obtain ⟨hlen, hbits, -, -⟩ := h
  exact ⟨by rw [hlen, padding_length, hmod]; rfl, hbits⟩

/-- The reader takes back the body of a block's runs: they spell `COUNT` items, the first of them `FIRST` (R255). -/
theorem rleRead_runsFrom {u : State} {v0 : Word} {vs : List Word}
    (h : HoldsBody u (rleBits (runsFrom v0 1 vs)) v0 (vs.length + 1)) :
    rleRead u = .ok (v0 :: vs, (rleBits (runsFrom v0 1 vs)).length) := by
  have ⟨_, _, hfirst, hcount⟩ := h
  have hexact := h.holdsExactly (rleBits_length_mod _)
  have hspell := runsFrom_expand v0 1 vs
  have hbounds (r : Word × Nat) (hr : r ∈ runsFrom v0 1 vs) : 1 ≤ r.2 ∧ r.2 < 2 ^ 63 := by
    have := runsFrom_bounds v0 1 vs (le_refl 1) r hr
    have := u.count.isLt
    omega
  have hhead : ∀ r rest, runsFrom v0 1 vs = r :: rest → r.1 = u.first := by
    obtain ⟨n, rest, hruns⟩ := runsFrom_head v0 1 vs
    rintro r rest' heq
    rw [hruns] at heq
    cases heq
    exact hfirst.symm
  have hloop := expandPairs_runs _ true 0 hbounds (by rw [hspell, hcount]; simp) fun _ => hhead
  rw [rleRead_runs hexact, hloop, ok_bind, hspell, hexact.1]
  rfl

/-- Settles O40: the runs are read back and expanded to the block they spell. -/
theorem rleExact : Obligations.RleExact :=
  roundTrips_of_reader (c := .rleC) (d := .rleD) (by decide) (by decide) fun _ _ v0 vs _ _ hb hheld => by
    cases (rleBody_eq_rleBits v0 vs).symm.trans hb
    exact rleRead_runsFrom hheld

end Sys2Proof.Machine
end

section
/-! SUPPORT. The Huffman pair is exact (R268), and every stream begins with exactly one of its codes (R261). -/

namespace Sys2Proof.Machine

/-- Settles O41: the reader walks the code tree back to every nibble, so it takes every body back, item by item. -/
theorem huffExact : Obligations.HuffExact :=
  roundTrips_of_bitReader (by decide) (by decide) rfl (fun _ => rfl) (fun _ => rfl)
    fun _ _ _ _ _ _ hn hb hf hcount h => huffRead_readsBack hf hcount hn hb h

/-! ## The code (R261) -/

/-- No code is the beginning of another. -/
theorem huffBits_prefix_free : ∀ q < 16, ∀ q' < 16, huffBits q <+: huffBits q' → q = q' := by decide

/-- Any five bits begin with a code: the longest codes have five bits, and the tree has no missing branch. -/
theorem exists_huffBits_prefix : ∀ b0 b1 b2 b3 b4 : Bool, ∃ q < 16, huffBits q <+: [b0, b1, b2, b3, b4] := by decide

/-- Two codes a stream begins with are one: the shorter is the beginning of the longer. -/
theorem huffBits_prefix_unique {bs : List Bool} {q q' : Nat} (hq : q < 16) (hq' : q' < 16) (h : huffBits q <+: bs)
    (h' : huffBits q' <+: bs) : q = q' := by
  rcases List.prefix_or_prefix_of_prefix h h' with hle | hle
  · exact huffBits_prefix_free q hq q' hq' hle
  · exact (huffBits_prefix_free q' hq' q hq hle).symm

/-- Settles O60: the first five bits decide the code, and the table's rows are the model's codes. -/
theorem huffmanCode : Obligations.HuffmanCode := by
  refine ⟨fun bs h5 => ?_, rfl, rfl, by decide⟩
  obtain ⟨q, hq, hcode⟩ : ∃ q < 16, huffBits q <+: bs := by
    match bs, h5 with
    | b0 :: b1 :: b2 :: b3 :: b4 :: rest, _ =>
      obtain ⟨q, hq, hcode⟩ := exists_huffBits_prefix b0 b1 b2 b3 b4
      exact ⟨q, hq, hcode.trans (List.prefix_append _ rest)⟩
  exact ⟨q, ⟨hq, hcode⟩, fun q' ⟨hq', hcode'⟩ => huffBits_prefix_unique hq' hq hcode' hcode⟩

end Sys2Proof.Machine
end

section
/-! SUPPORT. The statistics of a block (R270) and the selector's choice on them (R272, R275). -/

namespace Sys2Proof.Machine

/-! ## The results of the pass (R270) -/

/-- The 1 bits of a group, counted from its least significant. -/
theorem countP_group (x : Word) (n : Nat) : (group x n).countP (fun b => b) = (List.range n).countP x.getLsbD := by
  induction n with
  | zero => rfl
  | succ n ih => rw [group, List.countP_cons, ih, List.range_succ, List.countP_append, List.countP_singleton]

theorem pop_eq_countP (x : Word) : pop x = (List.range 64).countP fun j => x.getLsbD j := countP_group x 64

theorem repeatsOf_srcItems (s : State) : repeatsOf s.srcItems =
    (List.range (s.slen.toNat - 1)).countP fun i => s.srcAt (i + 1) ^^^ s.srcAt i = 0 := by
  rw [repeatsOf, pairXors_srcItems, List.countP_map]
  rfl

theorem sumBitsOf_srcItems (s : State) : sumBitsOf s.srcItems =
    ((List.range (s.slen.toNat - 1)).map fun i =>
      (List.range 64).countP fun j => (s.srcAt (i + 1) ^^^ s.srcAt i).getLsbD j).sum := by
  simp only [sumBitsOf, pairXors_srcItems, List.map_map, Function.comp_def, pop_eq_countP]

theorem statsPass_pairs_toNat (s : State) : (statsPass s).pairs.toNat = s.slen.toNat - 1 :=
  ofNat_toNat_len (lt_of_le_of_lt (Nat.sub_le _ _) s.slen.isLt)

theorem repeatsOf_srcItems_le (s : State) : repeatsOf s.srcItems ≤ s.slen.toNat - 1 :=
  srcItems_length s ▸ repeatsOf_le s.srcItems

theorem statsPass_repeats_toNat (s : State) : (statsPass s).repeats.toNat = repeatsOf s.srcItems :=
  ofNat_toNat_len (by have := repeatsOf_srcItems_le s; have := s.slen.isLt; omega)

theorem statsPass_nzpairs_toNat (s : State) :
    (statsPass s).nzpairs.toNat = s.slen.toNat - 1 - repeatsOf s.srcItems :=
  ofNat_toNat_len (by have := s.slen.isLt; omega)

/-- `SUMBITS` holds the sum: `SRC` has at most `2^32 / 64` words (R30, log 10). -/
theorem statsPass_sumbits_toNat {s : State} (hs : s.Inv) : (statsPass s).sumbits.toNat = sumBitsOf s.srcItems := by
  have hle := sumBitsOf_le s.srcItems
  rw [srcItems_length] at hle
  have hslen := hs.slen_le
  have hcap := hs.cfg.2.2.2
  exact ofNat_toNat_len (by omega)

/-- Settles O29: the five registers hold what the pass computes, by index. -/
theorem statsResults : Obligations.StatsResults := by
  intro s hs
  refine ⟨statsPass s, rfl, statsPass_pairs_toNat s, ?_, ?_, ?_, ?_, rfl⟩
  · rw [statsPass_repeats_toNat, repeatsOf_srcItems]
  · rw [statsPass_nzpairs_toNat, statsPass_pairs_toNat, statsPass_repeats_toNat]
  · rw [statsPass_sumbits_toNat hs, sumBitsOf_srcItems]
  · rw [statsPass_repeats_toNat]; rfl

/-! ## The selector (R272, R275) -/

/-- A pair that is no repeat has a 1 bit in its XOR: with the repeats the sum of bits counts every pair. -/
theorem length_le_sum_pop (xs : List Word) : xs.length ≤ (xs.map pop).sum + xs.countP fun x => x = 0 := by
  induction xs with
  | nil => exact Nat.zero_le _
  | cons x xs ih =>
    simp only [List.length_cons, List.map_cons, List.sum_cons, List.countP_cons, decide_eq_true_eq]
    split
    · omega
    · next hx =>
      have hpop : pop x ≠ 0 := fun h0 => hx (eq_zero_of_pop_eq_zero h0)
      omega

/-- With `STAT_DENOM = NZ` the mean is 1 or more (R272). -/
theorem nzpairs_le_sumbits {s : State} (hs : s.Inv) : (statsPass s).nzpairs.toNat ≤ (statsPass s).sumbits.toNat := by
  have h := length_le_sum_pop (pairXors s.srcItems)
  rw [pairXors_length, srcItems_length] at h
  rw [statsPass_nzpairs_toNat, statsPass_sumbits_toNat hs, repeatsOf, sumBitsOf]
  omega

/-- The selector's `ZSTDNearestDelta2`: a mean below 1 (R275). -/
theorem of_select_eq_zstdNearestDelta2 {s : State} (h : select s = .zstdNearestDelta2) :
    s.sumbits.toNat < denominator s := by
  unfold select at h
  split_ifs at h with hone htwo hsum hrep hmean
  exact hmean

theorem MarshalType.code_eq_four {m : MarshalType} (h : m.code = 4) : m = .zstdNearestDelta2 := by
  cases m with
  | zstdNearestDelta2 => rfl
  | _ => cases h

/-- Settles O31: the code 4 stands for a mean below 1, and `SUMBITS` is at least `NZPAIRS`. -/
theorem nzNeverNearestDelta2 : Obligations.NzNeverNearestDelta2 := by
  refine fun s hs hden => ⟨_, rfl, fun htag => ?_⟩
  have hmean := of_select_eq_zstdNearestDelta2 (MarshalType.code_eq_four htag)
  have hle := nzpairs_le_sumbits hs
  have hnz : denominator (statsPass s) = (statsPass s).nzpairs.toNat := by
    rw [denominator, statsPass_cfg, hden]
  omega

/-- The selector reads `SLEN`, `SUMBITS`, `ISREPEAT` and the divisor (R275). -/
theorem select_congr {s s' : State} (hslen : s.slen = s'.slen) (hsum : s.sumbits = s'.sumbits)
    (hstatf : s.statf = s'.statf) (hden : denominator s = denominator s') : select s = select s' := by
  unfold select
  rw [hslen, hsum, hstatf, hden]

/-- The pass on two equal blocks gives equal results, and the divisor is the one `STAT_DENOM` selects of them. -/
theorem select_statsPass_congr {s s' : State} (hslen : s.slen = s'.slen) (hitems : s.srcItems = s'.srcItems)
    (hden : s.cfg.statDenom = s'.cfg.statDenom) : select (statsPass s) = select (statsPass s') := by
  refine select_congr hslen ?_ ?_ ?_
  · simp only [statsPass, hitems]
  · simp only [statsPass, hitems, hslen]
  · simp only [denominator, statsPass, hitems, hslen, hden]

/-- Settles O33: the block decides the pass, and the pass with `STAT_DENOM` the selector. -/
theorem selectorPure : Obligations.SelectorPure := by
  intro s s' hslen hsrc hden
  have hitems : s.srcItems = s'.srcItems := by
    rw [State.srcItems, State.srcItems, ← hslen]
    exact List.map_congr_left fun i hi => hsrc i (List.mem_range.1 hi)
  exact ⟨_, _, rfl, rfl, congrArg MarshalType.code (select_statsPass_congr hslen hitems hden)⟩

/-- The code of the selector's answer, step by step (R275, R276). -/
theorem code_select (s : State) : (select s).code =
    if s.slen.toNat ≤ 1 then 0 else if s.slen.toNat = 2 then 1 else if s.sumbits = 0 then 0
    else if s.statf then 2 else if s.sumbits.toNat < denominator s then 4
    else if 2 * s.sumbits.toNat < 41 * denominator s then 3 else 5 := by
  unfold select
  split_ifs <;> rfl

/-- Settles O30: `CLASSIFY` runs the pass of `STATS` and then writes `TAG` alone. -/
theorem classifySelects : Obligations.ClassifySelects := fun s =>
  ⟨statsPass s, { statsPass s with tag := (select (statsPass s)).code }, rfl, rfl, rfl, code_select (statsPass s)⟩

end Sys2Proof.Machine
end

section
/-! SUPPORT. The varint format by arithmetic (R285, R286), and `VARGET` on every byte string that is a varint (R287, R289,
R291). -/

namespace Sys2Proof.Machine

/-! ## Zig-zag by arithmetic (R286) -/

/-- Zig-zag is `2v` for a value of 0 or more and `-2v - 1` below. -/
theorem zigZag_toNat (v : Word) :
    ((zigZag v).toNat : Int) = if 0 ≤ v.toInt then 2 * v.toInt else -2 * v.toInt - 1 := by
  have hlt := v.isLt
  have hshift : (v <<< 1).toNat = 2 * v.toNat % 2 ^ 64 := by
    rw [BitVec.toNat_shiftLeft, Nat.shiftLeft_eq, Nat.mul_comm, pow_one]
  have hsign : v.getLsbD 63 = decide (2 ^ 63 ≤ v.toNat) := BitVec.msb_eq_decide v
  rw [BitVec.toInt_eq_toNat_cond, zigZag, hsign]
  by_cases hneg : 2 ^ 63 ≤ v.toNat
  · have hall : v <<< 1 ^^^ BitVec.allOnes 64 = ~~~(v <<< 1) := BitVec.xor_allOnes
    rw [decide_eq_true hneg, if_pos rfl, hall, BitVec.toNat_not, hshift]
    omega
  · rw [decide_eq_false hneg, if_neg Bool.false_ne_true]
    simp only [BitVec.ofNat_eq_ofNat, BitVec.xor_zero, hshift]
    omega

/-! ## The bytes of a varint (R286) -/

/-- The base-128 number that bytes spell, least significant first, their continuation bits aside (R286). -/
def base128 (bs : List Byte) : Nat := bs.foldr (fun b acc => b.toNat % 128 + 128 * acc) 0

theorem base128_cons (b : Byte) (bs : List Byte) : base128 (b :: bs) = b.toNat % 128 + 128 * base128 bs := rfl

/-- Every byte but the last has bit 7 set, and the last has not (R286). -/
def EndsAtLast (bs : List Byte) : Prop := ∀ j (h : j < bs.length), 128 ≤ bs[j].toNat ↔ j + 1 < bs.length

theorem endsAtLast_singleton {b : Byte} : EndsAtLast [b] ↔ b.toNat < 128 := by
  simp [EndsAtLast]

theorem endsAtLast_cons {b : Byte} {bs : List Byte} (hbs : bs ≠ []) :
    EndsAtLast (b :: bs) ↔ 128 ≤ b.toNat ∧ EndsAtLast bs := by
  have hpos := List.length_pos_iff.2 hbs
  constructor
  · intro h
    refine ⟨(h 0 (by simp)).2 (by simpa using hpos), fun j hj => ?_⟩
    have hnext := h (j + 1) (by simpa using hj)
    simpa using hnext
  · rintro ⟨hb, h⟩ j hj
    cases j with
    | zero => simpa [hpos] using hb
    | succ j => simpa using h j (by simpa using hj)

/-- What one byte of a varint carries: the last byte is the rest itself. -/
theorem toNat_lastByte {u : Word} (h : u.toNat < 128) : (u.setWidth 8 : Byte).toNat = u.toNat := by
  rw [BitVec.toNat_setWidth]; omega

/-- A byte that is not the last has bit 7 set. -/
theorem le_toNat_continuationByte (u : Word) : 128 ≤ (0x80#8 ||| u.setWidth 8 : Byte).toNat := by
  rw [BitVec.toNat_or]
  exact Nat.left_le_or

/-- A byte that is not the last carries the seven low bits. -/
theorem toNat_continuationByte_mod (u : Word) : (0x80#8 ||| u.setWidth 8 : Byte).toNat % 128 = u.toNat % 128 := by
  rw [BitVec.toNat_or, BitVec.toNat_setWidth, show 128 = 2 ^ 7 from rfl, Nat.or_mod_two_pow,
    Nat.mod_mod_of_dvd _ (by decide)]
  exact Nat.zero_or _

theorem toNat_ushiftRight_seven (u : Word) : (u >>> 7).toNat = u.toNat / 128 := by
  rw [BitVec.toNat_ushiftRight, Nat.shiftRight_eq_div_pow]

section
variable {fuel : Nat} {u : Word}

theorem varintGroups_of_lt (h : u.toNat < 128) : varintGroups (fuel + 1) u = [u.setWidth 8] := if_pos h

theorem varintGroups_of_ge (h : ¬ u.toNat < 128) :
    varintGroups (fuel + 1) u = (0x80#8 ||| u.setWidth 8) :: varintGroups fuel (u >>> 7) := if_neg h

end

/-- What holds of the bytes of a pattern: they spell it, only the last has bit 7 clear, and they are as many as its
base-128 digits (R285, R286). -/
structure SpellsShortest (bs : List Byte) (n : Nat) : Prop where
  spells : base128 bs = n
  ends : EndsAtLast bs
  fits : n < 2 ^ (7 * bs.length)
  shortest : 1 < bs.length → 2 ^ (7 * (bs.length - 1)) ≤ n

/-- The last byte of a pattern. -/
theorem spellsShortest_last {u : Word} (h : u.toNat < 128) : SpellsShortest [u.setWidth 8] u.toNat where
  spells := by rw [base128_cons, toNat_lastByte h]; simp only [base128, List.foldr_nil]; omega
  ends := endsAtLast_singleton.2 (by rwa [toNat_lastByte h])
  fits := h
  shortest := fun hlen => absurd hlen (by simp)

/-- A byte that is not the last, before the bytes of the digits above it. -/
theorem spellsShortest_continue {u : Word} {bs : List Byte} (hu : ¬ u.toNat < 128) (hlen : 1 ≤ bs.length)
    (h : SpellsShortest bs (u >>> 7).toNat) : SpellsShortest ((0x80#8 ||| u.setWidth 8) :: bs) u.toNat := by
  obtain ⟨hspells, hends, hfits, hshortest⟩ := h
  rw [toNat_ushiftRight_seven] at hspells hfits hshortest
  have hpow (n : Nat) : 2 ^ (7 * (n + 1)) = 128 * 2 ^ (7 * n) := by rw [Nat.mul_succ, pow_add, Nat.mul_comm]; rfl
  refine ⟨?_, (endsAtLast_cons (List.length_pos_iff.1 hlen)).2 ⟨le_toNat_continuationByte u, hends⟩, ?_, fun _ => ?_⟩
  · rw [base128_cons, toNat_continuationByte_mod, hspells]
    omega
  · rw [List.length_cons, hpow]
    omega
  · rw [List.length_cons, Nat.add_sub_cancel]
    obtain ⟨n, hn⟩ : ∃ n, bs.length = n + 1 := ⟨bs.length - 1, by omega⟩
    rw [hn, hpow]
    rcases Nat.eq_zero_or_pos n with rfl | hn0
    · simpa using Nat.not_lt.1 hu
    · have := hshortest (by omega)
      rw [hn, Nat.add_sub_cancel] at this
      omega

/-- With fuel for every digit the bytes are the shortest form. -/
theorem varintGroups_spells (fuel : Nat) (u : Word) (h : u.toNat < 2 ^ (7 * (fuel + 1))) :
    SpellsShortest (varintGroups (fuel + 1) u) u.toNat := by
  induction fuel generalizing u with
  | zero =>
    have hlt : u.toNat < 128 := h
    rw [varintGroups_of_lt hlt]
    exact spellsShortest_last hlt
  | succ fuel ih =>
    by_cases hlt : u.toNat < 128
    · rw [varintGroups_of_lt hlt]
      exact spellsShortest_last hlt
    · rw [varintGroups_of_ge hlt]
      refine spellsShortest_continue hlt (varintGroups_length_pos fuel _) (ih _ ?_)
      rw [toNat_ushiftRight_seven]
      rw [show 7 * (fuel + 1 + 1) = 7 * (fuel + 1) + 7 by omega, pow_add] at h
      exact Nat.div_lt_of_lt_mul (by omega)

/-- Settles O24: zig-zag by arithmetic, and the bytes digit by digit. -/
theorem varintFormat : Obligations.VarintFormat := by
  intro v
  have hlt : (zigZag v).toNat < 2 ^ (7 * 10) := lt_of_lt_of_le (zigZag v).isLt (by decide)
  obtain ⟨hspells, hends, hfits, hshortest⟩ := varintGroups_spells 9 (zigZag v) hlt
  obtain ⟨hpos, hten⟩ := varintBytes_length v
  exact ⟨zigZag_toNat v, unZigZag_zigZag v, hpos, hten, hspells, hends, hfits, hshortest⟩

/-! ## `VARGET` on a varint of any form (R287, R291) -/

/-- The seven bits of a byte and the digits above it are the number they spell. -/
theorem or_shiftLeft_base128 (b : Byte) (n : Nat) :
    (b.setWidth 64 &&& 0x7F#64) ||| BitVec.ofNat 64 n <<< 7 = BitVec.ofNat 64 (b.toNat % 128 + 128 * n) := by
  have hlow : b.toNat % 128 < 2 ^ 7 := Nat.mod_lt _ (by decide)
  have hbyte : b.setWidth 64 &&& 0x7F#64 = BitVec.ofNat 64 (b.toNat % 128) := by
    apply BitVec.eq_of_toNat_eq
    rw [BitVec.toNat_and, toNat_setWidth_byte, BitVec.toNat_ofNat, BitVec.toNat_ofNat,
      Nat.mod_eq_of_lt (by omega : b.toNat % 128 < 2 ^ 64)]
    exact Nat.and_two_pow_sub_one_eq_mod _ 7
  have hshift : BitVec.ofNat 64 n <<< 7 = BitVec.ofNat 64 (2 ^ 7 * n) := by
    apply BitVec.eq_of_toNat_eq
    rw [BitVec.toNat_shiftLeft, BitVec.toNat_ofNat, BitVec.toNat_ofNat, Nat.shiftLeft_eq]
    omega
  rw [hbyte, hshift, ← BitVec.ofNat_or, Nat.or_comm, ← Nat.two_pow_add_eq_or_of_lt hlow, Nat.add_comm]

/-- A byte put above what is read so far, and the digits that follow it. -/
theorem or_byte_or_base128 (u : Word) (b : Byte) (k n : Nat) :
    (u ||| (b.setWidth 64 &&& 0x7F#64) <<< (7 * k)) ||| BitVec.ofNat 64 n <<< (7 * (k + 1)) =
      u ||| BitVec.ofNat 64 (b.toNat % 128 + 128 * n) <<< (7 * k) := by
  rw [← or_shiftLeft_base128, BitVec.shiftLeft_or_distrib, ← BitVec.shiftLeft_add, BitVec.or_assoc,
    show 7 * (k + 1) = 7 + 7 * k by omega]

/-- `VarGet` takes the bytes of a varint, `k` bytes read before them, and adds the number they spell. -/
theorem varGetFrom_bytes {s : State} (bs : List Byte) {fuel k i : Nat} {u : Word} (hk : fuel + k = 10)
    (hne : bs ≠ []) (hlen : bs.length ≤ fuel) (hfit : 8 * (i + bs.length) ≤ s.blen.toNat)
    (hbytes : ∀ j (h : j < bs.length), s.buf.byte (i + j) = bs[j]) (hends : EndsAtLast bs)
    (htenth : ∀ b, bs[9 - k]? = some b → b.toNat ≤ 1) :
    varGetFrom s fuel k u (8 * i) =
      .ok (unZigZag (u ||| BitVec.ofNat 64 (base128 bs) <<< (7 * k)), 8 * (i + bs.length)) := by
  induction bs generalizing fuel k i u with
  | nil => exact absurd rfl hne
  | cons b bs ih =>
    simp only [List.length_cons] at hlen hfit hbytes
    obtain ⟨fuel, rfl⟩ : ∃ m, fuel = m + 1 := ⟨fuel - 1, by omega⟩
    have hbyte : s.buf.byte i = b := hbytes 0 (by omega)
    have htop : ¬ (k = 9 ∧ b.toNat > 1) := by
      rintro ⟨rfl, hgt⟩
      exact Nat.not_lt.2 (htenth b rfl) hgt
    rw [varGetFrom, if_neg (by omega), getBits_byte (by omega), ok_bind]
    simp only [hbyte, toNat_setWidth_byte, if_neg htop]
    by_cases hlast : bs = []
    · subst hlast
      have hvalue := or_byte_or_base128 u b k 0
      rw [BitVec.zero_shiftLeft, BitVec.or_zero] at hvalue
      rw [if_pos (endsAtLast_singleton.1 hends), hvalue]
      rfl
    · obtain ⟨hb, hends⟩ := (endsAtLast_cons hlast).1 hends
      have hrest (j : Nat) (hj : j < bs.length) : s.buf.byte (i + 1 + j) = bs[j] := by
        rw [show i + 1 + j = i + (j + 1) by omega]
        exact hbytes (j + 1) (by omega)
      have hnext := List.length_pos_iff.2 hlast
      rw [if_neg (Nat.not_lt.2 hb), show 8 * i + 8 = 8 * (i + 1) by omega,
        ih (by omega) hlast (by omega) (by omega) hrest hends fun b' hb' => htenth b' ?_,
        or_byte_or_base128, base128_cons, List.length_cons, show i + 1 + bs.length = i + (bs.length + 1) by omega]
      rwa [show 9 - k = 9 - (k + 1) + 1 by omega, List.getElem?_cons_succ]

/-- Settles O26: the loop takes the bytes one by one, and the cursor moves past them. -/
theorem varGetForms : Obligations.VarGetForms := by
  intro s bs h8 h1 hten hfit hbytes hends htenth
  have hpos : 8 * (s.rpos.toNat / 8) = s.rpos.toNat := by omega
  have hread : varGet s s.rpos.toNat =
      .ok (unZigZag (BitVec.ofNat 64 (base128 bs)), s.rpos.toNat + 8 * bs.length) := by
    have hloop := varGetFrom_bytes bs (fuel := 10) (k := 0) (u := 0) rfl (List.length_pos_iff.1 h1) hten
      (i := s.rpos.toNat / 8) (by omega) hbytes hends htenth
    rw [Nat.mul_add, hpos] at hloop
    simpa [varGet] using hloop
  refine congrArg Host.Outcome.next (primitive_ok ?_)
  rw [if_neg (not_not.2 h8), hread, ok_bind, readInto, ofNat_toNat_add]
  rfl

end Sys2Proof.Machine
end

section
/-! SUPPORT. Which errors each command can raise, reader by reader and check by check, held against the table of R302. -/

namespace Sys2Proof.Machine

/-! ## Computations that raise only certain causes -/

/-- Whatever this computation raises is a cause `P` allows. -/
def OnlyRaises {α : Type} (P : Cause → Prop) (x : Except Cause α) : Prop := ∀ c, x = .error c → P c

section
variable {α β : Type} {P : Cause → Prop}

theorem onlyRaises_ok {a : α} : OnlyRaises P (.ok a) := fun _ h => by cases h

theorem onlyRaises_error {c : Cause} (h : P c) : OnlyRaises P (.error c : Except Cause α) := fun _ hc => by
  cases hc
  exact h

/-- A sequence raises what its parts raise. -/
theorem OnlyRaises.bind {x : Except Cause α} {f : α → Except Cause β} (hx : OnlyRaises P x)
    (hf : ∀ a, OnlyRaises P (f a)) : OnlyRaises P (x >>= f) := by
  intro c h
  rcases bind_eq_error.1 h with h | ⟨a, -, h⟩
  · exact hx c h
  · exact hf a c h

end

/-! ## Readers of bit-packed bodies -/

/-- The causes every reader of a bit-packed body can raise (R302). -/
structure AllowsBitErrors (P : Cause → Prop) : Prop where
  eosBits : P .eosBits
  tail : P .tail
  countMismatch : P .countMismatch
  firstMismatch : P .firstMismatch

section
variable {P : Cause → Prop} {s : State}

theorem getBit_raises (h : P .eosBits) (pos : Nat) : OnlyRaises P (getBit s pos) := fun _ hc => by
  obtain ⟨-, rfl⟩ := getBit_eq_error.1 hc
  exact h

theorem getBits_raises (h : P .eosBits) (pos n : Nat) : OnlyRaises P (getBits s pos n) := fun _ hc => by
  obtain ⟨-, rfl⟩ := getBits_eq_error.1 hc
  exact h

theorem endOfBits_raises (h : P .tail) (r : List Word × Nat) : OnlyRaises P (endOfBits s r) := by
  unfold endOfBits
  split
  · exact onlyRaises_error h
  · exact onlyRaises_ok

/-- The item loop raises what an item raises. -/
theorem decodeItems_raises {σ : Type} {item : σ → Nat → Except Cause (Word × σ × Nat)}
    (hitem : ∀ st pos, OnlyRaises P (item st pos)) (n : Nat) (st : σ) (pos : Nat) :
    OnlyRaises P (decodeItems item n st pos) := by
  induction n generalizing st pos with
  | zero => exact onlyRaises_ok
  | succ n ih => exact (hitem st pos).bind fun r => (ih r.2.1 r.2.2).bind fun _ => onlyRaises_ok

theorem readFramedHeader_raises (h : AllowsBitErrors P) : OnlyRaises P (readFramedHeader s) := by
  refine (getBits_raises h.eosBits _ _).bind fun f => (getBits_raises h.eosBits _ _).bind fun n => ?_
  split
  · exact onlyRaises_error h.countMismatch
  · split
    · exact onlyRaises_error h.firstMismatch
    · exact onlyRaises_ok

/-- A reader of the Gorilla framing raises what its header, its items and the tail check raise. -/
theorem framed_raises {σ : Type} {item : σ → Nat → Except Cause (Word × σ × Nat)} (h : AllowsBitErrors P)
    (hitem : ∀ st pos, OnlyRaises P (item st pos)) (start : Word → σ) :
    OnlyRaises P (readFramedHeader s >>= fun h => decodeItems item (s.count.toNat - 1) (start h.1) h.2 >>= fun r =>
      endOfBits s (h.1 :: r.1, r.2)) :=
  (readFramedHeader_raises h).bind fun _ => (decodeItems_raises hitem _ _ _).bind fun _ => endOfBits_raises h.tail _

/-- So does a reader whose header is the item count in `width` bits. -/
theorem counted_raises {σ : Type} {item : σ → Nat → Except Cause (Word × σ × Nat)} (h : AllowsBitErrors P)
    (hitem : ∀ st pos, OnlyRaises P (item st pos)) (start : σ) (width : Nat) :
    OnlyRaises P (getBits s 0 width >>= fun n => if n.1.toNat ≠ s.count.toNat then .error .countMismatch
      else decodeCheckedItems item s start n.2 >>= endOfBits s) := by
  refine (getBits_raises h.eosBits _ _).bind fun n => ?_
  split
  · exact onlyRaises_error h.countMismatch
  · refine OnlyRaises.bind ((hitem _ _).bind fun r0 => ?_) (endOfBits_raises h.tail)
    split
    · exact onlyRaises_error h.firstMismatch
    · exact (decodeItems_raises hitem _ _ _).bind fun _ => onlyRaises_ok

theorem gorillaGetItem_raises (hbits : P .eosBits) (hwindow : P .window) (lay : Layout) (st : GorillaState) (pos : Nat) :
    OnlyRaises P (gorillaGetItem s lay st pos) := by
  have hwin (pos : Nat) : OnlyRaises P (gorillaGetWindow s lay st pos) := by
    refine (getBit_raises hbits _).bind fun flag => ?_
    split
    · exact (getBits_raises hbits _ _).bind fun _ => (getBits_raises hbits _ _).bind fun _ => onlyRaises_ok
    · exact onlyRaises_ok
  refine (getBit_raises hbits _).bind fun c => ?_
  split
  · refine (hwin _).bind fun win => ?_
    simp only
    split
    · exact onlyRaises_error hwindow
    · exact (getBits_raises hbits _ _).bind fun _ => onlyRaises_ok
  · exact onlyRaises_ok

theorem chimpGetXor_raises (hbits : P .eosBits) (hwindow : P .window) (c : Nat) (pL : Option Nat) (pos : Nat) :
    OnlyRaises P (chimpGetXor s c pL pos) := by
  unfold chimpGetXor
  split
  · refine (getBits_raises hbits _ _).bind fun f => (getBits_raises hbits _ _).bind fun k => ?_
    simp only
    split
    · exact onlyRaises_error hwindow
    · exact (getBits_raises hbits _ _).bind fun _ => onlyRaises_ok
  · split
    · split
      · exact onlyRaises_error hwindow
      · exact (getBits_raises hbits _ _).bind fun _ => onlyRaises_ok
    · exact (getBits_raises hbits _ _).bind fun _ => (getBits_raises hbits _ _).bind fun _ => onlyRaises_ok

theorem chimpGetItem_raises (hbits : P .eosBits) (hwindow : P .window) (st : ChimpState) (pos : Nat) :
    OnlyRaises P (chimpGetItem s st pos) := by
  refine (getBits_raises hbits _ _).bind fun c => ?_
  split
  · exact onlyRaises_ok
  · exact (chimpGetXor_raises hbits hwindow _ _ _).bind fun _ => onlyRaises_ok

theorem fpcGetItem_raises (hbits : P .eosBits) (st : FpcState) (pos : Nat) : OnlyRaises P (fpcGetItem s st pos) :=
  (getBit_raises hbits _).bind fun _ => (getBits_raises hbits _ _).bind fun _ =>
    (getBits_raises hbits _ _).bind fun _ => onlyRaises_ok

theorem getResidual_raises (hbits : P .eosBits) (hwindow : P .window) (pos : Nat) :
    OnlyRaises P (getResidual s pos) := by
  refine (getBits_raises hbits _ _).bind fun t => (getBits_raises hbits _ _).bind fun l => ?_
  split
  · exact onlyRaises_error hwindow
  · exact (getBits_raises hbits _ _).bind fun _ => onlyRaises_ok

theorem pdfcmGetShape_raises (hbits : P .eosBits) (hwindow : P .window) (st : PdfcmState) (pos : Nat) :
    OnlyRaises P (pdfcmGetShape s st pos) := by
  refine (getBits_raises hbits _ _).bind fun shape => ?_
  split
  · exact (getBits_raises hbits _ _).bind fun _ => onlyRaises_ok
  · split
    · exact getBits_raises hbits _ _
    · split
      · exact (getBits_raises hbits _ _).bind fun _ => (getResidual_raises hbits hwindow _).bind fun _ => onlyRaises_ok
      · exact (getResidual_raises hbits hwindow _).bind fun _ => onlyRaises_ok

theorem pdfcmGetItem_raises (hbits : P .eosBits) (hwindow : P .window) (st : PdfcmState) (pos : Nat) :
    OnlyRaises P (pdfcmGetItem s st pos) := by
  refine (getBit_raises hbits _).bind fun c => ?_
  split
  · exact (pdfcmGetShape_raises hbits hwindow _ _).bind fun _ => onlyRaises_ok
  · exact onlyRaises_ok

theorem getNibble_raises (hbits : P .eosBits) (pos : Nat) : OnlyRaises P (getNibble s pos) := by
  refine (getBit_raises hbits _).bind fun b => ?_
  split
  · refine (getBits_raises hbits _ _).bind fun t => ?_
    split
    · exact onlyRaises_ok
    · exact (getBit_raises hbits _).bind fun _ => onlyRaises_ok
  · exact onlyRaises_ok

theorem getNibbles_raises (hbits : P .eosBits) (n : Nat) (x : Word) (pos : Nat) :
    OnlyRaises P (getNibbles s n x pos) := by
  induction n generalizing x pos with
  | zero => exact onlyRaises_ok
  | succ n ih => exact (getNibble_raises hbits _).bind fun _ => ih _ _

theorem huffGetItem_raises (hbits : P .eosBits) (prev : Word) (pos : Nat) : OnlyRaises P (huffGetItem s prev pos) :=
  (getNibbles_raises hbits _ _ _).bind fun _ => onlyRaises_ok

/-! ## Readers of byte-stream bodies -/

/-- The causes `VarGet` can raise (R291). -/
structure AllowsVarintErrors (P : Cause → Prop) : Prop where
  eosVarint : P .eosVarint
  varintOverflow : P .varintOverflow

theorem varGet_raises (h : AllowsVarintErrors P) (pos : Nat) : OnlyRaises P (varGet s pos) := by
  have hloop (fuel : Nat) : ∀ k u pos, OnlyRaises P (varGetFrom s fuel k u pos) := by
    induction fuel with
    | zero => exact fun _ _ _ => onlyRaises_error h.varintOverflow
    | succ fuel ih =>
      intro k u pos
      unfold varGetFrom
      split
      · exact onlyRaises_error h.eosVarint
      · next hleft =>
        rw [getBits_eq_ok.2 ⟨by omega, rfl⟩, ok_bind]
        simp only
        split
        · exact onlyRaises_error h.varintOverflow
        · split
          · exact onlyRaises_ok
          · exact ih _ _ _
  exact hloop 10 0 0 pos

theorem endOfBytes_raises (h : P .tail) (r : List Word × Nat) : OnlyRaises P (endOfBytes s r) := by
  unfold endOfBytes
  split
  · exact onlyRaises_error h
  · exact onlyRaises_ok

theorem residRead_raises (h : AllowsVarintErrors P) (hitems : P .eosItems) (htail : P .tail) (k : Scheme) :
    OnlyRaises P (residRead k s) := by
  refine (decodeItems_raises (fun st pos => ?_) _ _ _).bind fun _ => endOfBytes_raises htail _
  unfold residGetItem
  split
  · exact onlyRaises_error hitems
  · exact (varGet_raises h _).bind fun _ => onlyRaises_ok

theorem constRead_raises (htail : P .tail) : OnlyRaises P (constRead s) := by
  unfold constRead
  split
  · exact onlyRaises_error htail
  · exact onlyRaises_ok

theorem deltaconstRead_raises (h : AllowsVarintErrors P) (hitems : P .eosItems) (htail : P .tail) :
    OnlyRaises P (deltaconstRead s) := by
  unfold deltaconstRead
  split
  · exact onlyRaises_error hitems
  · exact (varGet_raises h _).bind fun _ => endOfBytes_raises htail _

theorem restVarints_raises (h : AllowsVarintErrors P) (fuel pos : Nat) : OnlyRaises P (restVarints s fuel pos) := by
  induction fuel generalizing pos with
  | zero => exact onlyRaises_ok
  | succ fuel ih =>
    unfold restVarints
    split
    · exact onlyRaises_ok
    · exact (varGet_raises h _).bind fun v => (ih v.2).bind fun _ => onlyRaises_ok

theorem expandPairs_raises (htail : P .tail) (hrun : P .badRun) (hfirst : P .firstMismatch) (hitems : P .eosItems)
    (a : List Word) (head : Bool) (made : Nat) : OnlyRaises P (expandPairs s a head made) := by
  fun_induction expandPairs s a head made with
  | case1 => exact onlyRaises_error htail
  | case2 => exact onlyRaises_error hrun
  | case3 => exact onlyRaises_error hfirst
  | case4 _ _ _ _ _ _ _ _ _ ih => exact ih.bind fun _ => onlyRaises_ok
  | case5 => exact onlyRaises_error hitems
  | case6 => exact onlyRaises_ok

theorem rleRead_raises (h : AllowsVarintErrors P) (hodd : P .oddPairs) (hcount : P .countMismatch) (htail : P .tail)
    (hrun : P .badRun) (hfirst : P .firstMismatch) (hitems : P .eosItems) : OnlyRaises P (rleRead s) := by
  unfold rleRead
  split
  · exact onlyRaises_error hitems
  · refine (varGet_raises h _).bind fun p => (restVarints_raises h _ _).bind fun a => ?_
    split
    · exact onlyRaises_error hodd
    · split
      · exact onlyRaises_error hcount
      · exact (expandPairs_raises htail hrun hfirst hitems _ _ _).bind fun _ => onlyRaises_ok

end

/-! ## Decompress commands against the table -/

theorem mem_bitDecoders {i : Instr} : i ∈ bitDecoders ↔
    i = .gorillaD ∨ i = .gorillazD ∨ i = .gorillaplusD ∨ i = .chimpD ∨ i = .fpcD ∨ i = .pdfcmD ∨ i = .huffD := by
  simp [bitDecoders]

theorem mem_byteDecoders {i : Instr} : i ∈ byteDecoders ↔
    i = .deltaD ∨ i = .delta2D ∨ i = .xordeltaD ∨ i = .deltaxorD ∨ i = .plainD ∨ i = .deltaconstD ∨ i = .rleD := by
  simp [byteDecoders]

/-- The table lets every decompress command with a bit-packed body raise what its reader can (R302). -/
theorem bitDecoder_raises {i : Instr} (hi : i ∈ bitDecoders) (s : State) :
    OnlyRaises (raisedBy · i) (decompressBody i s) := by
  have hbits : raisedBy .eosBits i := .inr (.inr hi)
  have hdecoder : i ∈ decompressCommands := List.mem_append_left _ (List.mem_append_left _ hi)
  have h : AllowsBitErrors (raisedBy · i) := ⟨hbits, hdecoder, .inl hi, .inl hi⟩
  rcases mem_bitDecoders.1 hi with rfl | rfl | rfl | rfl | rfl | rfl | rfl
  · exact framed_raises h (gorillaGetItem_raises hbits (by simp [raisedBy]) .g) _
  · exact framed_raises h (gorillaGetItem_raises hbits (by simp [raisedBy]) .z) _
  · exact framed_raises h (gorillaGetItem_raises hbits (by simp [raisedBy]) .p) _
  · exact framed_raises h (chimpGetItem_raises hbits (by simp [raisedBy])) fun v => { prev := v, pL := none }
  · exact counted_raises h (fpcGetItem_raises hbits) _ _
  · exact framed_raises h (pdfcmGetItem_raises hbits (by simp [raisedBy])) _
  · exact counted_raises h (huffGetItem_raises hbits) _ _

/-- And every decompress command whose body is a stream of varints (R302). -/
theorem byteDecoder_raises {i : Instr} (hi : i ∈ byteDecoders) (s : State) :
    OnlyRaises (raisedBy · i) (decompressBody i s) := by
  have h : AllowsVarintErrors (raisedBy · i) := ⟨.inr hi, .inr hi⟩
  have hitems : raisedBy .eosItems i := hi
  have htail : raisedBy .tail i := List.mem_append_left _ (List.mem_append_right _ hi)
  rcases mem_byteDecoders.1 hi with rfl | rfl | rfl | rfl | rfl | rfl | rfl
  · exact residRead_raises h hitems htail .delta
  · exact residRead_raises h hitems htail .delta2
  · exact residRead_raises h hitems htail .xorDelta
  · exact residRead_raises h hitems htail .deltaXor
  · exact residRead_raises h hitems htail .plain
  · exact deltaconstRead_raises h hitems htail
  · exact rleRead_raises h rfl (.inr rfl) htail rfl (.inr rfl) hitems

theorem decompressBody_raises {i : Instr} (hi : i ∈ decompressCommands) (s : State) :
    OnlyRaises (raisedBy · i) (decompressBody i s) := by
  rcases List.mem_append.1 hi with hmem | hconst
  · rcases List.mem_append.1 hmem with hbit | hbyte
    · exact bitDecoder_raises hbit s
    · exact byteDecoder_raises hbyte s
  · obtain rfl := List.mem_singleton.1 hconst
    exact constRead_raises hi

/-- The three checks before a decompress command reads (R16). -/
theorem decompressCheck_raises {i : Instr} (hi : i ∈ decompressCommands) (s : State) :
    OnlyRaises (raisedBy · i) (decompressCheck s) := by
  unfold decompressCheck
  split
  · exact onlyRaises_error (.inr (.inr hi))
  · split
    · exact onlyRaises_error (.inr hi)
    · split
      · exact onlyRaises_error hi
      · exact onlyRaises_ok

/-! ## Compress commands against the table -/

/-- A block longer than `maxN` raises `TOO_MANY` only where the body has a count header: `SLEN` is within `VCAP` (R14). -/
theorem raisedBy_tooMany {i : Instr} {s : State} (hs : s.Inv) (h : maxItems i s.cfg.vcap < s.slen.toNat) :
    raisedBy .tooMany i := by
  have hslen := hs.slen_le
  unfold maxItems at h
  split_ifs at h with hhuff hcounted
  · subst hhuff
    exact (by decide : Instr.huffC ∈ countedEncoders)
  · exact hcounted
  · omega

/-- Only `CONST.C` and `DELTACONST.C` have blocks they do not take (R236, R238). -/
theorem compressBody_raises {i : Instr} (hi : i ∈ compressCommands) (log2 : Nat) (vs : List Word) :
    OnlyRaises (raisedBy · i) (compressBody log2 i vs) := by
  intro c hc
  obtain rfl := compressBody_error hc
  by_cases h1 : i = .constC
  · exact .inl h1
  by_cases h2 : i = .deltaconstC
  · exact .inr h2
  obtain ⟨bits, hbits, -⟩ := compressBody_fits log2 hi h1 h2 vs
  rw [hbits] at hc
  cases hc

/-- A body that does not fit `BUF` is not empty, so it is not that of `CONST.C` (R236). -/
theorem raisedBy_overflowBuf {i : Instr} (hi : i ∈ compressCommands) {log2 cap : Nat} {vs : List Word}
    {bits : List Bool} (hb : compressBody log2 i vs = .ok bits) (h : cap < bits.length) : raisedBy .overflowBuf i := by
  rcases List.mem_append.1 hi with hmem | hconst
  · exact .inr (.inr (.inr (List.mem_append.1 hmem)))
  · obtain rfl := List.mem_singleton.1 hconst
    rw [constBody_eq_ok hb] at h
    exact absurd h (Nat.not_lt_zero _)

theorem compressRun_raises {i : Instr} (hi : i ∈ compressCommands) {s : State} (hs : s.Inv) :
    OnlyRaises (raisedBy · i)
      (compressRun (minItems i) (maxItems i s.cfg.vcap) (compressBody s.cfg.fpcLog2 i) s) := by
  unfold compressRun
  split
  · exact onlyRaises_error (.inl hi)
  · split
    · next hmany => exact onlyRaises_error (raisedBy_tooMany hs hmany)
    · intro c hc
      rcases bind_eq_error.1 hc with hbody | ⟨bits, hbits, hput⟩
      · exact compressBody_raises hi _ _ c hbody
      · rcases bind_eq_error.1 hput with hput | ⟨p, -, hend⟩
        · obtain ⟨hfull, rfl⟩ := putBits_eq_error.1 hput
          exact raisedBy_overflowBuf hi hbits (lt_of_lt_of_eq hfull (Nat.zero_add _))
        · cases hend

/-! ## What a command leaves in `STATUS` -/

/-- `STATUS` is as before, or the record of a cause `P` allows, with this opcode. -/
def RecordsOnly (P : Cause → Prop) (opc : BitVec 8) (s t : State) : Prop :=
  t.status = s.status ∨ ∃ c, P c ∧ t.status = statusWord c opc

section
variable {P : Cause → Prop} {opc : BitVec 8} {s : State}

theorem primitive_records {effect : State → Except Cause State} (h : OnlyRaises P (effect s))
    (hok : ∀ t, effect s = .ok t → t.status = s.status) : RecordsOnly P opc s (primitive opc effect s) := by
  cases he : effect s with
  | ok t => rw [primitive_ok he]; exact .inl (hok t he)
  | error c => rw [primitive_error he]; exact .inr ⟨c, h c he, rfl⟩

theorem compress_records {minN maxN : Nat} {body : List Word → Except Cause (List Bool)}
    (h : OnlyRaises P (compressRun minN maxN body s)) : RecordsOnly P opc s (compress opc minN maxN body s) := by
  unfold compress
  split
  · next t ht =>
    obtain ⟨-, -, bits, -, -, p, hp, rfl⟩ := compressRun_eq_ok.1 ht
    obtain ⟨-, rfl⟩ := putBits_eq_ok.1 hp
    exact .inl rfl
  · next c hc => exact .inr ⟨c, h c hc, rfl⟩

theorem decompress_records {body : State → Except Cause (List Word × Nat)}
    (h : OnlyRaises P (decompressCheck s >>= fun _ => body s)) : RecordsOnly P opc s (decompress opc body s) := by
  unfold decompress
  split
  · exact .inl rfl
  · next c hc => exact .inr ⟨c, h c hc, rfl⟩

/-! ## Primitive commands -/

theorem appendBits_raises (h : P .overflowBuf) (bs : List Bool) : OnlyRaises P (appendBits bs s) := fun _ hc => by
  obtain ⟨-, rfl⟩ := appendBits_eq_error.1 hc
  exact h

theorem appendBits_status {bs : List Bool} {t : State} (h : appendBits bs s = .ok t) : t.status = s.status := by
  obtain ⟨-, rfl⟩ := appendBits_eq_ok.1 h
  rfl

theorem checkCount_raises (h : P .nbits) (n : Nat) : OnlyRaises P (checkCount n) := by
  unfold checkCount
  split
  · exact onlyRaises_error h
  · exact onlyRaises_ok

end

section
variable {i : Instr} {s t : State}

/-- The appends raise `OVERFLOW(BUF)`, and what their own check raises (R127, R128, R288). -/
theorem appends_records (hi : Appends i) (h : exec i s = .next t) : RecordsOnly (raisedBy · i) i.opc s t := by
  rcases hi with ⟨b, rfl⟩ | ⟨n, rfl⟩ | rfl
  · cases h
    exact primitive_records (appendBits_raises (.inl ⟨b, rfl⟩) _) fun _ => appendBits_status
  · cases h
    refine primitive_records ((checkCount_raises (.inl ⟨n, rfl⟩) n).bind fun _ =>
      appendBits_raises (.inr (.inl ⟨n, rfl⟩)) _) fun t ht => ?_
    obtain ⟨-, -, ht⟩ := bind_eq_ok.1 ht
    exact appendBits_status ht
  · cases h
    refine primitive_records ?_ fun t ht => ?_
    · split
      · exact onlyRaises_error (.inl rfl)
      · exact appendBits_raises (.inr (.inr (.inl rfl))) _
    · split at ht
      · cases ht
      · exact appendBits_status ht

/-- The reads raise `EOS`, and what their own check and `VarGet` raise (R131, R132, R289). -/
theorem reads_records (hi : ReadsIntoVal i) (h : exec i s = .next t) : RecordsOnly (raisedBy · i) i.opc s t := by
  rcases hi with rfl | ⟨n, rfl⟩ | rfl
  · cases h
    refine primitive_records ((getBit_raises (.inl rfl) _).bind fun _ => onlyRaises_ok) fun t ht => ?_
    obtain ⟨r, -, ht⟩ := bind_eq_ok.1 ht
    cases ht
    rfl
  · cases h
    refine primitive_records ((checkCount_raises (.inr ⟨n, rfl⟩) n).bind fun _ =>
      (getBits_raises (.inr (.inl ⟨n, rfl⟩)) _ _).bind fun _ => onlyRaises_ok) fun t ht => ?_
    obtain ⟨-, -, ht⟩ := bind_eq_ok.1 ht
    obtain ⟨r, -, ht⟩ := bind_eq_ok.1 ht
    cases ht
    rfl
  · cases h
    refine primitive_records ?_ fun t ht => ?_
    · split
      · exact onlyRaises_error (.inr (.inl rfl))
      · exact (varGet_raises ⟨.inl rfl, .inl rfl⟩ _).bind fun _ => onlyRaises_ok
    · split at ht
      · cases ht
      · obtain ⟨r, -, ht⟩ := bind_eq_ok.1 ht
        cases ht
        rfl

/-- A codec command raises at its checks, in its encoder or reader, or where the body does not fit (R14, R16). -/
theorem codec_records (hi : i ∈ compressCommands ∨ i ∈ decompressCommands) (hs : s.Inv) (h : exec i s = .next t) :
    RecordsOnly (raisedBy · i) i.opc s t := by
  rcases hi with hc | hd
  · rw [exec_compressCommand hc] at h
    cases h
    exact compress_records (compressRun_raises hc hs)
  · rw [exec_decompressCommand hd] at h
    cases h
    exact decompress_records ((decompressCheck_raises hd s).bind fun _ => decompressBody_raises hd s)

end

/-- Settles O9: by what a command can do; where it can raise, its checks and its reader say what. -/
theorem errorsOnlyByTable : Obligations.ErrorsOnlyByTable := by
  intro i s t hs h
  cases exec_leads h with
  | nop | bsresetEmpty | bsreset | finishAligned | finish | rewind | stats | classify => exact .inl rfl
  | clrerr => exact .inr (.inl ⟨rfl, .inl rfl⟩)
  | sreset => exact .inr (.inl ⟨rfl, .inr rfl⟩)
  | append hi => exact (appends_records hi h).imp_right .inr
  | read hi => exact (reads_records hi h).imp_right .inr
  | raisePrimitive _ hi => exact (hi.elim (appends_records · h) (reads_records · h)).imp_right .inr
  | compress hi | raiseCompress _ hi => exact (codec_records (.inl hi) hs h).imp_right .inr
  | decompress hi | raiseDecompress _ hi => exact (codec_records (.inr hi) hs h).imp_right .inr

end Sys2Proof.Machine
end

section
/-! SUPPORT. What a faulted block does with command words and host accesses (R308), the control commands (R309, R342), and
that every command answers a next state (R360). -/

namespace Sys2Proof.Machine

/-! ## Host accesses and `STATUS` (R36, R308) -/

/-- A write of a register other than `CMD` neither reads nor writes `STATUS` (R35, R36). -/
theorem writeRegister_withStatus (num : Nat) (v : Word) (s : State) (x : BitVec 32) :
    writeRegister num v { s with status := x } = { writeRegister num v s with status := x } := by
  unfold writeRegister
  split
  · rfl
  · rfl
  · rfl
  · simp only [writeByteLen]; split <;> rfl
  · simp only [writeSlen]; split <;> rfl
  · simp only [writeDlen]; split <;> rfl
  · rfl

/-- Only the read of register 1 gives `STATUS` (R35). -/
theorem readRegister_withStatus {num : Nat} (h : num ≠ 1) (s : State) (x : BitVec 32) :
    readRegister num { s with status := x } = readRegister num s := by
  unfold readRegister
  split
  case h_1 => exact absurd rfl h
  all_goals rfl

/-- A host access that is neither a `CMD` write, a read of `STATUS` nor a hardware reset does the same whatever `STATUS`
holds, and keeps it (R308). -/
theorem hostAction_withStatus {s t : State} {e : HostEvent} (x : BitVec 32) (hcmd : ∀ v, e ≠ .writeReg 0 v)
    (hstatus : e ≠ .readReg 1) (hreset : e ≠ .hwReset) (h : hostAction e s = .next t) :
    hostAction e { s with status := x } = .next { t with status := x } := by
  cases e with
  | writeReg num v =>
    have hnum : num ≠ 0 := fun h0 => hcmd v (by rw [h0])
    simp only [hostAction, if_neg hnum] at h ⊢
    cases h
    rw [writeRegister_withStatus]
  | readReg num =>
    have hnum : num ≠ 1 := fun h1 => hstatus (by rw [h1])
    simp only [hostAction] at h ⊢
    cases h
    rw [readRegister_withStatus hnum]
  | writeBuf i | readBuf i | writeSrc i | readSrc i | writeDst i | readDst i =>
    simp only [hostAction] at h ⊢
    split at h <;> cases h
    next hi => exact if_pos hi
  | hwReset => exact absurd rfl hreset

/-- Settles O5: a gated word is discarded at step 1, and no other access looks at `STATUS`. -/
theorem faultedDiscards : Obligations.FaultedDiscards := by
  refine ⟨fun s v herr hclrerr hsreset => ?_, fun s t e x hcmd hstatus hreset h => ?_⟩
  · rw [hostAction, if_pos rfl, commandWrite_of_gated herr hclrerr hsreset]
  · exact hostAction_withStatus x hcmd hstatus hreset h

/-! ## Commands that always answer -/

/-- Settles O12: a codec command answers what `compress` or `decompress` makes of the state, and each other command's rule
gives a next state. -/
theorem commandsAreSafe : Obligations.CommandsAreSafe := by
  intro i s
  by_cases hc : i ∈ compressCommands
  · exact ⟨_, exec_compressCommand hc s⟩
  by_cases hd : i ∈ decompressCommands
  · exact ⟨_, exec_decompressCommand hd s⟩
  cases i with
  | nop | bsreset | appendbit | appendbits | finish | rewind | readbit | readbits | varput | varget | stats | classify
  | clrerr | sreset => exact ⟨_, rfl⟩
  | _ => simp [mem_compressCommands, mem_decompressCommands] at hc hd

/-- Settles O16: both words pass the gate, faulted or not, and decode to their command. -/
theorem controlCommands : Obligations.ControlCommands := fun _ =>
  ⟨⟨rfl, commandWrite_of_passes (i := .clrerr) (.inr (.inl rfl)) rfl⟩,
    _, rfl, commandWrite_of_passes (i := .sreset) (.inr (.inr rfl)) rfl, rfl⟩

end Sys2Proof.Machine
end
